-- ==== Sys2Proof/Word.lean ====
section
/-! DEFINITION. The two value types of RBS-LINK (R9: a Byte is 0 to 255, a Word16 is 0 to 65535, nothing is signed). -/

namespace Sys2Proof

/-- A byte: a raw byte, a logical byte, a node address, a sequence id (R9). -/
abbrev Byte := BitVec 8

/-- A 16-bit command or response word of the radio port (R4 `WORD_BITS`, R9). -/
abbrev Word := BitVec 16

end Sys2Proof
end

