-- ==== Sys2Proof/Config.lean ====
section
/-! DEFINITION. What an implementation fixes (R4, R5) and the values the spec leaves free (R66, R67, D27).
The parameters of R5 are the plain record `Cfg`; its reference value and its constraints stand in Machine/Reference.lean. -/

namespace Sys2Proof

/-- The environment profile of CONFIG (R39, R124). -/
inductive Profile where
  | quiet
  | normal
  | noisy
  deriving DecidableEq, Repr

/-- An uninterpreted function from `α` to words (R5, D27), as a parameter that is plain data: the arguments whose word
the configuration fixes, and the number of the function that gives the word of every other argument
(`Machine.WordFn.word`). DESIGN CHOICE (log 9); safe. -/
structure WordFn (α : Type) where
  listed : List (α × Word)
  rest   : Nat
  deriving DecidableEq, Repr

/-- The configuration record of R5: every parameter the source leaves open. `FreqWord`, whose argument has four values,
is the table `freqWords`; `RateWord`, `TxWord` and `RxWord` are the last three fields. -/
structure Cfg where
  myAddr      : Byte
  esc         : Byte
  preamble    : List Byte
  typeData    : Byte
  typeAck     : Byte
  crcPoly     : Byte
  crcInit     : Byte
  rbSize      : Nat
  retryBudget : Byte
  ackTimeout  : Byte
  fillTimeout : Byte
  pollLimit   : Nat
  initSeq     : List Word
  cwIdle      : Word
  cwRxOn      : Word
  cwTxOn      : Word
  cwFifoStop  : Word
  cwFifoArm   : Word
  cwStatus    : Word
  cwRxRead    : Word
  cwTxWrite   : Word
  freqWords   : Vector Word 4
  rateWord    : WordFn Nat
  txWord      : WordFn Nat
  rxWord      : WordFn Profile
  deriving DecidableEq, Repr

namespace Config

/-- `MAX_LEN` (R4): the largest payload length. -/
abbrev maxLen : Nat := 128

/-- `TX_CAP` (R4): the capacity of the pending-payload buffer. -/
abbrev txCap : Nat := 128

/-- `WD_LIMIT` (R4): the frame watchdog bound, in invocations. -/
abbrev wdLimit : Nat := 256

/-- The functions a configuration may name as its `RateWord` (R5, D27: uninterpreted), by number, then baud rate.
DESIGN CHOICE (log 9): a constant with no value; safe. -/
opaque freeRateWord : Nat → Nat → Word

/-- The functions a configuration may name as its `TxWord` (R5, D27: uninterpreted), by number, then power level.
DESIGN CHOICE (log 9): a constant with no value; safe. -/
opaque freeTxWord : Nat → Nat → Word

/-- The functions a configuration may name as its `RxWord` (R5, D27: uninterpreted), by number, then profile.
DESIGN CHOICE (log 9): a constant with no value; safe. -/
opaque freeRxWord : Nat → Profile → Word

/-- The free answer of `Radio.exchange` (R66: "ENV may answer any Word16"), one for each count of answers drawn.
DESIGN CHOICE (log 4): a constant with no value, read through a counter of State; safe. -/
opaque freeAnswer : Nat → Word

/-- The free answer of `Radio.ready` (R67: "ENV may answer 0 or 1 at every poll"), one for each count of polls drawn.
DESIGN CHOICE (log 4): a constant with no value, read through a counter of State; safe. -/
opaque freeReady : Nat → Bool

end Config

end Sys2Proof
end

