-- ==== Sys2Proof/Syntax.lean ====
section
/-! DEFINITION. The instructions: one constructor for each of the 58 rows of spec/opcode_table.json, in the table's
order, with the operands the row's rule gives it (R101: "Operands travel beside the code"). -/

namespace Sys2Proof

/-- The five formats of the table's rows (R90, R101). Rows of one format are decoded among themselves only (R102). -/
inductive Format where
  | op
  | st
  | raw
  | type
  | cw
  deriving DecidableEq, Repr

/-- An instruction: an operation (format OP, R100, R101), an arm of RXEVT (ST, R99), a raw byte class (RAW, R93),
a type class (TYPE, R97) or a command word (CW, R94). -/
inductive Instr where
  -- format OP
  | xfer (w : Word)
  | waitRdy
  | init
  | config (baud : Nat) (chan : BitVec 2) (power : Nat) (env : Profile)
  | setRx
  | setTx
  | setIdle
  | resync
  | txByte (v : Byte)
  | rxByte
  | crc8Upd (c b : Byte)
  | frameEnc (t d src q : Byte) (p : List Byte)
  | rxEvt
  | rbPut (b : Byte)
  | rbGet
  | hasData
  | readByte
  | isBusy
  | enqB (b dst : Byte)
  | send (first : Bool)
  | tick
  | ackRx
  | ackTx
  | opRsvd10111
  | opRsvd11xxx (x : BitVec 3)
  -- format ST: the arm with the logical byte `b` that RXEVT has read (R172 to R178)
  | stIdle (b : Byte)
  | stLen (b : Byte)
  | stDst (b : Byte)
  | stSrc (b : Byte)
  | stSeq (b : Byte)
  | stPay (b : Byte)
  | stChk (b : Byte)
  | stNone
  -- format RAW
  | rawFill00
  | rawFillFF
  | rawPlain (v : Byte)
  -- format TYPE
  | typeData
  | typeAck
  | typeRsvd (t : Byte)
  -- format CW
  | cwFifoStop
  | cwFifoArm
  | cwInit0
  | cwInit1
  | cwInit2
  | cwInit3
  | cwInit4
  | cwInit5
  | cwInit6
  | cwIdle
  | cwRxOn
  | cwTxOn
  | cwRxRead
  | cwTxWrite (t : Byte)
  | cwRate (d : BitVec 8)
  | cwFreq (f : BitVec 12)
  | cwTxCfg (d : BitVec 9)
  | cwRxCfg (d : BitVec 11)
  | cwStatus
  deriving DecidableEq, Repr

/-- A request as ENV hands it to the block: the format, and the row's code followed by its operands.
DESIGN CHOICE (log 6): the spec has no command port (R101, D26), so the byte layout is the model's. -/
structure Request where
  fmt   : Format
  bytes : List Byte
  deriving DecidableEq, Repr

/-- Why bytes spell no instruction. -/
inductive DecodeError where
  /-- the bytes end before the code or an operand does -/
  | truncated
  /-- an operation code is 5 bits wide (R101); this byte is 32 or more -/
  | opCodeTooWide (b : Byte)
  /-- a receive state is 3 bits wide (R99); this byte is 8 or more -/
  | stCodeTooWide (b : Byte)
  /-- a channel above 3 cannot be expressed (R103, R124, U14) -/
  | channelAboveThree (b : Byte)
  /-- the profile is one of three (R124) -/
  | unknownProfile (b : Byte)
  /-- a one-bit operand that is neither 0 nor 1 (R101, R221) -/
  | notABit (b : Byte)
  /-- no row of format CW has this word (R103: "any command word not in rule R94") -/
  | unknownCommandWord (w : Word)
  deriving DecidableEq, Repr

end Sys2Proof
end

