-- ==== Sys2Proof/WellFormed.lean ====
section
/-! DEFINITION. When an instruction is one that a request can spell. -/

namespace Sys2Proof

/-- The row's operands are within what its encoding admits. The opaque operands of CONFIG (R39) travel in 32 bits each
and the payload of FRAME.ENC behind one length byte (log 6); `RAW.PLAIN` is any value other than 00 and FF (R93);
`TYPE.RSVD` is any value other than the two `REF` type tags of the table (R97, R102). -/
def Instr.wf : Instr → Bool
  | .config baud _ power _ => decide (baud < 2 ^ 32) && decide (power < 2 ^ 32)
  | .frameEnc _ _ _ _ p => decide (p.length < 256)
  | .rawPlain v => v != 0x00 && v != 0xFF
  | .typeRsvd t => t != 0x01 && t != 0x02
  | _ => true

/-- The instruction that the words of `i` spell. The table gives `CW.INIT3` the word of `CW.FIFO_STOP`, and the row
`CW.FIFO_STOP` "stands first" (R102); every other row is spelled by words of its own. -/
def Instr.canon : Instr → Instr
  | .cwInit3 => .cwFifoStop
  | i => i

/-- The format of the instruction's row. -/
def Instr.format : Instr → Format
  | .stIdle _ | .stLen _ | .stDst _ | .stSrc _ | .stSeq _ | .stPay _ | .stChk _ | .stNone => .st
  | .rawFill00 | .rawFillFF | .rawPlain _ => .raw
  | .typeData | .typeAck | .typeRsvd _ => .type
  | .cwFifoStop | .cwFifoArm | .cwInit0 | .cwInit1 | .cwInit2 | .cwInit3 | .cwInit4 | .cwInit5 | .cwInit6
  | .cwIdle | .cwRxOn | .cwTxOn | .cwRxRead | .cwTxWrite _ | .cwRate _ | .cwFreq _ | .cwTxCfg _ | .cwRxCfg _
  | .cwStatus => .cw
  | _ => .op

end Sys2Proof
end

