-- ==== Sys2Proof/Decode.lean ====
section
/-! DEFINITION. The decoder of the five formats (R90, R99, R101, R102), total on any bytes and refusing by name (R103),
and after it the encoder, written from the same table. Rows of one format are tried in the table's order (R102). The
codes are the table's; how operands follow a code ("Operands travel beside the code", R101) is the model's, log 6:
operands in the order R101 lists them, a Word16 as two bytes with bits 7:0 first, an opaque CONFIG operand as four
bytes with the low byte first, a payload behind its length byte. -/

namespace Sys2Proof

/-- What decoding answers: the instruction and the bytes after it, or why there is none. -/
abbrev Decoded := Except DecodeError (Instr × List Byte)

/-! ### Pieces of a request -/

/-- Bits 7:0 of a word (R63). -/
def loByte (w : Word) : Byte := w.extractLsb' 0 8

/-- Bits 15:8 of a word (R63). -/
def hiByte (w : Word) : Byte := w.extractLsb' 8 8

/-- The word with these bits 15:8 and 7:0 (R63: `word = {prefix, byte}`). -/
def joinWord (hi lo : Byte) : Word := hi ++ lo

/-- The four bytes of a number below 2^32, the low byte first (log 6). -/
def natBytes (n : Nat) : List Byte :=
  [BitVec.ofNat 8 n, BitVec.ofNat 8 (n / 256), BitVec.ofNat 8 (n / 65536), BitVec.ofNat 8 (n / 16777216)]

/-- The number of four bytes, the low byte first (log 6). -/
def natOfBytes (b0 b1 b2 b3 : Byte) : Nat :=
  b0.toNat + 256 * b1.toNat + 65536 * b2.toNat + 16777216 * b3.toNat

/-- The operand byte of a profile: QUIET 0, NORMAL 1, NOISY 2. DESIGN CHOICE (log 6): R39 and R124 name the three profiles
and give them no codes. -/
def profileByte : Profile → Byte
  | .quiet => 0
  | .normal => 1
  | .noisy => 2

/-- The profile of an operand byte; only three profiles exist (R124). That 0, 1, 2 spell QUIET, NORMAL, NOISY is the
model's, DESIGN CHOICE (log 6). -/
def decodeProfile (b : Byte) : Except DecodeError Profile :=
  if b = 0 then .ok .quiet else if b = 1 then .ok .normal else if b = 2 then .ok .noisy else .error (.unknownProfile b)

/-- The channel of an operand byte: 2 bits, a channel above 3 is refused (R103, U14). -/
def decodeChannel (b : Byte) : Except DecodeError (BitVec 2) :=
  if b.toNat < 4 then .ok (b.setWidth 2) else .error (.channelAboveThree b)

/-- A one-bit operand. -/
def decodeBit (b : Byte) : Except DecodeError Bool :=
  if b = 0 then .ok false else if b = 1 then .ok true else .error (.notABit b)

/-- An instruction without operands. -/
def noOperand (i : Instr) (rest : List Byte) : Decoded := .ok (i, rest)

/-- An instruction with one byte operand. -/
def oneByte (mk : Byte → Instr) : List Byte → Decoded
  | b :: rest => .ok (mk b, rest)
  | [] => .error .truncated

/-- An instruction with two byte operands. -/
def twoBytes (mk : Byte → Byte → Instr) : List Byte → Decoded
  | a :: b :: rest => .ok (mk a b, rest)
  | _ => .error .truncated

/-- XFER's Word16. -/
def decodeXfer : List Byte → Decoded
  | lo :: hi :: rest => .ok (.xfer (joinWord hi lo), rest)
  | _ => .error .truncated

/-- CONFIG's baud rate, channel, power level and profile (R101, R124). -/
def decodeConfig : List Byte → Decoded
  | b0 :: b1 :: b2 :: b3 :: ch :: p0 :: p1 :: p2 :: p3 :: env :: rest =>
    match decodeChannel ch, decodeProfile env with
    | .ok c, .ok e => .ok (.config (natOfBytes b0 b1 b2 b3) c (natOfBytes p0 p1 p2 p3) e, rest)
    | .error e, _ => .error e
    | _, .error e => .error e
  | _ => .error .truncated

/-- FRAME.ENC's type, destination, source, sequence id and byte list (R101, R155). -/
def decodeFrameEnc : List Byte → Decoded
  | t :: d :: src :: q :: n :: rest =>
    if n.toNat ≤ rest.length then .ok (.frameEnc t d src q (rest.take n.toNat), rest.drop n.toNat) else .error .truncated
  | _ => .error .truncated

/-- SEND's `first` (R221). -/
def decodeSend : List Byte → Decoded
  | b :: rest =>
    match decodeBit b with
    | .ok f => .ok (.send f, rest)
    | .error e => .error e
  | [] => .error .truncated

/-! ### The five formats -/

/-- Format OP (R101): the operation of a 5-bit code, carried in a byte. -/
def decodeOp (code : Byte) (rest : List Byte) : Decoded :=
  match code.toNat with
  | 0 => decodeXfer rest
  | 1 => noOperand .waitRdy rest
  | 2 => noOperand .init rest
  | 3 => decodeConfig rest
  | 4 => noOperand .setRx rest
  | 5 => noOperand .setTx rest
  | 6 => noOperand .setIdle rest
  | 7 => noOperand .resync rest
  | 8 => oneByte .txByte rest
  | 9 => noOperand .rxByte rest
  | 10 => twoBytes .crc8Upd rest
  | 11 => decodeFrameEnc rest
  | 12 => noOperand .rxEvt rest
  | 13 => oneByte .rbPut rest
  | 14 => noOperand .rbGet rest
  | 15 => noOperand .hasData rest
  | 16 => noOperand .readByte rest
  | 17 => noOperand .isBusy rest
  | 18 => twoBytes .enqB rest
  | 19 => decodeSend rest
  | 20 => noOperand .tick rest
  | 21 => noOperand .ackRx rest
  | 22 => noOperand .ackTx rest
  | 23 => noOperand .opRsvd10111 rest
  | n => if n < 32 then noOperand (.opRsvd11xxx (code.setWidth 3)) rest else .error (.opCodeTooWide code)

/-- Format ST (R99): the arm of a 3-bit receive state, carried in a byte, and the logical byte it is given. -/
def decodeSt (code : Byte) (rest : List Byte) : Decoded :=
  match code.toNat with
  | 0 => oneByte .stIdle rest
  | 1 => oneByte .stLen rest
  | 2 => oneByte .stDst rest
  | 3 => oneByte .stSrc rest
  | 4 => oneByte .stSeq rest
  | 5 => oneByte .stPay rest
  | 6 => oneByte .stChk rest
  | 7 => noOperand .stNone rest
  | _ => .error (.stCodeTooWide code)

/-- Format RAW (R93): the class of a raw byte, by its value alone. -/
def decodeRaw (v : Byte) : Instr :=
  if v = 0x00 then .rawFill00 else if v = 0xFF then .rawFillFF else .rawPlain v

/-- Format TYPE (R97, R102): the class of a Type byte under the `REF` values the table carries. -/
def decodeType (t : Byte) : Instr :=
  if t = 0x01 then .typeData else if t = 0x02 then .typeAck else .typeRsvd t

/-- Format CW (R94, R102): the role of a command word under the `REF` values the table carries, rows in its order.
A row of mask FFFF compares the whole word; the five others compare the bits their mask keeps. -/
def decodeCw (w : Word) : Except DecodeError Instr :=
  if w = 0xCA81 then .ok .cwFifoStop
  else if w = 0xCA83 then .ok .cwFifoArm
  else if w = 0xC0E0 then .ok .cwInit0
  else if w = 0x80D7 then .ok .cwInit1
  else if w = 0xC2AB then .ok .cwInit2
  else if w = 0xCA81 then .ok .cwInit3
  else if w = 0xE000 then .ok .cwInit4
  else if w = 0xC800 then .ok .cwInit5
  else if w = 0xC4F7 then .ok .cwInit6
  else if w = 0x8208 then .ok .cwIdle
  else if w = 0x82C8 then .ok .cwRxOn
  else if w = 0x8238 then .ok .cwTxOn
  else if w = 0xB000 then .ok .cwRxRead
  else if w.extractLsb' 8 8 = 0xB8#8 then .ok (.cwTxWrite (w.extractLsb' 0 8))
  else if w.extractLsb' 8 8 = 0xC6#8 then .ok (.cwRate (w.extractLsb' 0 8))
  else if w.extractLsb' 12 4 = 0xA#4 then .ok (.cwFreq (w.extractLsb' 0 12))
  else if w.extractLsb' 9 7 = 0x4C#7 then .ok (.cwTxCfg (w.extractLsb' 0 9))
  else if w.extractLsb' 11 5 = 0x12#5 then .ok (.cwRxCfg (w.extractLsb' 0 11))
  else if w = 0x0000 then .ok .cwStatus
  else .error (.unknownCommandWord w)

/-- The decoder: the instruction a request spells, and the bytes after it. -/
def decode (r : Request) : Decoded :=
  match r.fmt, r.bytes with
  | .op, code :: rest => decodeOp code rest
  | .st, code :: rest => decodeSt code rest
  | .raw, v :: rest => .ok (decodeRaw v, rest)
  | .type, t :: rest => .ok (decodeType t, rest)
  | .cw, lo :: hi :: rest =>
    match decodeCw (joinWord hi lo) with
    | .ok i => .ok (i, rest)
    | .error e => .error e
  | _, _ => .error .truncated

/-! ### The encoder -/

/-- The command word of a CW row (R94, R102: the `REF` values), with its data bits in the low bits (R95). -/
def encodeCw : Instr → Word
  | .cwFifoStop => 0xCA81
  | .cwFifoArm => 0xCA83
  | .cwInit0 => 0xC0E0
  | .cwInit1 => 0x80D7
  | .cwInit2 => 0xC2AB
  | .cwInit3 => 0xCA81
  | .cwInit4 => 0xE000
  | .cwInit5 => 0xC800
  | .cwInit6 => 0xC4F7
  | .cwIdle => 0x8208
  | .cwRxOn => 0x82C8
  | .cwTxOn => 0x8238
  | .cwRxRead => 0xB000
  | .cwTxWrite t => 0xB8#8 ++ t
  | .cwRate d => 0xC6#8 ++ d
  | .cwFreq f => 0xA#4 ++ f
  | .cwTxCfg d => 0x4C#7 ++ d
  | .cwRxCfg d => 0x12#5 ++ d
  | _ => 0x0000

/-- The bytes of an instruction in its row's format: the table's code, then its operands. -/
def encodeBytes : Instr → List Byte
  | .xfer w => [0x00, loByte w, hiByte w]
  | .waitRdy => [0x01]
  | .init => [0x02]
  | .config baud ch power env => 0x03 :: natBytes baud ++ (ch.setWidth 8 :: natBytes power ++ [profileByte env])
  | .setRx => [0x04]
  | .setTx => [0x05]
  | .setIdle => [0x06]
  | .resync => [0x07]
  | .txByte v => [0x08, v]
  | .rxByte => [0x09]
  | .crc8Upd c b => [0x0A, c, b]
  | .frameEnc t d src q p => 0x0B :: t :: d :: src :: q :: BitVec.ofNat 8 p.length :: p
  | .rxEvt => [0x0C]
  | .rbPut b => [0x0D, b]
  | .rbGet => [0x0E]
  | .hasData => [0x0F]
  | .readByte => [0x10]
  | .isBusy => [0x11]
  | .enqB b dst => [0x12, b, dst]
  | .send first => [0x13, if first then 0x01 else 0x00]
  | .tick => [0x14]
  | .ackRx => [0x15]
  | .ackTx => [0x16]
  | .opRsvd10111 => [0x17]
  | .opRsvd11xxx x => [0x3#5 ++ x]
  | .stIdle b => [0x00, b]
  | .stLen b => [0x01, b]
  | .stDst b => [0x02, b]
  | .stSrc b => [0x03, b]
  | .stSeq b => [0x04, b]
  | .stPay b => [0x05, b]
  | .stChk b => [0x06, b]
  | .stNone => [0x07]
  | .rawFill00 => [0x00]
  | .rawFillFF => [0xFF]
  | .rawPlain v => [v]
  | .typeData => [0x01]
  | .typeAck => [0x02]
  | .typeRsvd t => [t]
  | i => [loByte (encodeCw i), hiByte (encodeCw i)]

/-- The request that spells an instruction. -/
def encode (i : Instr) : Request := ⟨i.format, encodeBytes i⟩

/-! ### Words of the opcode table -/

/-- The length of the longest request: FRAME.ENC with 255 payload bytes. -/
def maxRequestBytes : Nat := 261

/-- The bytes of the low `nbits` bits of `w`, the byte of bits 7:0 first, then zeros up to the longest request. -/
def tableBytes (nbits w : Nat) : List Byte :=
  (List.range (nbits / 8)).map (fun k => BitVec.ofNat 8 (w / 256 ^ k)) ++ List.replicate maxRequestBytes 0

/-- The request of a table word. A word says neither its format nor its context (log 7): a word of more than one byte
is read in format CW, a one-byte word that is a 5-bit code in format OP, and any other byte in format RAW. -/
def tableRequest (nbits w : Nat) : Request :=
  ⟨if 8 < nbits then .cw else if w < 32 then .op else .raw, tableBytes nbits w⟩

/-- The instruction the decoder reads from a table word. -/
def decodeTableWord (nbits w : Nat) : Option Instr :=
  match decode (tableRequest nbits w) with
  | .ok (i, _) => some i
  | .error _ => none

end Sys2Proof
end

