-- ==== Sys2Proof/Machine/Reference.lean ====
section
/-! DEFINITION. The reference configuration `REF` (R5) and the constraints every configuration meets (R5, R298). -/

namespace Sys2Proof.Machine

/-- `clamp(v, lo, hi)` (R9). -/
def clamp (v lo hi : Nat) : Nat := min (max v lo) hi

/-- The frequency word of `REF` (R5, R98 (e)): `0xA000 OR clamp(1360 + 130 x chan, 96, 3903)`. -/
def refFreqWord (chan : Fin 4) : Word := 0xA000 ||| BitVec.ofNat 16 (clamp (1360 + 130 * chan.val) 96 3903)

/-- The reference configuration `REF` (R5). It fixes no word of `RateWord`, `TxWord` and `RxWord` (reference value
"none"): each is an uninterpreted function (log 9). -/
def refCfg : Cfg where
  myAddr := 0x0A
  esc := 0xAA
  preamble := [0xAA, 0xAA, 0xAA, 0x2D, 0xD4]
  typeData := 0x01
  typeAck := 0x02
  crcPoly := 0x8C
  crcInit := 0x00
  rbSize := 256
  retryBudget := 3
  ackTimeout := 20
  fillTimeout := 2
  pollLimit := 65535
  initSeq := [0xC0E0, 0x80D7, 0xC2AB, 0xCA81, 0xE000, 0xC800, 0xC4F7]
  cwIdle := 0x8208
  cwRxOn := 0x82C8
  cwTxOn := 0x8238
  cwFifoStop := 0xCA81
  cwFifoArm := 0xCA83
  cwStatus := 0x0000
  cwRxRead := 0xB000
  cwTxWrite := 0xB800
  freqWords := Vector.ofFn refFreqWord
  rateWord := { listed := [], rest := 0 }
  txWord := { listed := [], rest := 0 }
  rxWord := { listed := [], rest := 0 }

/-- The constraints of R5 and R298 (c) to (e). The budgets and timeouts are at most 255 by their type. -/
def cfgWf (c : Cfg) : Bool :=
  decide (2 ≤ c.preamble.length) && c.typeAck != c.typeData && decide (2 ≤ c.rbSize) && c.ackTimeout != 0 &&
    c.fillTimeout != 0 && decide (1 ≤ c.pollLimit) && c.cwTxWrite.extractLsb' 0 8 == 0#8

end Sys2Proof.Machine
end

