-- ==== Sys2Proof/Machine/State.lean ====
section
/-! DEFINITION. The state of RBS-LINK as plain data, one record for each of the groups of R20 (TCI, RA, RB, DE), with
the configuration (R43), the event history (R8), ENV's inputs (R7, R66, R67) and the result of the last operation; the
faults and refusals; and the state after reset (R41). -/

namespace Sys2Proof.Machine

/-- A byte buffer or register file: (index, byte) pairs, indices strictly rising; an unlisted index holds no value
(R41, U5; log 2). -/
abbrev Memory := List Host.Cell

/-- The three address spaces (R60). -/
inductive Space where
  | pay
  | rb
  | txb
  deriving DecidableEq, Repr

/-- `mode` (R21): M_OFF, M_IDLE, M_RX, M_TX. -/
inductive Mode where
  | off
  | idle
  | rx
  | tx
  deriving DecidableEq, Repr

/-- `st` (R24): the receive state. The code 7 is never produced and has no constructor. -/
inductive RxState where
  | idle
  | len
  | dst
  | src
  | seq
  | pay
  | chk
  deriving DecidableEq, Repr

/-- The five error events (R250). -/
inductive ErrorEvent where
  | frameCorruption
  | bufferOverflow (b : Byte)
  | deliveryFailure (dst seq : Byte)
  | stateMachineStall
  | hardwareNotReady
  deriving DecidableEq, Repr

/-- An entry of the event history `log` (R8): a chip-select edge, a word pair of XFER, or an error event. -/
inductive Event where
  | selAssert
  | exchange (w r : Word)
  | selDeassert
  | error (e : ErrorEvent)
  deriving DecidableEq, Repr

/-- TCI registers (R21 to R23, R39). -/
structure Tci where
  mode     : Mode
  cs       : Bool
  rxIrqEn  : Bool
  initDone : Bool
  hwFault  : Bool
  rfBaud   : Nat
  rfChan   : BitVec 2
  rfPower  : Nat
  rfEnv    : Profile
  deriving DecidableEq, Repr

/-- RA registers (R24 to R29, R31). `lastSeq` lists the entries that are `some`; an unlisted entry is `none`. -/
structure Ra where
  st      : RxState
  crc     : Byte
  fType   : Byte
  fLen    : Byte
  fDst    : Byte
  fSrc    : Byte
  fSeq    : Byte
  idx     : Byte
  wd      : BitVec 9
  pay     : Memory
  lastSeq : Memory
  deriving DecidableEq, Repr

/-- RB registers (R32). -/
structure Rb where
  head  : Nat
  tail  : Nat
  cells : Memory
  deriving DecidableEq, Repr

/-- DE registers (R33 to R38). -/
structure De where
  txDst       : Byte
  txBuf       : Memory
  txCnt       : Byte
  txSeq       : Byte
  retry       : Byte
  timeout     : Byte
  awaitingAck : Bool
  ackPending  : Bool
  ackDst      : Byte
  ackSeq      : Byte
  deriving DecidableEq, Repr

/-- Who moves next, as ENV chooses (R7, R73): the caller's program in MAIN, a byte-ready event, a tick, or (the model's
own, log 5) a table row that is run standing alone. -/
inductive Turn where
  | main
  | rxi
  | tmi
  | alone (r : Request)
  deriving DecidableEq, Repr

/-- ENV's inputs (R7, R66, R67): whose turn it is, the caller's program, the answers already chosen for the radio port
(in order), and how many answers beyond those were drawn from the free values `Config.freeAnswer`, `Config.freeReady`
(log 4). -/
structure Env where
  turns        : List Turn
  mainOps      : List Request
  answers      : List Word
  readies      : List Bool
  answersDrawn : Nat
  readiesDrawn : Nat
  deriving DecidableEq, Repr

/-- What the last operation answered its caller (the results of R120, R130, R150, R201 to R204); the model's own
field (log 8). `noStep` says that its "Enabled when" condition was false, `aborted` that a ready poll ran out (R11). -/
inductive Answer where
  | nothing
  | unit
  | word (w : Word)
  | byte (b : Byte)
  | bit (b : Bool)
  | noStep
  | aborted
  deriving DecidableEq, Repr

/-- The machine. -/
structure State where
  cfg    : Cfg
  tci    : Tci
  ra     : Ra
  rb     : Rb
  de     : De
  log    : List Event
  env    : Env
  answer : Answer
  deriving DecidableEq, Repr

/-- Why a step stops with a fault. Neither happens in a state that the operations of MAIN, RXI and TMI reach from
reset while `hw_fault = 0` (R41, R65). -/
inductive Fault where
  /-- A buffer access at an index its space does not have (R60, R65). Raised by the buffer operations. Safe: the spec
  gives the access no effect. -/
  | badIndex (space : Space) (index : Nat)
  /-- A read of a buffer byte that nothing has written (R41: it "holds no value"). Raised by the buffer operations.
  Safe: no value is chosen. -/
  | unwritten (space : Space) (index : Nat)
  deriving DecidableEq, Repr

/-- Why a step is refused. -/
inductive Refusal where
  /-- An arm of `exec` that has no meaning yet. No arm raises it. Safe. -/
  | notModelled (mnemonic : String)
  /-- A reserved operation code: it spells no operation (R103). Raised by the reserved rows of format OP. Safe. -/
  | reservedOperation (code : BitVec 5)
  /-- The receive state 7 has no arm (R99, R103). Raised by the row ST.NONE. Safe. -/
  | noReceiveArm
  /-- The bytes of a request spell no instruction (R103). Raised by the step. Safe. -/
  | undecodable (e : DecodeError)
  /-- MAIN asked for an operation that only another operation, RXI or TMI may start (R100). Raised by the step. Safe. -/
  | notStartedByMain
  /-- The configuration violates R5 or R298 (c) to (e), so it is none (U20). Raised by the step. Safe. -/
  | notAConfiguration
  deriving DecidableEq, Repr

/-- The state after "system init" (R41) with configuration `c` (R282 step 1). The registers R41 calls unspecified hold
zero (`rf_env`: the first profile), DESIGN CHOICE log 1. -/
def State.resetWith (c : Cfg) : State where
  cfg := c
  tci := { mode := .off, cs := false, rxIrqEn := false, initDone := false, hwFault := false,
           rfBaud := 0, rfChan := 0, rfPower := 0, rfEnv := .quiet }
  ra := { st := .idle, crc := 0, fType := 0, fLen := 0, fDst := 0, fSrc := 0, fSeq := 0, idx := 0, wd := 0,
          pay := [], lastSeq := [] }
  rb := { head := 0, tail := 0, cells := [] }
  de := { txDst := 0, txBuf := [], txCnt := 0, txSeq := 0, retry := 0, timeout := 0, awaitingAck := false,
          ackPending := false, ackDst := 0, ackSeq := 0 }
  log := []
  env := { turns := [], mainOps := [], answers := [], readies := [], answersDrawn := 0, readiesDrawn := 0 }
  answer := .nothing

/-- The machine right after reset, in the reference configuration (log 3). -/
def State.reset : State := State.resetWith refCfg

end Sys2Proof.Machine
end

