-- ==== Sys2Proof/Machine/Operands.lean ====
section
/-! DEFINITION. Operand assembly (R98), the classes of raw bytes (R93) and of Type bytes (R97). Every operand is
unsigned. -/

namespace Sys2Proof.Machine

/-- A fill byte (R4 `FILL`, R93): a raw byte after which one escape byte follows. -/
def isFill (v : Byte) : Bool := v == 0x00 || v == 0xFF

/-- The transmit word (R98 (a)): `CW_TXWRITE OR zext_16(v)`. -/
def txWord (c : Cfg) (v : Byte) : Word := c.cwTxWrite ||| v.setWidth 16

/-- The received byte (R98 (b)): `response[7:0]`; bits 15:8 are ignored (R63). -/
def rxByteOf (r : Word) : Byte := r.extractLsb' 0 8

/-- The received length (R98 (c), R173): `min(b, 128)`. -/
def clampLen (b : Byte) : Byte := if b.toNat ≤ Config.maxLen then b else 128

/-- The transmitted payload (R98 (c), R156): its first 128 bytes. -/
def clampPayload (p : List Byte) : List Byte := p.take Config.maxLen

/-- The successor of a sequence id (R98 (d)): `(s + 1) mod 256`. -/
def nextSeq (s : Byte) : Byte := s + 1

/-- The centre frequency word of a channel (R5 `FreqWord`, R98 (e)). -/
def freqWord (c : Cfg) (chan : BitVec 2) : Word := c.freqWords[chan.toFin]

/-- A word function at an argument (R5): the word the configuration fixes for it, else the word that the function it
names among `free` gives (log 9). -/
def WordFn.word {α : Type} [DecidableEq α] (f : WordFn α) (free : Nat → α → Word) (a : α) : Word :=
  (f.listed.lookup a).getD (free f.rest a)

/-- The data rate word of a baud rate (R5 `RateWord`). -/
def rateWordAt (c : Cfg) (baud : Nat) : Word := WordFn.word c.rateWord Config.freeRateWord baud

/-- The transmit configuration word of a power level (R5 `TxWord`). -/
def txWordAt (c : Cfg) (power : Nat) : Word := WordFn.word c.txWord Config.freeTxWord power

/-- The receiver configuration word of an environment profile (R5 `RxWord`). -/
def rxWordAt (c : Cfg) (env : Profile) : Word := WordFn.word c.rxWord Config.freeRxWord env

/-- The successor of a ring index (R98 (f)): `(i + 1) mod RB_SIZE`. -/
def nextIndex (c : Cfg) (i : Nat) : Nat := (i + 1) % c.rbSize

/-- The classes of a Type byte (R97). -/
inductive TypeClass where
  | data
  | ack
  | reserved
  deriving DecidableEq, Repr

/-- The class of a Type byte under a configuration (R97), tested in the order of R178. -/
def typeClass (c : Cfg) (t : Byte) : TypeClass :=
  if t = c.typeData then .data else if t = c.typeAck then .ack else .reserved

/-! ### Codes (log 14: no operation reads them) -/

/-- The code of `mode` (R21). -/
def Mode.code : Mode → BitVec 2
  | .off => 0
  | .idle => 1
  | .rx => 2
  | .tx => 3

/-- The code of `st` (R24, R99). -/
def RxState.code : RxState → BitVec 3
  | .idle => 0
  | .len => 1
  | .dst => 2
  | .src => 3
  | .seq => 4
  | .pay => 5
  | .chk => 6

/-- The code of an error event (R250). -/
def ErrorEvent.code : ErrorEvent → Nat
  | .frameCorruption => 1
  | .bufferOverflow _ => 2
  | .deliveryFailure _ _ => 3
  | .stateMachineStall => 4
  | .hardwareNotReady => 5

end Sys2Proof.Machine
end

