-- ==== Sys2Proof/Machine/Flags.lean ====
section
/-! DEFINITION. The one-bit conditions the rules compute: the "Enabled when" condition of each operation, the ring
buffer's empty and full, the watchdog test, and the tests of the checksum arm. -/

namespace Sys2Proof.Machine

/-! ### Enabling conditions -/

/-- SETRX, SETTX and SETIDLE are enabled when `mode != M_OFF` (R125, R126, R127). -/
def State.isSetUp (s : State) : Bool := s.tci.mode != .off

/-- TXBYTE and FRAME.ENC are enabled when `mode = M_TX` (R129, R155). -/
def State.transmitting (s : State) : Bool := s.tci.mode == .tx

/-- RXBYTE is enabled when `mode = M_RX` (R130). -/
def State.receiving (s : State) : Bool := s.tci.mode == .rx

/-- RXEVT is enabled when `mode = M_RX` and `rx_irq_en = 1` (R171). -/
def State.rxEnabled (s : State) : Bool := s.receiving && s.tci.rxIrqEn

/-- ENQB is enabled when `init_done = 1` and `awaiting_ack = 0` (R220). -/
def State.canEnqueue (s : State) : Bool := s.tci.initDone && !s.de.awaitingAck

/-- SEND is enabled when `init_done = 1` and `tx_cnt > 0` (R221). -/
def State.canSend (s : State) : Bool := s.tci.initDone && s.de.txCnt != 0

/-! ### The ring buffer -/

/-- The ring buffer holds a byte (R32, R202): `head != tail`. -/
def State.hasBytes (s : State) : Bool := s.rb.head != s.rb.tail

/-- The ring buffer has no free slot (R32, R200): `(head + 1) mod RB_SIZE = tail`. -/
def State.rbFull (s : State) : Bool := nextIndex s.cfg s.rb.head == s.rb.tail

/-! ### The receive state machine -/

/-- The states in which the watchdog is tested (R171): LEN, DST, SRC, SEQ, PAY. -/
def RxState.watched : RxState → Bool
  | .len | .dst | .src | .seq | .pay => true
  | .idle | .chk => false

/-- The watchdog test of R171, on the incremented counter: `wd > WD_LIMIT`. -/
def State.stalled (s : State) : Bool := s.ra.st.watched && decide (Config.wdLimit < s.ra.wd.toNat + 1)

/-- `ACKRX` matches the outstanding send (R223). -/
def State.ackMatches (s : State) : Bool :=
  s.de.awaitingAck && s.ra.fSrc == s.de.txDst && s.ra.fSeq == s.de.txSeq

/-- A fault of the ready poll has been latched (R255, U4): the owning layer's hardware-fault signal. -/
def State.faulted (s : State) : Bool := s.tci.hwFault

end Sys2Proof.Machine
end

