-- ==== Sys2Proof/Machine/Ops.lean ====
section
/-! DEFINITION. The shared operations: how a rule runs (R11), the buffers (R60, R65), the radio port (R66, R67, R120,
R121), error events (R250) and the entry and return of an operation (R259, R260). -/

namespace Sys2Proof.Machine

/-! ### Running a rule (R11) -/

/-- How a rule, run inline, comes out (R11). -/
inductive Res (α : Type) where
  /-- it ran to its end, with its result -/
  | done (a : α) (s : State)
  /-- `abort`: the enclosing transition ends at once, "keeping the writes made so far" -/
  | abort (s : State)
  /-- its "Enabled when" condition is false: there is no step, and the enclosing transition cannot be taken -/
  | noStep
  /-- an access to a buffer byte that does not exist or holds no value -/
  | fault (f : Fault)

/-- One rule after another: `abort`, "no step" and a fault end the whole transition (R11). -/
def Res.bind {α β : Type} (m : Res α) (k : α → State → Res β) : Res β :=
  match m with
  | .done a s => k a s
  | .abort s => .abort s
  | .noStep => .noStep
  | .fault f => .fault f

/-! ### Buffers (R60, R65) -/

/-- The byte listed at index `a`, if any. -/
def Memory.read (m : Memory) (a : Nat) : Option Byte :=
  match m with
  | [] => none
  | (x, c) :: t => if a = x then some c else Memory.read t a

/-- Write byte `b` at index `a`, keeping the indices strictly rising. -/
def Memory.write (m : Memory) (a : Nat) (b : Byte) : Memory :=
  match m with
  | [] => [(a, b)]
  | (x, c) :: t =>
    if a < x then (a, b) :: (x, c) :: t else if a = x then (a, b) :: t else (x, c) :: Memory.write t a b

/-- The canonical form: indices strictly rising. An unlisted index holds no value, so every listed entry differs from
an unlisted one. -/
abbrev Memory.wf (m : Memory) : Prop := m.Pairwise (fun p q => p.1 < q.1)

/-- The contents of a space. -/
def State.mem (s : State) : Space → Memory
  | .pay => s.ra.pay
  | .rb => s.rb.cells
  | .txb => s.de.txBuf

/-- The state with other contents of a space. -/
def State.setMem (s : State) (sp : Space) (m : Memory) : State :=
  match sp with
  | .pay => { s with ra := { s.ra with pay := m } }
  | .rb => { s with rb := { s.rb with cells := m } }
  | .txb => { s with de := { s.de with txBuf := m } }

/-- The size of a space in bytes (R60). -/
def State.sizeOf (s : State) : Space → Nat
  | .pay => Config.maxLen
  | .rb => s.cfg.rbSize
  | .txb => Config.txCap

/-- `MemRead(space, i, 1)` (R10). An index outside the space and a byte that nothing has written fault. -/
def memRead (sp : Space) (i : Nat) (s : State) : Res Byte :=
  if i < s.sizeOf sp then
    match (s.mem sp).read i with
    | some b => .done b s
    | none => .fault (.unwritten sp i)
  else .fault (.badIndex sp i)

/-- `MemWrite(space, i, 1, b)` (R10). An index outside the space faults. -/
def memWrite (sp : Space) (i : Nat) (b : Byte) (s : State) : Res Unit :=
  if i < s.sizeOf sp then .done () (s.setMem sp ((s.mem sp).write i b)) else .fault (.badIndex sp i)

/-- The bytes of `n` indices of a space, from index `i` on. -/
def memReadFrom (sp : Space) : Nat → Nat → State → Res (List Byte)
  | _, 0, s => .done [] s
  | i, n + 1, s =>
    (memRead sp i s).bind fun b s => (memReadFrom sp (i + 1) n s).bind fun l s => .done (b :: l) s

/-! ### Error events (R11, R250): appended to `log`, no other effect -/

/-- Append entries to the event history (R8). -/
def State.record (s : State) (es : List Event) : State := { s with log := s.log ++ es }

/-- `raise E(info)` (R11). -/
def State.raise (s : State) (e : ErrorEvent) : State := s.record [.error e]

/-! ### The radio port -/

/-- `Radio.exchange(w)` (R66): ENV's answer, any word: the next one already chosen, else a free value (log 4). -/
def State.exchange (s : State) : Word × State :=
  match s.env.answers with
  | r :: rest => (r, { s with env := { s.env with answers := rest } })
  | [] => (Config.freeAnswer s.env.answersDrawn,
      { s with env := { s.env with answersDrawn := s.env.answersDrawn + 1 } })

/-- `Radio.ready()` (R67): ENV's answer, 0 or 1: the next one already chosen, else a free value (log 4). -/
def State.ready (s : State) : Bool × State :=
  match s.env.readies with
  | b :: rest => (b, { s with env := { s.env with readies := rest } })
  | [] => (Config.freeReady s.env.readiesDrawn,
      { s with env := { s.env with readiesDrawn := s.env.readiesDrawn + 1 } })

/-- The `cs` register written (R22). -/
def State.setCs (s : State) (b : Bool) : State := { s with tci := { s.tci with cs := b } }

/-- XFER (R120): select, one exchange, deselect; each of the three goes to `log`. -/
def xfer (w : Word) (s : State) : Word × State :=
  let s := (s.setCs true).record [.selAssert]
  let (r, s) := s.exchange
  let s := s.record [.exchange w r]
  (r, (s.setCs false).record [.selDeassert])

/-- XFER with its result discarded. -/
def put (w : Word) (s : State) : State := (xfer w s).2

/-- XFER of each word of a list, in order. -/
def putAll (ws : List Word) (s : State) : State := ws.foldl (fun s w => put w s) s

/-- The polls of WAITRDY (R121): `true` at the first poll answered 1, `false` after `n` answered 0. -/
def poll : Nat → State → Bool × State
  | 0, s => (false, s)
  | n + 1, s => if s.ready.1 then (true, s.ready.2) else poll n s.ready.2

/-- HardwareNotReady (R121, R255): the sticky flag is set and the event raised. -/
def State.hardwareNotReady (s : State) : State :=
  State.raise { s with tci := { s.tci with hwFault := true } } .hardwareNotReady

/-- WAITRDY (R121): up to `POLL_LIMIT` polls; on exhaustion the fault is latched and the transition aborts. -/
def waitRdy (s : State) : Res Unit :=
  if (poll s.cfg.pollLimit s).1 then .done () (poll s.cfg.pollLimit s).2
  else .abort (poll s.cfg.pollLimit s).2.hardwareNotReady

/-! ### The end of an operation (R259, R260) -/

/-- The answer field written (log 8). -/
def State.setAnswer (s : State) (a : Answer) : State := { s with answer := a }

/-- A rule run as a transition of its own. It saves and restores nothing (R259, R260); an aborted one keeps its writes;
one that is not enabled changes nothing (R11) and answers `noStep` (log 8). -/
def conclude {α : Type} (s : State) (answerOf : α → Answer) (m : Res α) : Host.Outcome State Fault Refusal :=
  match m with
  | .done a t => .next (t.setAnswer (answerOf a))
  | .abort t => .next (t.setAnswer .aborted)
  | .noStep => .next (s.setAnswer .noStep)
  | .fault f => .fault f

/-- A transition without result. -/
def concludeUnit (s : State) (m : Res Unit) : Host.Outcome State Fault Refusal := conclude s (fun _ => .unit) m

end Sys2Proof.Machine
end

