-- ==== Sys2Proof/Machine/Transceiver.lean ====
section
/-! DEFINITION. The transceiver command interface (TCI): XFER, WAITRDY, INIT, CONFIG, SETRX, SETTX, SETIDLE, RESYNC,
TXBYTE, RXBYTE (R120 to R130). The operations first, as other rules call them inline; then a meaning for each row. -/

namespace Sys2Proof.Machine

/-! ### Field writes -/

/-- `mode` and `rx_irq_en` written. -/
def State.setMode (s : State) (m : Mode) (irq : Bool) : State :=
  { s with tci := { s.tci with mode := m, rxIrqEn := irq } }

/-- The byte-ready source masked: `rx_irq_en <- 0` (R75). -/
def State.mask (s : State) : State := { s with tci := { s.tci with rxIrqEn := false } }

/-- `st` written (R24). -/
def State.setSt (s : State) (x : RxState) : State := { s with ra := { s.ra with st := x } }

/-! ### Setup and modes -/

/-- RESYNC (R128): FIFO stop, FIFO arm, `st <- IDLE`. -/
def resync (s : State) : State := (put s.cfg.cwFifoArm (put s.cfg.cwFifoStop s)).setSt .idle

/-- The statements of SETRX (R125). -/
def setRxBody (s : State) : State := (resync (put s.cfg.cwRxOn (put s.cfg.cwIdle s.mask))).setMode .rx true

/-- SETRX (R125). -/
def setRx (s : State) : Res Unit := if s.isSetUp then .done () (setRxBody s) else .noStep

/-- The statements of SETTX (R126). -/
def setTxBody (s : State) : State := (put s.cfg.cwTxOn (put s.cfg.cwIdle s.mask)).setMode .tx false

/-- SETTX (R126). -/
def setTx (s : State) : Res Unit := if s.isSetUp then .done () (setTxBody s) else .noStep

/-- SETIDLE (R127). -/
def setIdle (s : State) : Res Unit :=
  if s.isSetUp then .done () ((put s.cfg.cwIdle s.mask).setMode .idle false) else .noStep

/-- `mode` after the setup words of INIT (R123): `M_IDLE`; `rx_irq_en` is not written there. -/
def State.setUp (s : State) : State := { s with tci := { s.tci with mode := .idle } }

/-- `init_done <- 1` (R123). -/
def State.setInitDone (s : State) : State := { s with tci := { s.tci with initDone := true } }

/-- INIT (R123). The settle delay changes no state (R296). -/
def init (s : State) : Res Unit :=
  if s.tci.initDone then .noStep
  else (setRx (putAll s.cfg.initSeq s).setUp).bind fun _ s => .done () s.setInitDone

/-- The four words of CONFIG in its order (R124). -/
def configWords (c : Cfg) (baud : Nat) (chan : BitVec 2) (power : Nat) (env : Profile) : List Word :=
  [rateWordAt c baud, freqWord c chan, txWordAt c power, rxWordAt c env]

/-- The shadow registers written (R39, R124). -/
def State.setShadows (s : State) (baud : Nat) (chan : BitVec 2) (power : Nat) (env : Profile) : State :=
  { s with tci := { s.tci with rfBaud := baud, rfChan := chan, rfPower := power, rfEnv := env } }

/-- CONFIG (R124). -/
def config (baud : Nat) (chan : BitVec 2) (power : Nat) (env : Profile) (s : State) : Res Unit :=
  if s.tci.initDone then .done () ((putAll (configWords s.cfg baud chan power env) s).setShadows baud chan power env)
  else .noStep

/-! ### Byte primitives with stuffing -/

/-- What follows a transmitted fill byte (R129): WAITRDY and one transfer of `ESC`, not itself examined. -/
def txEscape (s : State) : Res Unit := (waitRdy s).bind fun _ s => .done () (put (txWord s.cfg s.cfg.esc) s)

/-- What follows a received fill byte (R130): WAITRDY and one FIFO read, "discarded unseen". -/
def rxEscape (s : State) : Res Unit := (waitRdy s).bind fun _ s => .done () (put s.cfg.cwRxRead s)

/-- TXBYTE (R129). -/
def txByte (v : Byte) (s : State) : Res Unit :=
  if s.transmitting then
    (waitRdy s).bind fun _ s => if isFill v then txEscape (put (txWord s.cfg v) s) else .done () (put (txWord s.cfg v) s)
  else .noStep

/-- The tail of RXBYTE after its first FIFO read (R130). -/
def rxTail (v : Byte) (s : State) : Res Byte :=
  if isFill v then (rxEscape s).bind fun _ s => .done v s else .done v s

/-- RXBYTE (R130). -/
def rxByte (s : State) : Res Byte :=
  if s.receiving then
    (waitRdy s).bind fun _ s => rxTail (rxByteOf (xfer s.cfg.cwRxRead s).1) (xfer s.cfg.cwRxRead s).2
  else .noStep

/-! ### Meanings -/

/-- XFER (R120): answers the response word. -/
def execXfer (w : Word) (s : State) : Host.Outcome State Fault Refusal :=
  conclude s .word (.done (xfer w s).1 (xfer w s).2)

/-- WAITRDY (R121). -/
def execWaitRdy (s : State) : Host.Outcome State Fault Refusal := concludeUnit s (waitRdy s)

/-- INIT (R123). -/
def execInit (s : State) : Host.Outcome State Fault Refusal := concludeUnit s (init s)

/-- CONFIG (R124). -/
def execConfig (baud : Nat) (chan : BitVec 2) (power : Nat) (env : Profile) (s : State) :
    Host.Outcome State Fault Refusal :=
  concludeUnit s (config baud chan power env s)

/-- SETRX (R125). -/
def execSetRx (s : State) : Host.Outcome State Fault Refusal := concludeUnit s (setRx s)

/-- SETTX (R126). -/
def execSetTx (s : State) : Host.Outcome State Fault Refusal := concludeUnit s (setTx s)

/-- SETIDLE (R127). -/
def execSetIdle (s : State) : Host.Outcome State Fault Refusal := concludeUnit s (setIdle s)

/-- RESYNC (R128). -/
def execResync (s : State) : Host.Outcome State Fault Refusal := concludeUnit s (.done () (resync s))

/-- TXBYTE (R129). -/
def execTxByte (v : Byte) (s : State) : Host.Outcome State Fault Refusal := concludeUnit s (txByte v s)

/-- RXBYTE (R130): answers the logical byte. -/
def execRxByte (s : State) : Host.Outcome State Fault Refusal := conclude s .byte (rxByte s)

end Sys2Proof.Machine
end

