-- ==== Sys2Proof/Machine/FrameCodec.lean ====
section
/-! DEFINITION. The frame codec (FC): CRC8.UPD, `crc8`, `stuff`, `unstuff`, `body`, `wire`, `accepts`, FRAME.ENC
(R150 to R157). -/

namespace Sys2Proof.Machine

/-! ### The checksum -/

/-- One of the eight rounds of CRC8.UPD (R150), least significant bit first. -/
def crcRound (poly c : Byte) : Byte := if c.getLsbD 0 then (c >>> 1) ^^^ poly else c >>> 1

/-- `n` rounds. -/
def crcRounds (poly : Byte) : Nat → Byte → Byte
  | 0, c => c
  | n + 1, c => crcRounds poly n (crcRound poly c)

/-- CRC8.UPD (R150): one byte `b` taken into the running checksum `c`. -/
def crc8Upd (cfg : Cfg) (c b : Byte) : Byte := crcRounds cfg.crcPoly 8 (c ^^^ b)

/-- The running checksum `c` after the bytes of `l`. -/
def crc8From (cfg : Cfg) (c : Byte) (l : List Byte) : Byte := l.foldl (crc8Upd cfg) c

/-- `crc8(l)` (R151): the fold of CRC8.UPD from `CRC_INIT`. -/
def crc8 (cfg : Cfg) (l : List Byte) : Byte := crc8From cfg cfg.crcInit l

/-! ### Byte stuffing as functions -/

/-- `stuff` (R153): the raw bytes of a list of logical bytes. -/
def stuff (esc : Byte) : List Byte → List Byte
  | [] => []
  | b :: l => if isFill b then b :: esc :: stuff esc l else b :: stuff esc l

/-- `unstuff` (R154): the logical bytes of a list of raw bytes; a final fill byte is kept, the receiver still waiting. -/
def unstuff : List Byte → List Byte
  | [] => []
  | [b] => [b]
  | b :: e :: r => if isFill b then b :: unstuff r else b :: unstuff (e :: r)

/-! ### Frames -/

/-- `body` (R156): header and payload, the payload cut to its first 128 bytes. -/
def body (t d src q : Byte) (p : List Byte) : List Byte :=
  [t, BitVec.ofNat 8 (clampPayload p).length, d, src, q] ++ clampPayload p

/-- `wire` (R156): preamble, body, checksum, as logical bytes. -/
def wire (cfg : Cfg) (t d src q : Byte) (p : List Byte) : List Byte :=
  cfg.preamble ++ body t d src q p ++ [crc8 cfg (body t d src q p)]

/-- `accepts` (R157): a list of logical bytes, as RA receives them, is a frame with a matching checksum. -/
def accepts (cfg : Cfg) (l : List Byte) : Bool :=
  match l with
  | t :: n :: rest =>
    l.length == 6 + (clampLen n).toNat &&
      rest.getLast? == some (crc8 cfg (t :: n :: rest.dropLast))
  | _ => false

/-- TXBYTE of each byte of a list, in order (R155). -/
def txBytes : List Byte → State → Res Unit
  | [], s => .done () s
  | x :: l, s => (txByte x s).bind fun _ s => txBytes l s

/-- TXBYTE of each byte of a list with the running checksum (R155). -/
def txSummed : Byte → List Byte → State → Res Byte
  | c, [], s => .done c s
  | c, x :: l, s => (txByte x s).bind fun _ s => txSummed (crc8Upd s.cfg c x) l s

/-- FRAME.ENC (R155): the preamble, the body with its running checksum, the checksum. -/
def frameEnc (t d src q : Byte) (p : List Byte) (s : State) : Res Unit :=
  if s.transmitting then
    (txBytes s.cfg.preamble s).bind fun _ s =>
      (txSummed s.cfg.crcInit (body t d src q p) s).bind fun c s => txByte c s
  else .noStep

/-! ### Meanings -/

/-- CRC8.UPD (R150): a pure function; answers the new checksum. -/
def execCrc8Upd (c b : Byte) (s : State) : Host.Outcome State Fault Refusal :=
  conclude s .byte (.done (crc8Upd s.cfg c b) s)

/-- FRAME.ENC (R155). -/
def execFrameEnc (t d src q : Byte) (p : List Byte) (s : State) : Host.Outcome State Fault Refusal :=
  concludeUnit s (frameEnc t d src q p s)

end Sys2Proof.Machine
end

