-- ==== Sys2Proof/Machine/RingBuffer.lean ====
section
/-! DEFINITION. The ring buffer (RB) and the link facade queries (LF): RB.PUT, RB.GET, HASDATA, READBYTE, ISBUSY
(R200 to R204). -/

namespace Sys2Proof.Machine

/-- `head` written (R32). -/
def State.setHead (s : State) (h : Nat) : State := { s with rb := { s.rb with head := h } }

/-- `tail` written (R32). -/
def State.setTail (s : State) (t : Nat) : State := { s with rb := { s.rb with tail := t } }

/-- RB.PUT (R200): the byte at `head`, then `head` advanced (R293); dropped with BufferOverflow when full. -/
def rbPut (b : Byte) (s : State) : Res Unit :=
  if s.rbFull then .done () (s.raise (.bufferOverflow b))
  else (memWrite .rb s.rb.head b s).bind fun _ s => .done () (s.setHead (nextIndex s.cfg s.rb.head))

/-- RB.GET (R201): the byte at `tail`, then `tail` advanced. -/
def rbGet (s : State) : Res Byte :=
  if s.hasBytes then (memRead .rb s.rb.tail s).bind fun b s => .done b (s.setTail (nextIndex s.cfg s.rb.tail))
  else .noStep

/-- READBYTE (R203): RB.GET; no step while the buffer is empty. -/
def readByte (s : State) : Res Byte := if s.hasBytes then rbGet s else .noStep

/-! ### Meanings -/

/-- RB.PUT (R200). -/
def execRbPut (b : Byte) (s : State) : Host.Outcome State Fault Refusal := concludeUnit s (rbPut b s)

/-- RB.GET (R201): answers the byte. -/
def execRbGet (s : State) : Host.Outcome State Fault Refusal := conclude s .byte (rbGet s)

/-- HASDATA (R202): answers `head != tail`. -/
def execHasData (s : State) : Host.Outcome State Fault Refusal := conclude s .bit (.done s.hasBytes s)

/-- READBYTE (R203): answers the byte. -/
def execReadByte (s : State) : Host.Outcome State Fault Refusal := conclude s .byte (readByte s)

/-- ISBUSY (R204): answers `awaiting_ack = 1`. -/
def execIsBusy (s : State) : Host.Outcome State Fault Refusal := conclude s .bit (.done s.de.awaitingAck s)

end Sys2Proof.Machine
end

