-- ==== Sys2Proof/Machine/Delivery.lean ====
section
/-! DEFINITION. The delivery engine (DE): ENQB, SEND, TICK, ACKRX, ACKTX (R220 to R224). -/

namespace Sys2Proof.Machine

/-- The end of SEND (R221): `awaiting_ack <- 1`, `timeout <- ACK_TIMEOUT`, and on a first attempt `retry <-
RETRY_BUDGET`. -/
def State.outstanding (s : State) (first : Bool) : State :=
  { s with de := { s.de with
      awaitingAck := true
      timeout := s.cfg.ackTimeout
      retry := if first then s.cfg.retryBudget else s.de.retry } }

/-- The pending payload `tx_buf[0 .. tx_cnt - 1]` (R221). -/
def pendingPayload (s : State) : Res (List Byte) := memReadFrom .txb 0 s.de.txCnt.toNat s

/-- SEND (R221). -/
def send (first : Bool) (s : State) : Res Unit :=
  if s.canSend then
    (setTx s).bind fun _ s =>
      (pendingPayload s).bind fun p s =>
        (frameEnc s.cfg.typeData s.de.txDst s.cfg.myAddr s.de.txSeq p s).bind fun _ s =>
          (setRx s).bind fun _ s => .done () (s.outstanding first)
  else .noStep

/-- `tx_dst` written (R220). -/
def State.setTxDst (s : State) (dst : Byte) : State := { s with de := { s.de with txDst := dst } }

/-- The end of ENQB before it may send (R220): `tx_cnt` one more, and the fill-timeout armed by the first byte. -/
def State.enqueued (s : State) : State :=
  { s with de := { s.de with
      txCnt := s.de.txCnt + 1
      timeout := if s.de.txCnt + 1 = 1 then s.cfg.fillTimeout else s.de.timeout } }

/-- ENQB (R220). -/
def enqB (b dst : Byte) (s : State) : Res Unit :=
  if s.canEnqueue then
    (memWrite .txb s.de.txCnt.toNat b (s.setTxDst dst)).bind fun _ s =>
      if s.enqueued.de.txCnt.toNat = Config.txCap then send true s.enqueued else .done () s.enqueued
  else .noStep

/-- The writes of a matching confirmation (R223). -/
def State.confirmed (s : State) : State :=
  { s with de := { s.de with awaitingAck := false, txSeq := nextSeq s.de.txSeq, txCnt := 0, timeout := 0 } }

/-- ACKRX (R223): a confirmation that does not match changes nothing. -/
def ackRx (s : State) : State := if s.ackMatches then s.confirmed else s

/-- `ack_pending <- 0` (R224). -/
def State.ackSent (s : State) : State := { s with de := { s.de with ackPending := false } }

/-- ACKTX (R224). -/
def ackTx (s : State) : Res Unit :=
  if s.tci.initDone then
    (setTx s).bind fun _ s =>
      (frameEnc s.cfg.typeAck s.de.ackDst s.cfg.myAddr s.de.ackSeq [] s).bind fun _ s =>
        (setRx s).bind fun _ s => .done () s.ackSent
  else .noStep

/-- `timeout <- timeout - 1` (R222); used only where `timeout > 0`. -/
def State.countDown (s : State) : State := { s with de := { s.de with timeout := s.de.timeout - 1 } }

/-- `retry <- retry - 1` (R222); used only where `retry > 0`. -/
def State.spendRetry (s : State) : State := { s with de := { s.de with retry := s.de.retry - 1 } }

/-- The abandonment of TICK (R222, R253): `awaiting_ack <- 0`, DeliveryFailure of the abandoned frame, the sequence id
advanced, the payload discarded. -/
def State.abandoned (s : State) : State :=
  let s' := s.raise (.deliveryFailure s.de.txDst s.de.txSeq)
  { s' with de := { s'.de with awaitingAck := false, txSeq := nextSeq s'.de.txSeq, txCnt := 0 } }

/-- What TICK does when its timeout has run out (R222): retransmit, abandon, or send the pending bytes. -/
def timeoutExpired (s : State) : Res Unit :=
  if s.de.awaitingAck then
    if s.de.retry ≠ 0 then send false s.spendRetry else .done () s.abandoned
  else if s.de.txCnt ≠ 0 then send true s
  else .done () s

/-- The part of TICK after the pending confirmation (R222): a running timeout is counted down and may run out; a
timeout of 0 is not touched (D36). -/
def tickTimeout (s : State) : Res Unit :=
  if s.de.timeout ≠ 0 then
    if s.countDown.de.timeout = 0 then timeoutExpired s.countDown else .done () s.countDown
  else .done () s

/-- TICK (R222): a pending confirmation is sent before the timeout is counted (R258). -/
def tick (s : State) : Res Unit :=
  if s.de.ackPending then (ackTx s).bind fun _ s => tickTimeout s else tickTimeout s

/-! ### Meanings -/

/-- ENQB (R220). -/
def execEnqB (b dst : Byte) (s : State) : Host.Outcome State Fault Refusal := concludeUnit s (enqB b dst s)

/-- SEND (R221). -/
def execSend (first : Bool) (s : State) : Host.Outcome State Fault Refusal := concludeUnit s (send first s)

/-- TICK (R222). -/
def execTick (s : State) : Host.Outcome State Fault Refusal := concludeUnit s (tick s)

/-- ACKRX (R223). -/
def execAckRx (s : State) : Host.Outcome State Fault Refusal := concludeUnit s (.done () (ackRx s))

/-- ACKTX (R224). -/
def execAckTx (s : State) : Host.Outcome State Fault Refusal := concludeUnit s (ackTx s)

end Sys2Proof.Machine
end

