-- ==== Sys2Proof/Machine/Receive.lean ====
section
/-! DEFINITION. The receive assembler (RA): the seven arms and the watchdog arm (R170 to R178), RXEVT, and the rows of
format ST. -/

namespace Sys2Proof.Machine

/-! ### The arms -/

/-- Arm IDLE (R172). -/
def armIdle (b : Byte) (s : State) : State :=
  { s with ra := { s.ra with fType := b, crc := crc8Upd s.cfg s.cfg.crcInit b, wd := 0, st := .len } }

/-- Arm LEN (R173): the clamped length is kept, the received byte is summed. -/
def armLen (b : Byte) (s : State) : State :=
  { s with ra := { s.ra with fLen := clampLen b, crc := crc8Upd s.cfg s.ra.crc b, st := .dst } }

/-- Arm DST (R174). -/
def armDst (b : Byte) (s : State) : State :=
  { s with ra := { s.ra with fDst := b, crc := crc8Upd s.cfg s.ra.crc b, st := .src } }

/-- Arm SRC (R175). -/
def armSrc (b : Byte) (s : State) : State :=
  { s with ra := { s.ra with fSrc := b, crc := crc8Upd s.cfg s.ra.crc b, st := .seq } }

/-- Arm SEQ (R176): the zero-length test is made here. -/
def armSeq (b : Byte) (s : State) : State :=
  { s with ra := { s.ra with
      fSeq := b, crc := crc8Upd s.cfg s.ra.crc b, idx := 0, st := if s.ra.fLen = 0 then .chk else .pay } }

/-- The register writes of arm PAY after its buffer write (R177). -/
def State.payAdvanced (s : State) (b : Byte) : State :=
  { s with ra := { s.ra with
      crc := crc8Upd s.cfg s.ra.crc b, idx := s.ra.idx + 1, st := if s.ra.idx + 1 = s.ra.fLen then .chk else .pay } }

/-- Arm PAY (R177). -/
def armPay (b : Byte) (s : State) : Res Unit :=
  (memWrite .pay s.ra.idx.toNat b s).bind fun _ s => .done () (s.payAdvanced b)

/-- RB.PUT of `n` payload bytes from index `i` on (R178); a full buffer drops the byte. -/
def deliver : Nat → Nat → State → Res Unit
  | _, 0, s => .done () s
  | i, n + 1, s => (memRead .pay i s).bind fun b s => (rbPut b s).bind fun _ s => deliver (i + 1) n s

/-- `last_seq[f_src] <- some f_seq` (R31, R178). -/
def State.noteSeq (s : State) : State :=
  { s with ra := { s.ra with lastSeq := s.ra.lastSeq.write s.ra.fSrc.toNat s.ra.fSeq } }

/-- `ack_pending <- 1`, `ack_dst <- f_src`, `ack_seq <- f_seq` (R178). -/
def State.requestAck (s : State) : State :=
  { s with de := { s.de with ackPending := true, ackDst := s.ra.fSrc, ackSeq := s.ra.fSeq } }

/-- The frame repeats the last accepted sequence id of its source (R31, R178). -/
def State.isDuplicate (s : State) : Bool := s.ra.lastSeq.read s.ra.fSrc.toNat == some s.ra.fSeq

/-- The data branch of the checksum arm (R178): deliver unless duplicate, request a confirmation either way. -/
def acceptData (s : State) : Res Unit :=
  if s.isDuplicate then .done () s.requestAck
  else (deliver 0 s.ra.fLen.toNat s).bind fun _ s => .done () s.noteSeq.requestAck

/-- The branches of the checksum arm after RESYNC, in their fixed order (R178, R258): checksum, destination, type. -/
def judgeFrame (b : Byte) (s : State) : Res Unit :=
  if b ≠ s.ra.crc then .done () (s.raise .frameCorruption)
  else if s.ra.fDst ≠ s.cfg.myAddr then .done () s
  else
    match typeClass s.cfg s.ra.fType with
    | .data => acceptData s
    | .ack => .done () (ackRx s)
    | .reserved => .done () s

/-- Arm CHK (R178): RESYNC regardless of outcome, then the frame is judged; `st` ends as IDLE. -/
def armChk (b : Byte) (s : State) : Res Unit :=
  (judgeFrame b (resync s)).bind fun _ s => .done () (s.setSt .idle)

/-- The arm of RXEVT that `st` selects (R99, R170), given the logical byte. -/
def arm (b : Byte) (s : State) : Res Unit :=
  match s.ra.st with
  | .idle => .done () (armIdle b s)
  | .len => .done () (armLen b s)
  | .dst => .done () (armDst b s)
  | .src => .done () (armSrc b s)
  | .seq => .done () (armSeq b s)
  | .pay => armPay b s
  | .chk => armChk b s

/-! ### RXEVT -/

/-- `wd <- wd + 1` (R171). -/
def State.countWd (s : State) : State := { s with ra := { s.ra with wd := s.ra.wd + 1 } }

/-- The watchdog arm WDG (R171): the byte is drained and discarded, StateMachineStall raised, RESYNC. -/
def armWdg (s : State) : Res Unit := (rxByte s).bind fun _ s => .done () (resync (s.raise .stateMachineStall))

/-- RXEVT (R171). -/
def rxEvt (s : State) : Res Unit :=
  if s.rxEnabled then
    if s.stalled then armWdg s.countWd else (rxByte s.countWd).bind fun b s => arm b s
  else .noStep

/-! ### Meanings -/

/-- RXEVT (R171). A byte-ready event that finds it not enabled is lost (R257, D28). -/
def execRxEvt (s : State) : Host.Outcome State Fault Refusal := concludeUnit s (rxEvt s)

/-- An arm run with a logical byte, in a state that selects it (R99); in another state that arm has no step. -/
def whenSt (x : RxState) (s : State) (m : Res Unit) : Res Unit := if s.ra.st = x then m else .noStep

/-- ST.IDLE (R172). -/
def execStIdle (b : Byte) (s : State) : Host.Outcome State Fault Refusal :=
  concludeUnit s (whenSt .idle s (.done () (armIdle b s)))

/-- ST.LEN (R173). -/
def execStLen (b : Byte) (s : State) : Host.Outcome State Fault Refusal :=
  concludeUnit s (whenSt .len s (.done () (armLen b s)))

/-- ST.DST (R174). -/
def execStDst (b : Byte) (s : State) : Host.Outcome State Fault Refusal :=
  concludeUnit s (whenSt .dst s (.done () (armDst b s)))

/-- ST.SRC (R175). -/
def execStSrc (b : Byte) (s : State) : Host.Outcome State Fault Refusal :=
  concludeUnit s (whenSt .src s (.done () (armSrc b s)))

/-- ST.SEQ (R176). -/
def execStSeq (b : Byte) (s : State) : Host.Outcome State Fault Refusal :=
  concludeUnit s (whenSt .seq s (.done () (armSeq b s)))

/-- ST.PAY (R177). -/
def execStPay (b : Byte) (s : State) : Host.Outcome State Fault Refusal :=
  concludeUnit s (whenSt .pay s (armPay b s))

/-- ST.CHK (R178). -/
def execStChk (b : Byte) (s : State) : Host.Outcome State Fault Refusal :=
  concludeUnit s (whenSt .chk s (armChk b s))

/-- ST.NONE (R99, R103): "never produced; no arm; refused". -/
def execStNone : State → Host.Outcome State Fault Refusal := fun _ => .refused .noReceiveArm

end Sys2Proof.Machine
end

