-- ==== Sys2Proof/Machine/Formats.lean ====
section
/-! DEFINITION. The rows of the formats RAW, TYPE and CW, and the reserved rows of format OP (R93, R94, R97, R103). What
such a row means when it is run standing alone is log 7: what the block does about that raw byte, that class of frame,
that command word. -/

namespace Sys2Proof.Machine

/-! ### Format RAW (R93) -/

/-- What follows raw byte `v` on the radio port, by its class (R93): after a fill byte one escape transfer, received
(R130) or transmitted (R129) as the mode has it; after a plain byte nothing. No byte crosses the port in another mode. -/
def rawFollows (v : Byte) (s : State) : Res Byte :=
  if s.receiving then rxTail v s
  else if s.transmitting then
    if isFill v then (txEscape s).bind fun _ s => .done v s else .done v s
  else .noStep

/-- RAW.FILL00 (R93): answers the logical byte 00. -/
def execRawFill00 (s : State) : Host.Outcome State Fault Refusal := conclude s .byte (rawFollows 0x00 s)

/-- RAW.FILLFF (R93): answers the logical byte FF. -/
def execRawFillFF (s : State) : Host.Outcome State Fault Refusal := conclude s .byte (rawFollows 0xFF s)

/-- RAW.PLAIN (R93): answers the logical byte. -/
def execRawPlain (v : Byte) (s : State) : Host.Outcome State Fault Refusal := conclude s .byte (rawFollows v s)

/-! ### Format TYPE (R97): the branch of the checksum arm for an intact frame to this node (R178) -/

/-- TYPE.DATA (R97, R178). -/
def execTypeData (s : State) : Host.Outcome State Fault Refusal := concludeUnit s (acceptData s)

/-- TYPE.ACK (R97, R178): handed to ACKRX. -/
def execTypeAck (s : State) : Host.Outcome State Fault Refusal := concludeUnit s (.done () (ackRx s))

/-- TYPE.RSVD (R97, R103, D8): discarded, whatever the value. -/
def execTypeRsvd (_t : Byte) (s : State) : Host.Outcome State Fault Refusal := concludeUnit s (.done () s)

/-! ### Format CW (R94): one XFER of the word of that role -/

/-- XFER of a command word, answering the response. -/
def sendWord (w : Word) (s : State) : Res Word := .done (xfer w s).1 (xfer w s).2

/-- XFER of setup word `i` of INIT (R94, R123); a configuration with fewer setup words has no such word. -/
def sendSetup (i : Nat) (s : State) : Res Word :=
  match s.cfg.initSeq[i]? with
  | some w => sendWord w s
  | none => .noStep

/-- CW.FIFO_STOP (R94, R128). -/
def execCwFifoStop (s : State) : Host.Outcome State Fault Refusal := conclude s .word (sendWord s.cfg.cwFifoStop s)

/-- CW.FIFO_ARM (R94, R128). -/
def execCwFifoArm (s : State) : Host.Outcome State Fault Refusal := conclude s .word (sendWord s.cfg.cwFifoArm s)

/-- CW.INIT0 (R94, R123). -/
def execCwInit0 (s : State) : Host.Outcome State Fault Refusal := conclude s .word (sendSetup 0 s)

/-- CW.INIT1 (R94, R123). -/
def execCwInit1 (s : State) : Host.Outcome State Fault Refusal := conclude s .word (sendSetup 1 s)

/-- CW.INIT2 (R94, R123). -/
def execCwInit2 (s : State) : Host.Outcome State Fault Refusal := conclude s .word (sendSetup 2 s)

/-- CW.INIT3 (R94, R123). -/
def execCwInit3 (s : State) : Host.Outcome State Fault Refusal := conclude s .word (sendSetup 3 s)

/-- CW.INIT4 (R94, R123). -/
def execCwInit4 (s : State) : Host.Outcome State Fault Refusal := conclude s .word (sendSetup 4 s)

/-- CW.INIT5 (R94, R123). -/
def execCwInit5 (s : State) : Host.Outcome State Fault Refusal := conclude s .word (sendSetup 5 s)

/-- CW.INIT6 (R94, R123). -/
def execCwInit6 (s : State) : Host.Outcome State Fault Refusal := conclude s .word (sendSetup 6 s)

/-- CW.IDLE (R94, R127). -/
def execCwIdle (s : State) : Host.Outcome State Fault Refusal := conclude s .word (sendWord s.cfg.cwIdle s)

/-- CW.RX_ON (R94, R125). -/
def execCwRxOn (s : State) : Host.Outcome State Fault Refusal := conclude s .word (sendWord s.cfg.cwRxOn s)

/-- CW.TX_ON (R94, R126). -/
def execCwTxOn (s : State) : Host.Outcome State Fault Refusal := conclude s .word (sendWord s.cfg.cwTxOn s)

/-- CW.RXREAD (R94, R130): answers bits 7:0 of the response, the raw byte (R63). -/
def execCwRxRead (s : State) : Host.Outcome State Fault Refusal :=
  conclude s (fun r => .byte (rxByteOf r)) (sendWord s.cfg.cwRxRead s)

/-- CW.TXWRITE (R94, R129): the word `CW_TXWRITE OR t`. -/
def execCwTxWrite (t : Byte) (s : State) : Host.Outcome State Fault Refusal := conclude s .word (sendWord (txWord s.cfg t) s)

/-- CW.RATE (R94, R95, R124): the data-rate word with data bits `d`. -/
def execCwRate (d : BitVec 8) (s : State) : Host.Outcome State Fault Refusal := conclude s .word (sendWord (0xC6#8 ++ d) s)

/-- CW.FREQ (R94, R95, R124): the frequency word with count `f`. -/
def execCwFreq (f : BitVec 12) (s : State) : Host.Outcome State Fault Refusal := conclude s .word (sendWord (0xA#4 ++ f) s)

/-- CW.TXCFG (R94, R95, R124): the transmit configuration word with data bits `d`. -/
def execCwTxCfg (d : BitVec 9) (s : State) : Host.Outcome State Fault Refusal := conclude s .word (sendWord (0x4C#7 ++ d) s)

/-- CW.RXCFG (R94, R95, R124): the receiver control word with data bits `d`. -/
def execCwRxCfg (d : BitVec 11) (s : State) : Host.Outcome State Fault Refusal := conclude s .word (sendWord (0x12#5 ++ d) s)

/-- CW.STATUS (R94): listed for completeness, sent by no operation. -/
def execCwStatus (s : State) : Host.Outcome State Fault Refusal := conclude s .word (sendWord s.cfg.cwStatus s)

/-! ### Reserved operation codes (R103): "refused: they spell no operation" -/

/-- OP.RSVD.10111 (R101, R103). -/
def execOpRsvd10111 : State → Host.Outcome State Fault Refusal := fun _ => .refused (.reservedOperation 0x17)

/-- OP.RSVD.11xxx (R101, R103). -/
def execOpRsvd11xxx (x : BitVec 3) : State → Host.Outcome State Fault Refusal :=
  fun _ => .refused (.reservedOperation (0x3#2 ++ x))

end Sys2Proof.Machine
end

