-- ==== Sys2Proof/Machine/Dispatch.lean ====
section
/-! DEFINITION. The dispatch: one arm for each constructor of `Instr`, each one call of that row's meaning. -/

namespace Sys2Proof.Machine

/-- The meaning of an instruction in a state. -/
def exec (i : Instr) (s : State) : Host.Outcome State Fault Refusal :=
  match i with
  | .xfer w => Sys2Proof.Machine.execXfer w s
  | .waitRdy => Sys2Proof.Machine.execWaitRdy s
  | .init => Sys2Proof.Machine.execInit s
  | .config baud chan power env => Sys2Proof.Machine.execConfig baud chan power env s
  | .setRx => Sys2Proof.Machine.execSetRx s
  | .setTx => Sys2Proof.Machine.execSetTx s
  | .setIdle => Sys2Proof.Machine.execSetIdle s
  | .resync => Sys2Proof.Machine.execResync s
  | .txByte v => Sys2Proof.Machine.execTxByte v s
  | .rxByte => Sys2Proof.Machine.execRxByte s
  | .crc8Upd c b => Sys2Proof.Machine.execCrc8Upd c b s
  | .frameEnc t d src q p => Sys2Proof.Machine.execFrameEnc t d src q p s
  | .rxEvt => Sys2Proof.Machine.execRxEvt s
  | .rbPut b => Sys2Proof.Machine.execRbPut b s
  | .rbGet => Sys2Proof.Machine.execRbGet s
  | .hasData => Sys2Proof.Machine.execHasData s
  | .readByte => Sys2Proof.Machine.execReadByte s
  | .isBusy => Sys2Proof.Machine.execIsBusy s
  | .enqB b dst => Sys2Proof.Machine.execEnqB b dst s
  | .send first => Sys2Proof.Machine.execSend first s
  | .tick => Sys2Proof.Machine.execTick s
  | .ackRx => Sys2Proof.Machine.execAckRx s
  | .ackTx => Sys2Proof.Machine.execAckTx s
  | .opRsvd10111 => Sys2Proof.Machine.execOpRsvd10111 s
  | .opRsvd11xxx x => Sys2Proof.Machine.execOpRsvd11xxx x s
  | .stIdle b => Sys2Proof.Machine.execStIdle b s
  | .stLen b => Sys2Proof.Machine.execStLen b s
  | .stDst b => Sys2Proof.Machine.execStDst b s
  | .stSrc b => Sys2Proof.Machine.execStSrc b s
  | .stSeq b => Sys2Proof.Machine.execStSeq b s
  | .stPay b => Sys2Proof.Machine.execStPay b s
  | .stChk b => Sys2Proof.Machine.execStChk b s
  | .stNone => Sys2Proof.Machine.execStNone s
  | .rawFill00 => Sys2Proof.Machine.execRawFill00 s
  | .rawFillFF => Sys2Proof.Machine.execRawFillFF s
  | .rawPlain v => Sys2Proof.Machine.execRawPlain v s
  | .typeData => Sys2Proof.Machine.execTypeData s
  | .typeAck => Sys2Proof.Machine.execTypeAck s
  | .typeRsvd t => Sys2Proof.Machine.execTypeRsvd t s
  | .cwFifoStop => Sys2Proof.Machine.execCwFifoStop s
  | .cwFifoArm => Sys2Proof.Machine.execCwFifoArm s
  | .cwInit0 => Sys2Proof.Machine.execCwInit0 s
  | .cwInit1 => Sys2Proof.Machine.execCwInit1 s
  | .cwInit2 => Sys2Proof.Machine.execCwInit2 s
  | .cwInit3 => Sys2Proof.Machine.execCwInit3 s
  | .cwInit4 => Sys2Proof.Machine.execCwInit4 s
  | .cwInit5 => Sys2Proof.Machine.execCwInit5 s
  | .cwInit6 => Sys2Proof.Machine.execCwInit6 s
  | .cwIdle => Sys2Proof.Machine.execCwIdle s
  | .cwRxOn => Sys2Proof.Machine.execCwRxOn s
  | .cwTxOn => Sys2Proof.Machine.execCwTxOn s
  | .cwRxRead => Sys2Proof.Machine.execCwRxRead s
  | .cwTxWrite t => Sys2Proof.Machine.execCwTxWrite t s
  | .cwRate d => Sys2Proof.Machine.execCwRate d s
  | .cwFreq f => Sys2Proof.Machine.execCwFreq f s
  | .cwTxCfg d => Sys2Proof.Machine.execCwTxCfg d s
  | .cwRxCfg d => Sys2Proof.Machine.execCwRxCfg d s
  | .cwStatus => Sys2Proof.Machine.execCwStatus s

end Sys2Proof.Machine
end

