-- ==== Sys2Proof/Machine/Fetch.lean ====
section
/-! DEFINITION. What the next step runs (R7, R73, R259): ENV's choice of turn, the request that turn starts, and what
becomes of a MAIN operation that is not enabled. -/

namespace Sys2Proof.Machine

/-- The operations MAIN may start (R100). -/
def inMain : Instr → Bool
  | .init | .config .. | .setRx | .setIdle | .hasData | .readByte | .isBusy | .enqB .. => true
  | _ => false

/-- A turn admits an instruction: MAIN only its own operations (R100). The handlers' requests are fixed (R259), and a
row standing alone is any row (log 5). -/
def Turn.admits : Turn → Instr → Bool
  | .main, i => inMain i
  | _, _ => true

/-- What a state starts next. -/
inductive Fetched where
  /-- ENV starts nothing: no turn is chosen, or MAIN has no operation to issue -/
  | rest (s : State)
  /-- a request, the turn that starts it, and the state it starts in -/
  | start (turn : Turn) (r : Request) (s : State)

/-- The state with the first turn taken. -/
def State.dropTurn (s : State) : State := { s with env := { s.env with turns := s.env.turns.tail } }

/-- The state with other operations in MAIN's program. -/
def State.setMainOps (s : State) (l : List Request) : State := { s with env := { s.env with mainOps := l } }

/-- The request of RXEVT, which a byte-ready event starts (R259). -/
def rxEvtRequest : Request := encode .rxEvt

/-- The request of TICK, which the periodic timer starts (R259). -/
def tickRequest : Request := encode .tick

/-- The next request (R7, R73): the byte-ready line starts RXEVT, the timer starts TICK, MAIN the next operation of the
caller's program. -/
def fetch (s : State) : Fetched :=
  match s.env.turns with
  | [] => .rest s
  | .rxi :: _ => .start .rxi rxEvtRequest s.dropTurn
  | .tmi :: _ => .start .tmi tickRequest s.dropTurn
  | .alone r :: _ => .start (.alone r) r s.dropTurn
  | .main :: _ =>
    match s.env.mainOps with
    | [] => .rest s.dropTurn
    | r :: l => .start .main r (s.dropTurn.setMainOps l)

/-- After the operation: a MAIN operation that had no step is held, still the first of the caller's program, so that
MAIN tries it again at its next turn and RXEVT and TICK go on meanwhile (R11, R106, R203, D20, D29). -/
def settle (turn : Turn) (r : Request) (s : State) : State :=
  if turn = .main ∧ s.answer = .noStep then s.setMainOps (r :: s.env.mainOps) else s

/-- The turn that runs request `r` next, and MAIN's program with it: a handler for the two handlers' own requests,
MAIN for its operations, standing alone for the rest. -/
def State.startNext (s : State) (r : Request) : State :=
  match decode r with
  | .ok (.rxEvt, _) => { s with env := { s.env with turns := .rxi :: s.env.turns } }
  | .ok (.tick, _) => { s with env := { s.env with turns := .tmi :: s.env.turns } }
  | .ok (i, _) =>
    if inMain i then { s with env := { s.env with turns := .main :: s.env.turns, mainOps := r :: s.env.mainOps } }
    else { s with env := { s.env with turns := .alone r :: s.env.turns } }
  | .error _ => { s with env := { s.env with turns := .alone r :: s.env.turns } }

/-! ### Pseudo-operations: sequences of MAIN operations for `mainOps` (R106 to R108) -/

/-- `ENQTX(bytes, dst)` (R106): one ENQB for each byte, in order. -/
def enqTx (bytes : List Byte) (dst : Byte) : List Request := bytes.map fun b => encode (.enqB b dst)

/-- `initialize()` (R107): INIT. -/
def initOps : List Request := [encode .init]

/-- The host-link request of destination `d` and payload `p`, whose length is `p`'s (R108). -/
def hostLinkRequest (d : Byte) (p : List Byte) : List Request := enqTx p d

end Sys2Proof.Machine
end

