-- ==== Sys2Proof/Machine/Step.lean ====
section
/-! DEFINITION. One step: one atomic transition of the block (R7, R70, R73), started by ENV. -/

namespace Sys2Proof.Machine

/-- What the step makes of an operation's outcome. -/
def finishTurn (turn : Turn) (r : Request) : Host.Outcome State Fault Refusal → Host.Outcome State Fault Refusal
  | .next t => .next (settle turn r t)
  | .fault f => .fault f
  | .refused e => .refused e

/-- One step. A configuration outside R5 and R298 is refused (U20). -/
def step (s : State) : Host.Outcome State Fault Refusal :=
  if cfgWf s.cfg then
    match fetch s with
    | .rest t => .next t
    | .start turn r t =>
      match decode r with
      | .ok (i, _) => if turn.admits i then finishTurn turn r (exec i t) else .refused .notStartedByMain
      | .error e => .refused (.undecodable e)
  else .refused .notAConfiguration

/-- The state with the instruction of a table word placed where the step takes its next one: ENV's next turn, and
MAIN's program where MAIN starts it. -/
def State.withFetchWord (s : State) (nbits w : Nat) : State := s.startNext (tableRequest nbits w)

end Sys2Proof.Machine
end

