-- ==== Sys2Proof/Safety.lean ====
section
/-! DEFINITION. The terms claims are stated in: what went over the radio port, when ENV lets a ready poll succeed, the
ring buffer as a queue (R205), the invariants of R42, R65, R41 and R179, and the memories' canonical form. -/

namespace Sys2Proof.Machine

/-! ### The radio port in `log` (R8) -/

/-- The three entries of one XFER (R120, V4.14). -/
def exchangeEvents (x : Word × Word) : List Event := [.selAssert, .exchange x.1 x.2, .selDeassert]

/-- The entries of a list of exchanges, in order. -/
def portEvents (xs : List (Word × Word)) : List Event := xs.flatMap exchangeEvents

/-- The words put on the word channel, in order (R8). -/
def wordsOf (l : List Event) : List Word :=
  l.filterMap fun e =>
    match e with
    | .exchange w _ => some w
    | _ => none

/-- The error events raised, in order (R8, R250). -/
def errorsOf (l : List Event) : List ErrorEvent :=
  l.filterMap fun e =>
    match e with
    | .error x => some x
    | _ => none

/-- `u` is `s` after exactly the exchanges `xs` (pairs of word and response) and any ready polls: nothing else of the
state has changed, `cs` is deasserted after an exchange (R120), and `log` has exactly the entries of the exchanges
added. -/
structure Talked (s u : State) (xs : List (Word × Word)) : Prop where
  cfg : u.cfg = s.cfg
  tci : u.tci = { s.tci with cs := if xs = [] then s.tci.cs else false }
  ra : u.ra = s.ra
  rb : u.rb = s.rb
  de : u.de = s.de
  log : u.log = s.log ++ portEvents xs
  turns : u.env.turns = s.env.turns
  mainOps : u.env.mainOps = s.env.mainOps
  answer : u.answer = s.answer

/-- `u` is `s` after the words `ws`, whatever the responses. -/
def Sent (s u : State) (ws : List Word) : Prop := ∃ xs : List (Word × Word), xs.map Prod.fst = ws ∧ Talked s u xs

/-! ### ENV's ready signal -/

/-- The next `n` ready polls (WAITRDYs) each see `rdy = 1` within `POLL_LIMIT` polls (R67, R121). -/
def willing : Nat → State → Prop
  | 0, _ => True
  | n + 1, s => (poll s.cfg.pollLimit s).1 = true ∧ willing n (poll s.cfg.pollLimit s).2

/-- The number of ready polls of a logical byte: one for each raw byte (R129, R130). -/
def rawCount (v : Byte) : Nat := if isFill v then 2 else 1

/-- The transmit words of a list of raw bytes (R129, R155). -/
def txWords (c : Cfg) (raw : List Byte) : List Word := raw.map (txWord c)

/-! ### The words of the operations -/

/-- The words of SETRX (R125). -/
def setRxWords (c : Cfg) : List Word := [c.cwIdle, c.cwRxOn, c.cwFifoStop, c.cwFifoArm]

/-- The transmit words of one logical byte (R129). -/
def txByteWords (c : Cfg) (v : Byte) : List Word := txWords c (if isFill v then [v, c.esc] else [v])

/-- The words of FRAME.ENC (R155). -/
def frameWords (c : Cfg) (t d src q : Byte) (p : List Byte) : List Word := txWords c (stuff c.esc (wire c t d src q p))

/-- The words of a whole transmission (R221, R224): SETTX, FRAME.ENC, SETRX. -/
def sendWords (c : Cfg) (t d src q : Byte) (p : List Byte) : List Word :=
  [c.cwIdle, c.cwTxOn] ++ frameWords c t d src q p ++ setRxWords c

/-- The number of ready polls of a frame: one for each raw byte. -/
def framePolls (c : Cfg) (t d src q : Byte) (p : List Byte) : Nat := (stuff c.esc (wire c t d src q p)).length

/-! ### What ENV feeds the receiver -/

/-- The logical byte RXBYTE reads: bits 7:0 of ENV's next answer (R63, R130). -/
def nextByte (s : State) : Byte := rxByteOf s.exchange.1

/-- The next raw bytes ENV answers are those of `raw` (R63: bits 15:8 of an answer are ignored). -/
def feeds (s : State) (raw : List Byte) : Prop :=
  raw.length ≤ s.env.answers.length ∧ (s.env.answers.take raw.length).map rxByteOf = raw

/-- RXEVT `n` times, each answering a next state. -/
def rxEvts : Nat → State → Option State
  | 0, s => some s
  | n + 1, s =>
    match exec .rxEvt s with
    | .next t => rxEvts n t
    | _ => none

/-- TICK `n` times, each answering a next state. -/
def ticks : Nat → State → Option State
  | 0, s => some s
  | n + 1, s =>
    match exec .tick s with
    | .next t => ticks n t
    | _ => none

/-! ### The ring buffer as a queue (R205) -/

/-- The number of bytes held: `(head - tail) mod RB_SIZE` (R32). -/
def State.held (s : State) : Nat := (s.rb.head + s.cfg.rbSize - s.rb.tail) % s.cfg.rbSize

/-- The queue `rb[tail], rb[tail+1 mod RB_SIZE], ..., rb[head-1 mod RB_SIZE]` (R205). -/
def State.queue (s : State) : List (Option Byte) :=
  (List.range s.held).map fun k => s.rb.cells.read ((s.rb.tail + k) % s.cfg.rbSize)

/-- The number of free slots: `RB_SIZE - 1 - len(q)` (R205). -/
def State.freeSlots (s : State) : Nat := s.cfg.rbSize - 1 - s.held

/-- Both ring indices lie in the buffer (R32, R42). -/
def State.ringOk (s : State) : Prop := s.rb.head < s.cfg.rbSize ∧ s.rb.tail < s.cfg.rbSize

/-! ### Payloads in the buffers -/

/-- `m[0 .. len(p)-1] = p`. -/
def holdsAt (m : Memory) (p : List Byte) : Prop := ∀ i : Nat, i < p.length → m.read i = p[i]?

/-- The pending payload is `p`: `tx_buf[0 .. tx_cnt - 1] = p`. -/
def pendingIs (s : State) (p : List Byte) : Prop := p.length = s.de.txCnt.toNat ∧ holdsAt s.de.txBuf p

/-- What delivering payload `p` of a new frame leaves (R178, R205): the queue holds the first bytes of `p` that fit, in
order, and `head` has moved on past them, one BufferOverflow for each of the others; the sequence id is recorded; a
confirmation is requested; no other register and no other byte has changed. `u` is the state before, `t` after. -/
structure Delivered (u t : State) (p : List Byte) : Prop where
  queue : t.queue = u.queue ++ (p.take u.freeSlots).map some
  rest : ∀ i : Nat, (∀ k < u.freeSlots, k < p.length → i ≠ (u.rb.head + k) % u.cfg.rbSize) →
    t.rb.cells.read i = u.rb.cells.read i
  head : t.rb.head = (u.rb.head + min p.length u.freeSlots) % u.cfg.rbSize
  tail : t.rb.tail = u.rb.tail
  log : t.log = u.log ++ (p.drop u.freeSlots).map fun b => Event.error (.bufferOverflow b)
  ra : t.ra = { u.ra with lastSeq := t.ra.lastSeq }
  lastSeq : ∀ i : Nat, t.ra.lastSeq.read i = if i = u.ra.fSrc.toNat then some u.ra.fSeq else u.ra.lastSeq.read i
  de : t.de = { u.de with ackPending := true, ackDst := u.ra.fSrc, ackSeq := u.ra.fSeq }
  cfg : t.cfg = u.cfg
  tci : t.tci = u.tci
  env : t.env = u.env

/-! ### Invariants -/

/-- The invariants of R42 that hold always. -/
structure Steady (s : State) : Prop where
  cs : s.tci.cs = false
  fLen : s.ra.fLen.toNat ≤ 128
  txCnt : s.de.txCnt.toNat ≤ 128
  head : s.rb.head < s.cfg.rbSize
  tail : s.rb.tail < s.cfg.rbSize

/-- The bound on `wd` that each receive state keeps (R179): 0 after the arm IDLE, one more at each invocation. -/
def wdBound (s : State) : Nat :=
  match s.ra.st with
  | .idle => 133
  | .len => 0
  | .dst => 1
  | .src => 2
  | .seq => 3
  | .pay => 4 + s.ra.idx.toNat
  | .chk => 4 + s.ra.fLen.toNat

/-- The invariants of R42 that hold while `hw_fault = 0`, with what they rest on: `init_done = 1` only when the
transceiver is set up (R123), the payload bytes counted by `idx`, `tx_cnt` and the ring indices are written (R41), and
the watchdog bound (R179). -/
structure Sound (s : State) : Prop where
  notTx : s.tci.mode ≠ .tx
  irq : s.tci.rxIrqEn = true ↔ s.tci.mode = .rx
  setUp : s.tci.initDone = true → s.tci.mode ≠ .off
  idx : s.ra.st = .pay → s.ra.idx.toNat < s.ra.fLen.toNat
  room : s.de.awaitingAck = false → s.de.txCnt.toNat < 128
  outstanding : s.de.awaitingAck = true → 0 < s.de.txCnt.toNat ∧ 0 < s.de.timeout.toNat
  payStored : s.ra.st = .pay → ∀ i < s.ra.idx.toNat, (s.ra.pay.read i).isSome
  payFull : s.ra.st = .chk → ∀ i < s.ra.fLen.toNat, (s.ra.pay.read i).isSome
  txStored : ∀ i < s.de.txCnt.toNat, (s.de.txBuf.read i).isSome
  ringStored : ∀ x ∈ s.queue, x.isSome
  wd : s.ra.wd.toNat ≤ wdBound s

/-- The invariant of R42: the first part always, the second while `hw_fault = 0`. -/
structure Lawful (s : State) : Prop where
  steady : Steady s
  sound : s.tci.hwFault = false → Sound s

/-- Every buffer is in canonical form (log 2). -/
def State.memWf (s : State) : Prop :=
  Memory.wf s.ra.pay ∧ Memory.wf s.ra.lastSeq ∧ Memory.wf s.rb.cells ∧ Memory.wf s.de.txBuf

/-- The next turn is one of R7: MAIN, RXI or TMI, not a row standing alone (log 5). -/
def State.ordinaryTurn (s : State) : Bool :=
  match s.env.turns with
  | .alone _ :: _ => false
  | _ => true

/-- The words RBS-LINK sends, and nothing else (R94). -/
def inWordTable (c : Cfg) (w : Word) : Prop :=
  w ∈ c.initSeq ∨ w = c.cwIdle ∨ w = c.cwRxOn ∨ w = c.cwTxOn ∨ w = c.cwFifoStop ∨ w = c.cwFifoArm ∨ w = c.cwRxRead ∨
    (∃ v : Byte, w = txWord c v) ∨ (∃ b, w = rateWordAt c b) ∨ (∃ ch, w = freqWord c ch) ∨
    (∃ p, w = txWordAt c p) ∨ ∃ e, w = rxWordAt c e

end Sys2Proof.Machine
end

