-- ==== Sys2Proof/Certificates/Slice0/Obligations.lean ====
section
/-! DEFINITION. The statements for the provers, from the numbered rules of spec/. Where a statement says `Sent s u ws`,
the words `ws` went over the radio port between `s` and `u`, and `u` is otherwise `s` (Safety.lean), so that an update
of `u` names everything else the instruction writes. -/

open Sys2Proof Sys2Proof.Machine

/-! ### Encoding, decoding and the step -/

/-- R99, R101, R102: codes of the table and the instructions they stand for. The codes are the table's; in the clauses
with operands (XFER, ENQB, ST.PAY) and in the CW clauses, the bytes behind the code, their order, and a word's low byte
first are the model's layout (log 6). -/
def Obligations.DecodeReadsTheTableCodes : Prop :=
  decode ⟨.op, [0x0C]⟩ = .ok (.rxEvt, []) ∧
  decode ⟨.op, [0x12, 0x42, 0x05]⟩ = .ok (.enqB 0x42 0x05, []) ∧
  decode ⟨.op, [0x00, 0x00, 0xB0]⟩ = .ok (.xfer 0xB000, []) ∧
  decode ⟨.op, [0x17]⟩ = .ok (.opRsvd10111, []) ∧
  decode ⟨.op, [0x1D]⟩ = .ok (.opRsvd11xxx 5, []) ∧
  decode ⟨.st, [0x05, 0x48]⟩ = .ok (.stPay 0x48, []) ∧
  decode ⟨.st, [0x07]⟩ = .ok (.stNone, []) ∧
  decode ⟨.raw, [0xFF]⟩ = .ok (.rawFillFF, []) ∧
  decode ⟨.raw, [0xFE]⟩ = .ok (.rawPlain 0xFE, []) ∧
  decode ⟨.type, [0x02]⟩ = .ok (.typeAck, []) ∧
  decode ⟨.type, [0x7F]⟩ = .ok (.typeRsvd 0x7F, []) ∧
  decode ⟨.cw, [0x81, 0xCA]⟩ = .ok (.cwFifoStop, []) ∧
  decode ⟨.cw, [0xAA, 0xB8]⟩ = .ok (.cwTxWrite 0xAA, []) ∧
  decode ⟨.cw, [0x54, 0xA6]⟩ = .ok (.cwFreq 0x654, [])

/-- R101, R102: the request of every well-formed instruction, whatever bytes follow it, decodes to that instruction;
`CW.INIT3` shares its word with `CW.FIFO_STOP`, whose row stands first (R102). The operands' layout is the model's
(log 6). -/
def Obligations.EncodedInstructionsDecodeBack : Prop :=
  ∀ (i : Instr) (rest : List Byte), i.wf = true →
    decode ⟨(encode i).fmt, (encode i).bytes ++ rest⟩ = .ok (if i = .cwInit3 then .cwFifoStop else i, rest)

/-- R103: the reserved operation codes and the receive state 7 are refused on every path; a byte that is no 5-bit
operation code, a byte that is no 3-bit receive state, a CONFIG with a channel above 3, and a word that no CW row of the
table matches under its mask (R102) spell no instruction. That a request is such bytes (a code in one byte, the channel
behind four bytes of baud rate, a word's low byte first) is the model's layout (log 6). -/
def Obligations.ReservedCodesAreRefused : Prop :=
  (∀ s : State, exec .opRsvd10111 s = .refused (.reservedOperation 0x17)) ∧
  (∀ (s : State) (x : BitVec 3), exec (.opRsvd11xxx x) s = .refused (.reservedOperation (0x3#2 ++ x))) ∧
  (∀ s : State, exec .stNone s = .refused .noReceiveArm) ∧
  (∀ (b : Byte) (rest : List Byte), 32 ≤ b.toNat → decode ⟨.op, b :: rest⟩ = .error (.opCodeTooWide b)) ∧
  (∀ (b : Byte) (rest : List Byte), 8 ≤ b.toNat → decode ⟨.st, b :: rest⟩ = .error (.stCodeTooWide b)) ∧
  (∀ (b0 b1 b2 b3 b : Byte) (rest : List Byte), 4 ≤ b.toNat → 5 ≤ rest.length →
    decode ⟨.op, 0x03 :: b0 :: b1 :: b2 :: b3 :: b :: rest⟩ = .error (.channelAboveThree b)) ∧
  (∀ (w : Word) (rest : List Byte),
    (∀ row ∈ ([(0xFFFF, 0xCA81), (0xFFFF, 0xCA83), (0xFFFF, 0xC0E0), (0xFFFF, 0x80D7), (0xFFFF, 0xC2AB),
        (0xFFFF, 0xCA81), (0xFFFF, 0xE000), (0xFFFF, 0xC800), (0xFFFF, 0xC4F7), (0xFFFF, 0x8208), (0xFFFF, 0x82C8),
        (0xFFFF, 0x8238), (0xFFFF, 0xB000), (0xFF00, 0xB800), (0xFF00, 0xC600), (0xF000, 0xA000), (0xFE00, 0x9800),
        (0xF800, 0x9000), (0xFFFF, 0x0000)] : List (Word × Word)), w &&& row.1 ≠ row.2) →
    decode ⟨.cw, w.extractLsb' 0 8 :: w.extractLsb' 8 8 :: rest⟩ = .error (.unknownCommandWord w))

/-- R7, R73: when the next turn starts a request that decodes to a well-formed instruction the turn admits, the step is
that instruction's meaning in the state with the turn taken; and a MAIN operation that had no step is still the first
of the caller's program. R100: an operation that is none of MAIN's own is refused when MAIN asks for it; a request that
spells no instruction is refused; and in a configuration outside R5 and R298 (c) to (e) every step is refused (U20,
log 20). (Turns and the caller's program are the model's form of ENV's choices, log 5.) -/
def Obligations.StepRunsTheDecodedInstruction : Prop :=
  (∀ (s t : State) (turn : Turn) (r : Request) (i : Instr) (rest : List Byte),
    cfgWf s.cfg = true → fetch s = .start turn r t → decode r = .ok (i, rest) → i.wf = true → turn.admits i = true →
    (∀ u, exec i t = .next u → step s = .next
      (if turn = .main ∧ u.answer = .noStep then { u with env := { u.env with mainOps := r :: u.env.mainOps } } else u)) ∧
    (∀ f, exec i t = .fault f → step s = .fault f) ∧
    (∀ e, exec i t = .refused e → step s = .refused e)) ∧
  (∀ (s : State) (ts : List Turn) (r : Request) (l : List Request) (i : Instr) (rest : List Byte),
    cfgWf s.cfg = true → s.env.turns = .main :: ts → s.env.mainOps = r :: l → decode r = .ok (i, rest) →
    i ∉ [Instr.init, .setRx, .setIdle, .hasData, .readByte, .isBusy] →
    (∀ baud chan power e, i ≠ .config baud chan power e) → (∀ b dst, i ≠ .enqB b dst) →
    step s = .refused .notStartedByMain) ∧
  (∀ (s t : State) (turn : Turn) (r : Request) (e : DecodeError),
    cfgWf s.cfg = true → fetch s = .start turn r t → decode r = .error e → step s = .refused (.undecodable e)) ∧
  (∀ s : State,
    ¬ (2 ≤ s.cfg.preamble.length ∧ s.cfg.typeAck ≠ s.cfg.typeData ∧ 2 ≤ s.cfg.rbSize ∧ s.cfg.ackTimeout ≠ 0 ∧
      s.cfg.fillTimeout ≠ 0 ∧ 1 ≤ s.cfg.pollLimit ∧ s.cfg.cwTxWrite.extractLsb' 0 8 = 0) →
    step s = .refused .notAConfiguration)

/-- R259: a byte-ready event starts RXEVT and a timer tick starts TICK, with nothing saved and nothing switched. -/
def Obligations.EventsStartTheirHandlers : Prop :=
  ∀ (s : State) (ts : List Turn), cfgWf s.cfg = true →
    (s.env.turns = .rxi :: ts → step s = exec .rxEvt { s with env := { s.env with turns := ts } }) ∧
    (s.env.turns = .tmi :: ts → step s = exec .tick { s with env := { s.env with turns := ts } })

/-- R11, R106, R203 and the "Enabled when" conditions of R123, R124, R125, R127, R203, R220: a MAIN operation that is
not enabled when its turn comes (READBYTE on an empty buffer, ENQB before INIT or while awaiting an acknowledgement, a
second INIT, CONFIG before INIT, SETRX and SETIDLE in M_OFF) has no step: only the turn is used up, and the operation
waits, still the first of the caller's program. Turns, the caller's program and the wait of an operation nothing can
enable again are the model's (log 5), the mark `noStep` too (log 8); CONFIG's bounds are the request's (log 6). -/
def Obligations.WaitingMainOperationIsKept : Prop :=
  ∀ (s : State) (ts : List Turn) (l : List Request) (i : Instr), cfgWf s.cfg = true → s.env.turns = .main :: ts →
    s.env.mainOps = encode i :: l →
    (i = .readByte ∧ s.rb.head = s.rb.tail ∨
      (∃ b dst, i = .enqB b dst ∧ (s.tci.initDone = false ∨ s.de.awaitingAck = true)) ∨
      i = .init ∧ s.tci.initDone = true ∨
      (∃ baud chan power e, i = .config baud chan power e ∧ baud < 2 ^ 32 ∧ power < 2 ^ 32 ∧ s.tci.initDone = false) ∨
      (i = .setRx ∨ i = .setIdle) ∧ s.tci.mode = .off) →
    step s = .next { s with env := { s.env with turns := ts }, answer := .noStep }

/-- R23, R43, R8: no step writes the configuration, clears `hw_fault`, or takes anything out of `log`. -/
def Obligations.NoStepClearsTheFaultFlag : Prop :=
  ∀ s t : State, step s = .next t →
    t.cfg = s.cfg ∧ (s.tci.hwFault = true → t.tci.hwFault = true) ∧ ∃ es, t.log = s.log ++ es

/-! ### The transceiver command interface -/

/-- R120: XFER exchanges one word, logs the three entries, leaves `cs` deasserted and answers the response. -/
def Obligations.XferExchangesOneWord : Prop :=
  ∀ (w : Word) (s : State), exec (.xfer w) s = .next { s with
    tci := { s.tci with cs := false }
    log := s.log ++ [.selAssert, .exchange w s.exchange.1, .selDeassert]
    env := s.exchange.2.env
    answer := .word s.exchange.1 }

/-- R121: WAITRDY returns at the first poll answered 1, changing nothing; when `POLL_LIMIT` polls were answered 0 it
latches `hw_fault`, raises HardwareNotReady and aborts. Whatever ENV answers, it does one of the two, and beside ENV's
own record of ready answers changes nothing else. -/
def Obligations.WaitRdyReturnsOrLatchesTheFault : Prop :=
  ∀ (s : State) (rest : List Bool),
    (∀ k < s.cfg.pollLimit, s.env.readies = List.replicate k false ++ true :: rest →
      exec .waitRdy s = .next { s with env := { s.env with readies := rest }, answer := .unit }) ∧
    (s.env.readies = List.replicate s.cfg.pollLimit false ++ rest →
      exec .waitRdy s = .next { s with
        env := { s.env with readies := rest }
        tci := { s.tci with hwFault := true }
        log := s.log ++ [.error .hardwareNotReady]
        answer := .aborted }) ∧
    ∃ (l : List Bool) (n : Nat),
      exec .waitRdy s = .next { s with env := { s.env with readies := l, readiesDrawn := n }, answer := .unit } ∨
      exec .waitRdy s = .next { s with
        env := { s.env with readies := l, readiesDrawn := n }
        tci := { s.tci with hwFault := true }
        log := s.log ++ [.error .hardwareNotReady]
        answer := .aborted }

/-- R123: INIT sends the setup words and the words of SETRX and leaves the receiver armed. -/
def Obligations.InitArmsTheReceiver : Prop :=
  ∀ s : State, s.tci.initDone = false →
    ∃ u, Sent s u (s.cfg.initSeq ++ [s.cfg.cwIdle, s.cfg.cwRxOn, s.cfg.cwFifoStop, s.cfg.cwFifoArm]) ∧
      exec .init s = .next { u with
        tci := { u.tci with mode := .rx, rxIrqEn := true, initDone := true }
        ra := { u.ra with st := .idle }
        answer := .unit }

/-- R124: CONFIG sends its four words in the argument order and writes the four shadow registers. The words are those of
the functions `RateWord`, `FreqWord`, `TxWord` and `RxWord` of the configuration; their form as data is the model's
(log 3, log 9). -/
def Obligations.ConfigSendsItsFourWords : Prop :=
  ∀ (s : State) (baud : Nat) (chan : BitVec 2) (power : Nat) (e : Profile), s.tci.initDone = true →
    ∃ u, Sent s u [rateWordAt s.cfg baud, s.cfg.freqWords[chan.toFin], txWordAt s.cfg power, rxWordAt s.cfg e] ∧
      exec (.config baud chan power e) s = .next { u with
        tci := { u.tci with rfBaud := baud, rfChan := chan, rfPower := power, rfEnv := e }
        answer := .unit }

/-- R125, R126, R127: the three mode operations: the words, the mode, the mask. -/
def Obligations.ModeOperationsSwitchTheMode : Prop :=
  ∀ s : State, s.tci.mode ≠ .off →
    (∃ u, Sent s u [s.cfg.cwIdle, s.cfg.cwRxOn, s.cfg.cwFifoStop, s.cfg.cwFifoArm] ∧
      exec .setRx s = .next { u with
        tci := { u.tci with mode := .rx, rxIrqEn := true }, ra := { u.ra with st := .idle }, answer := .unit }) ∧
    (∃ u, Sent s u [s.cfg.cwIdle, s.cfg.cwTxOn] ∧
      exec .setTx s = .next { u with tci := { u.tci with mode := .tx, rxIrqEn := false }, answer := .unit }) ∧
    (∃ u, Sent s u [s.cfg.cwIdle] ∧
      exec .setIdle s = .next { u with tci := { u.tci with mode := .idle, rxIrqEn := false }, answer := .unit })

/-- R128: RESYNC sends stop, then arm, and expects a Type byte next. -/
def Obligations.ResyncExpectsATypeByte : Prop :=
  ∀ s : State, ∃ u, Sent s u [s.cfg.cwFifoStop, s.cfg.cwFifoArm] ∧
    exec .resync s = .next { u with ra := { u.ra with st := .idle }, answer := .unit }

/-- R129: TXBYTE sends `CW_TXWRITE OR v`, and after a fill byte `CW_TXWRITE OR ESC`. -/
def Obligations.TxByteSendsTheByteAndItsEscape : Prop :=
  ∀ (v : Byte) (s : State), s.tci.mode = .tx → willing (if v = 0x00 ∨ v = 0xFF then 2 else 1) s →
    ∃ u, Sent s u (if v = 0x00 ∨ v = 0xFF
        then [s.cfg.cwTxWrite ||| v.setWidth 16, s.cfg.cwTxWrite ||| s.cfg.esc.setWidth 16]
        else [s.cfg.cwTxWrite ||| v.setWidth 16]) ∧
      exec (.txByte v) s = .next { u with answer := .unit }

/-- R130: RXBYTE reads one word, answers its bits 7:0, and after a fill byte reads one more and discards it. -/
def Obligations.RxByteReadsOneLogicalByte : Prop :=
  ∀ (s : State) (v : Byte), s.tci.mode = .rx → v = s.exchange.1.extractLsb' 0 8 →
    willing (if v = 0x00 ∨ v = 0xFF then 2 else 1) s →
    ∃ u, Sent s u (if v = 0x00 ∨ v = 0xFF then [s.cfg.cwRxRead, s.cfg.cwRxRead] else [s.cfg.cwRxRead]) ∧
      exec .rxByte s = .next { u with answer := .byte v }

/-- R11 and the "Enabled when" condition of each operation's rule: where it is false there is no step. The answer
`noStep` is the model's own mark of it (log 8). The seven ST clauses are the model's choice: R99 has RXEVT select its arm
by `st` and gives an arm no "Enabled when"; that an arm standing alone is enabled only in its state is log 13. -/
def Obligations.DisabledOperationsHaveNoStep : Prop :=
  ∀ s : State,
    (s.tci.initDone = true → exec .init s = .next { s with answer := .noStep }) ∧
    (s.tci.initDone = false → ∀ baud chan power e,
      exec (.config baud chan power e) s = .next { s with answer := .noStep }) ∧
    (s.tci.mode = .off → ∀ i ∈ [Instr.setRx, .setTx, .setIdle], exec i s = .next { s with answer := .noStep }) ∧
    (s.tci.mode ≠ .tx → ∀ v t d src q p, exec (.txByte v) s = .next { s with answer := .noStep } ∧
      exec (.frameEnc t d src q p) s = .next { s with answer := .noStep }) ∧
    (s.tci.mode ≠ .rx → exec .rxByte s = .next { s with answer := .noStep }) ∧
    (s.tci.mode ≠ .rx ∨ s.tci.rxIrqEn = false → exec .rxEvt s = .next { s with answer := .noStep }) ∧
    (s.rb.head = s.rb.tail → ∀ i ∈ [Instr.rbGet, .readByte], exec i s = .next { s with answer := .noStep }) ∧
    (s.tci.initDone = false ∨ s.de.awaitingAck = true → ∀ b dst,
      exec (.enqB b dst) s = .next { s with answer := .noStep }) ∧
    (s.tci.initDone = false ∨ s.de.txCnt = 0 → ∀ first,
      exec (.send first) s = .next { s with answer := .noStep }) ∧
    (s.tci.initDone = false → exec .ackTx s = .next { s with answer := .noStep }) ∧
    (∀ b, (s.ra.st ≠ .idle → exec (.stIdle b) s = .next { s with answer := .noStep }) ∧
      (s.ra.st ≠ .len → exec (.stLen b) s = .next { s with answer := .noStep }) ∧
      (s.ra.st ≠ .dst → exec (.stDst b) s = .next { s with answer := .noStep }) ∧
      (s.ra.st ≠ .src → exec (.stSrc b) s = .next { s with answer := .noStep }) ∧
      (s.ra.st ≠ .seq → exec (.stSeq b) s = .next { s with answer := .noStep }) ∧
      (s.ra.st ≠ .pay → exec (.stPay b) s = .next { s with answer := .noStep }) ∧
      (s.ra.st ≠ .chk → exec (.stChk b) s = .next { s with answer := .noStep }))

/-- R94: a command-word row sends the word of its role, once, and answers the response; of the receive read the answer
is bits 7:0 (R63). That such a row standing alone is one XFER is the model's reading (log 7). -/
def Obligations.CommandWordRowsSendTheirWord : Prop :=
  ∀ s : State,
    (∀ x ∈ [(Instr.cwFifoStop, s.cfg.cwFifoStop), (.cwFifoArm, s.cfg.cwFifoArm), (.cwIdle, s.cfg.cwIdle),
        (.cwRxOn, s.cfg.cwRxOn), (.cwTxOn, s.cfg.cwTxOn), (.cwStatus, s.cfg.cwStatus)],
      ∃ u, Talked s u [(x.2, s.exchange.1)] ∧ exec x.1 s = .next { u with answer := .word s.exchange.1 }) ∧
    (∃ u, Talked s u [(s.cfg.cwRxRead, s.exchange.1)] ∧
      exec .cwRxRead s = .next { u with answer := .byte (s.exchange.1.extractLsb' 0 8) }) ∧
    (∀ t : Byte, ∃ u, Talked s u [(s.cfg.cwTxWrite ||| t.setWidth 16, s.exchange.1)] ∧
      exec (.cwTxWrite t) s = .next { u with answer := .word s.exchange.1 }) ∧
    (∀ d : BitVec 8, ∃ u, Talked s u [(0xC600 ||| d.setWidth 16, s.exchange.1)] ∧
      exec (.cwRate d) s = .next { u with answer := .word s.exchange.1 }) ∧
    (∀ f : BitVec 12, ∃ u, Talked s u [(0xA000 ||| f.setWidth 16, s.exchange.1)] ∧
      exec (.cwFreq f) s = .next { u with answer := .word s.exchange.1 }) ∧
    (∀ d : BitVec 9, ∃ u, Talked s u [(0x9800 ||| d.setWidth 16, s.exchange.1)] ∧
      exec (.cwTxCfg d) s = .next { u with answer := .word s.exchange.1 }) ∧
    (∀ d : BitVec 11, ∃ u, Talked s u [(0x9000 ||| d.setWidth 16, s.exchange.1)] ∧
      exec (.cwRxCfg d) s = .next { u with answer := .word s.exchange.1 }) ∧
    (∀ x ∈ [(Instr.cwInit0, 0), (.cwInit1, 1), (.cwInit2, 2), (.cwInit3, 3), (.cwInit4, 4), (.cwInit5, 5), (.cwInit6, 6)],
      (∀ w, s.cfg.initSeq[x.2]? = some w →
        ∃ u, Talked s u [(w, s.exchange.1)] ∧ exec x.1 s = .next { u with answer := .word s.exchange.1 }) ∧
      (s.cfg.initSeq[x.2]? = none → exec x.1 s = .next { s with answer := .noStep }))

/-- R93: after a fill byte one escape transfer follows, received or transmitted as the mode has it; after a plain byte
nothing follows. What a raw byte means standing alone is the model's reading (log 7). -/
def Obligations.RawClassesAddTheirEscape : Prop :=
  ∀ s : State,
    (∀ x ∈ [(Instr.rawFill00, (0x00 : Byte)), (.rawFillFF, 0xFF)],
      (s.tci.mode = .rx → willing 1 s → ∃ u, Sent s u [s.cfg.cwRxRead] ∧
        exec x.1 s = .next { u with answer := .byte x.2 }) ∧
      (s.tci.mode = .tx → willing 1 s → ∃ u, Sent s u [s.cfg.cwTxWrite ||| s.cfg.esc.setWidth 16] ∧
        exec x.1 s = .next { u with answer := .byte x.2 }) ∧
      (s.tci.mode = .off ∨ s.tci.mode = .idle → exec x.1 s = .next { s with answer := .noStep })) ∧
    (∀ v : Byte, v ≠ 0x00 → v ≠ 0xFF →
      (s.tci.mode = .rx ∨ s.tci.mode = .tx → exec (.rawPlain v) s = .next { s with answer := .byte v }) ∧
      (s.tci.mode = .off ∨ s.tci.mode = .idle → exec (.rawPlain v) s = .next { s with answer := .noStep }))

/-! ### The frame codec -/

/-- R150: CRC8.UPD is eight shift-and-XOR rounds on `c XOR b`, a pure function. -/
def Obligations.Crc8UpdIsEightRounds : Prop :=
  ∀ (c b r : Byte) (s : State),
    r = (fun x : Byte => if x.getLsbD 0 then (x >>> 1) ^^^ s.cfg.crcPoly else x >>> 1)^[8] (c ^^^ b) →
    exec (.crc8Upd c b) s = .next { s with answer := .byte r }

/-- R152 (a), (b): CRC8.UPD is linear, and a list followed by its checksum has checksum 0. -/
def Obligations.CrcIsLinearWithZeroResidue : Prop :=
  ∀ cfg : Cfg,
    (∀ c1 c2 b1 b2 : Byte,
      crc8Upd cfg (c1 ^^^ c2) (b1 ^^^ b2) = crc8Upd cfg c1 b1 ^^^ crc8Upd cfg c2 b2) ∧
    (∀ l : List Byte, crc8 cfg (l ++ [crc8 cfg l]) = 0)

/-- R152 (c): every change of exactly one bit of a list changes its checksum, and so does every change of one byte. The
generator's top bit (x^8 reflected, set in 0x8C) is what it needs. -/
def Obligations.OneByteChangeChangesTheCrc : Prop :=
  ∀ (cfg : Cfg) (l m : List Byte) (b d : Byte), cfg.crcPoly.getLsbD 7 = true → d ≠ 0 →
    crc8 cfg (l ++ (b ^^^ d) :: m) ≠ crc8 cfg (l ++ b :: m)

/-- R153, R154: unstuffing what was stuffed gives it back, whatever the escape byte; and stuffing adds one raw byte for
each fill byte. -/
def Obligations.UnstuffUndoesStuff : Prop :=
  ∀ (e : Byte) (l : List Byte), unstuff (stuff e l) = l ∧
    (stuff e l).length = l.length + (l.filter fun b => b == 0x00 || b == 0xFF).length

/-- R155, R156: FRAME.ENC puts on the word channel `CW_TXWRITE OR x` for each `x` of `stuff(wire(t, d, s, q, p))`, in
order, and writes nothing of its own; the payload is cut to its first 128 bytes. -/
def Obligations.FrameEncSendsTheStuffedFrame : Prop :=
  ∀ (t d src q : Byte) (p : List Byte) (s : State) (raw logical : List Byte), s.tci.mode = .tx →
    logical = [t, BitVec.ofNat 8 (min p.length 128), d, src, q] ++ p.take 128 →
    raw = stuff s.cfg.esc (s.cfg.preamble ++ logical ++ [crc8 s.cfg logical]) → willing raw.length s →
    ∃ u, Sent s u (raw.map fun x => s.cfg.cwTxWrite ||| x.setWidth 16) ∧
      exec (.frameEnc t d src q p) s = .next { u with answer := .unit }

/-- R157, first half: a body followed by its checksum is accepted, for every payload of length 0 to 128, and its fields
are the ones encoded; the body with any other last byte, and the list cut short or made longer, is not accepted. And
`accepts` in full: a list whose Length byte is `b` is accepted when it has `6 + min(b, 128)` bytes and the last of them is
the checksum of the others; a list without a Length byte is not. -/
def Obligations.EncodedFrameIsAccepted : Prop :=
  (∀ (cfg : Cfg) (t d src q : Byte) (p l : List Byte), p.length ≤ 128 →
    l = body t d src q p ++ [crc8 cfg (body t d src q p)] →
    accepts cfg l = true ∧ l.take 5 = [t, BitVec.ofNat 8 p.length, d, src, q] ∧ (l.drop 5).take p.length = p ∧
    (∀ c : Byte, c ≠ crc8 cfg (body t d src q p) → accepts cfg (body t d src q p ++ [c]) = false) ∧
    (∀ k < l.length, accepts cfg (l.take k) = false) ∧
    (∀ m : List Byte, m ≠ [] → accepts cfg (l ++ m) = false)) ∧
  (∀ (cfg : Cfg) (l : List Byte) (b : Byte), l[1]? = some b →
    (accepts cfg l = true ↔ l.length = 6 + min b.toNat 128 ∧
      l[5 + min b.toNat 128]? = some (crc8 cfg (l.take (5 + min b.toNat 128))))) ∧
  (∀ (cfg : Cfg) (l : List Byte), l.length < 2 → accepts cfg l = false)

/-- R157, second half: RA, fed the stuffed body one RXEVT per logical byte from `st = IDLE`, reaches the Checksum state
with the fields, the payload and the running checksum of what was encoded. -/
def Obligations.ReceiverReadsBackTheEncodedFrame : Prop :=
  ∀ (s : State) (e t d src q : Byte) (p : List Byte), p.length ≤ 128 → s.tci.mode = .rx → s.tci.rxIrqEn = true →
    s.ra.st = .idle → feeds s (stuff e (body t d src q p)) → willing (stuff e (body t d src q p)).length s →
    ∃ u, rxEvts (5 + p.length) s = some u ∧ u.ra.st = .chk ∧ u.ra.fType = t ∧ u.ra.fLen.toNat = p.length ∧
      u.ra.fDst = d ∧ u.ra.fSrc = src ∧ u.ra.fSeq = q ∧ holdsAt u.ra.pay p ∧
      u.ra.crc = crc8 s.cfg (body t d src q p) ∧
      u.env.answers = s.env.answers.drop (stuff e (body t d src q p)).length ∧
      u.tci = { s.tci with cs := false } ∧ u.rb = s.rb ∧ u.de = s.de ∧ u.ra.lastSeq = s.ra.lastSeq

/-! ### The receive assembler -/

/-- R172, R173, R174, R175, R176: the five header arms, each in the state that selects it. -/
def Obligations.HeaderArmsReadTheirField : Prop :=
  ∀ (b : Byte) (s : State),
    (s.ra.st = .idle → exec (.stIdle b) s = .next { s with answer := .unit, ra := { s.ra with
      fType := b, crc := crc8Upd s.cfg s.cfg.crcInit b, wd := 0, st := .len } }) ∧
    (s.ra.st = .len → exec (.stLen b) s = .next { s with answer := .unit, ra := { s.ra with
      fLen := BitVec.ofNat 8 (min b.toNat 128), crc := crc8Upd s.cfg s.ra.crc b, st := .dst } }) ∧
    (s.ra.st = .dst → exec (.stDst b) s = .next { s with answer := .unit, ra := { s.ra with
      fDst := b, crc := crc8Upd s.cfg s.ra.crc b, st := .src } }) ∧
    (s.ra.st = .src → exec (.stSrc b) s = .next { s with answer := .unit, ra := { s.ra with
      fSrc := b, crc := crc8Upd s.cfg s.ra.crc b, st := .seq } }) ∧
    (s.ra.st = .seq → exec (.stSeq b) s = .next { s with answer := .unit, ra := { s.ra with
      fSeq := b, crc := crc8Upd s.cfg s.ra.crc b, idx := 0, st := if s.ra.fLen = 0 then .chk else .pay } })

/-- R177: arm PAY stores the byte at `idx`, sums it, counts it, and goes to CHK after the last one. -/
def Obligations.PayArmStoresOneByte : Prop :=
  ∀ (b : Byte) (s : State), s.ra.st = .pay → s.ra.idx.toNat < s.ra.fLen.toNat → s.ra.fLen.toNat ≤ 128 →
    ∃ m : Memory, (∀ i, m.read i = if i = s.ra.idx.toNat then some b else s.ra.pay.read i) ∧
      exec (.stPay b) s = .next { s with answer := .unit, ra := { s.ra with
        pay := m
        crc := crc8Upd s.cfg s.ra.crc b
        idx := s.ra.idx + 1
        st := if s.ra.idx.toNat + 1 = s.ra.fLen.toNat then .chk else .pay } }

/-- R178, R251: a corrupted frame, a frame to another node, a frame of a reserved type and a duplicate deliver nothing:
RESYNC's words go out, `st` becomes IDLE, and beside that only FrameCorruption is raised (corrupted), or a confirmation
requested (duplicate). The tests are made in that order (R258). -/
def Obligations.ChkArmDeliversNothing : Prop :=
  ∀ (b : Byte) (s : State), s.ra.st = .chk → ∃ u, Sent s u [s.cfg.cwFifoStop, s.cfg.cwFifoArm] ∧
    (b ≠ s.ra.crc → exec (.stChk b) s = .next { u with
      ra := { u.ra with st := .idle }, log := u.log ++ [.error .frameCorruption], answer := .unit }) ∧
    (b = s.ra.crc → s.ra.fDst ≠ s.cfg.myAddr →
      exec (.stChk b) s = .next { u with ra := { u.ra with st := .idle }, answer := .unit }) ∧
    (b = s.ra.crc → s.ra.fDst = s.cfg.myAddr → s.ra.fType ≠ s.cfg.typeData → s.ra.fType ≠ s.cfg.typeAck →
      exec (.stChk b) s = .next { u with ra := { u.ra with st := .idle }, answer := .unit }) ∧
    (b = s.ra.crc → s.ra.fDst = s.cfg.myAddr → s.ra.fType = s.cfg.typeData →
      s.ra.lastSeq.read s.ra.fSrc.toNat = some s.ra.fSeq →
      exec (.stChk b) s = .next { u with
        ra := { u.ra with st := .idle }
        de := { u.de with ackPending := true, ackDst := u.ra.fSrc, ackSeq := u.ra.fSeq }
        answer := .unit })

/-- R178, R205, R252: an accepted new frame of `L` bytes, delivered with `f` free slots, appends its first `min(L, f)`
payload bytes to the queue (so `head` moves on by `min(L, f)` modulo RB_SIZE), drops the others with one BufferOverflow
each, records the sequence id and requests a confirmation. The arm is run as the row ST.CHK standing alone (log 13). -/
def Obligations.ChkArmDeliversANewFrame : Prop :=
  ∀ (s : State) (p : List Byte), s.ra.st = .chk → s.ra.fDst = s.cfg.myAddr → s.ra.fType = s.cfg.typeData →
    s.ra.lastSeq.read s.ra.fSrc.toNat ≠ some s.ra.fSeq → p.length = s.ra.fLen.toNat → p.length ≤ 128 →
    holdsAt s.ra.pay p → s.ringOk → 2 ≤ s.cfg.rbSize →
    ∃ u t, Sent s u [s.cfg.cwFifoStop, s.cfg.cwFifoArm] ∧ Delivered { u with ra := { u.ra with st := .idle } } t p ∧
      exec (.stChk s.ra.crc) s = .next { t with answer := .unit }

/-- R178, R223: a confirmation frame to this node ends the outstanding transmission when it comes from the node the
frame went to and names its sequence id, and changes nothing else; no other confirmation does anything. -/
def Obligations.ChkArmTakesAConfirmation : Prop :=
  ∀ s : State, s.ra.st = .chk → s.ra.fDst = s.cfg.myAddr → s.ra.fType = s.cfg.typeAck → s.cfg.typeAck ≠ s.cfg.typeData →
    ∃ u, Sent s u [s.cfg.cwFifoStop, s.cfg.cwFifoArm] ∧
      exec (.stChk s.ra.crc) s = .next { u with
        ra := { u.ra with st := .idle }
        de := if u.de.awaitingAck = true ∧ u.ra.fSrc = u.de.txDst ∧ u.ra.fSeq = u.de.txSeq
          then { u.de with awaitingAck := false, txSeq := u.de.txSeq + 1, txCnt := 0, timeout := 0 } else u.de
        answer := .unit }

/-- R171: where the watchdog has not run out, RXEVT counts the invocation, reads one logical byte and runs the arm that
`st` selects with it. The header arms' writes (R172 to R176) are stated here; the arms PAY and CHK (R177, R178) are named
through the rows ST.PAY and ST.CHK standing alone, which is the model's form of them (log 13), and what those rows do is
stated in PayArmStoresOneByte, ChkArmDeliversNothing, ChkArmDeliversANewFrame and ChkArmTakesAConfirmation. -/
def Obligations.RxEvtRunsTheSelectedArm : Prop :=
  ∀ (s : State) (b : Byte), s.tci.mode = .rx → s.tci.rxIrqEn = true → b = s.exchange.1.extractLsb' 0 8 →
    willing (if b = 0x00 ∨ b = 0xFF then 2 else 1) s → (s.ra.st.watched = true → s.ra.wd.toNat + 1 ≤ 256) →
    ∃ u, Sent { s with ra := { s.ra with wd := s.ra.wd + 1 } } u
        (if b = 0x00 ∨ b = 0xFF then [s.cfg.cwRxRead, s.cfg.cwRxRead] else [s.cfg.cwRxRead]) ∧
      (s.ra.st = .idle → exec .rxEvt s = .next { u with answer := .unit, ra := { u.ra with
        fType := b, crc := crc8Upd s.cfg s.cfg.crcInit b, wd := 0, st := .len } }) ∧
      (s.ra.st = .len → exec .rxEvt s = .next { u with answer := .unit, ra := { u.ra with
        fLen := BitVec.ofNat 8 (min b.toNat 128), crc := crc8Upd s.cfg s.ra.crc b, st := .dst } }) ∧
      (s.ra.st = .dst → exec .rxEvt s = .next { u with answer := .unit, ra := { u.ra with
        fDst := b, crc := crc8Upd s.cfg s.ra.crc b, st := .src } }) ∧
      (s.ra.st = .src → exec .rxEvt s = .next { u with answer := .unit, ra := { u.ra with
        fSrc := b, crc := crc8Upd s.cfg s.ra.crc b, st := .seq } }) ∧
      (s.ra.st = .seq → exec .rxEvt s = .next { u with answer := .unit, ra := { u.ra with
        fSeq := b, crc := crc8Upd s.cfg s.ra.crc b, idx := 0, st := if s.ra.fLen = 0 then .chk else .pay } }) ∧
      (s.ra.st = .pay → exec .rxEvt s = exec (.stPay b) u) ∧
      (s.ra.st = .chk → exec .rxEvt s = exec (.stChk b) u)

/-- R171, R254: when the counter exceeds 256 in a state LEN to PAY, the byte is drained and discarded, StateMachineStall
raised, the sync search re-armed and `st` set to IDLE; no field register changes. Here "exceeds" is said of the exact sum
`wd + 1`; at `wd = 511`, which no run reaches and where the 9-bit register wraps to 0, that is the model's choice
(log 12). -/
def Obligations.WatchdogForcesIdle : Prop :=
  ∀ (s : State) (b : Byte), s.tci.mode = .rx → s.tci.rxIrqEn = true → b = s.exchange.1.extractLsb' 0 8 →
    willing (if b = 0x00 ∨ b = 0xFF then 2 else 1) s → s.ra.st.watched = true → 256 < s.ra.wd.toNat + 1 →
    ∃ u t, Sent { s with ra := { s.ra with wd := s.ra.wd + 1 } } u
        (if b = 0x00 ∨ b = 0xFF then [s.cfg.cwRxRead, s.cfg.cwRxRead] else [s.cfg.cwRxRead]) ∧
      Sent { u with log := u.log ++ [.error .stateMachineStall] } t [s.cfg.cwFifoStop, s.cfg.cwFifoArm] ∧
      exec .rxEvt s = .next { t with ra := { t.ra with st := .idle }, answer := .unit }

/-- R170: the successor of `st`, in a state where `idx < f_len` when `st = PAY` (R42). The watchdog's row is said of the
exact sum `wd + 1`; at `wd = 511`, which no run reaches, that is the model's choice (log 12). -/
def Obligations.ReceiveStateFollowsTheGraph : Prop :=
  ∀ s t : State, s.tci.mode = .rx → s.tci.rxIrqEn = true → (s.ra.st = .pay → s.ra.idx.toNat < s.ra.fLen.toNat) →
    exec .rxEvt s = .next t → t.answer = .unit →
    t.ra.st =
      if s.ra.st.watched = true ∧ 256 < s.ra.wd.toNat + 1 then .idle
      else match s.ra.st with
        | .idle => .len
        | .len => .dst
        | .dst => .src
        | .src => .seq
        | .seq => if s.ra.fLen = 0 then .chk else .pay
        | .pay => if s.ra.idx.toNat + 1 < s.ra.fLen.toNat then .pay else .chk
        | .chk => .idle

/-- R121, R171: if the ready poll runs out in RXBYTE, `wd` has been incremented and, beside `hw_fault` and the event, no
register has changed; the words sent are reads. -/
def Obligations.RxEvtAbortKeepsTheFrameState : Prop :=
  ∀ s t : State, exec .rxEvt s = .next t → t.answer = .aborted →
    t.ra = { s.ra with wd := s.ra.wd + 1 } ∧ t.rb = s.rb ∧ t.de = s.de ∧
      t.tci = { s.tci with cs := t.tci.cs, hwFault := true } ∧
      (t.tci.cs = s.tci.cs ∨ t.tci.cs = false) ∧
      errorsOf t.log = errorsOf s.log ++ [.hardwareNotReady] ∧
      (wordsOf t.log = wordsOf s.log ∨ wordsOf t.log = wordsOf s.log ++ [s.cfg.cwRxRead])

/-- R180, R262: RXEVT never transmits, never writes `tail`, and writes no TCI register but `cs` and `hw_fault`, no
pending payload, no retry counter. -/
def Obligations.RxEvtNeverTransmits : Prop :=
  ∀ s t : State, exec .rxEvt s = .next t →
    (∃ ws, wordsOf t.log = wordsOf s.log ++ ws ∧
      ∀ w ∈ ws, w = s.cfg.cwRxRead ∨ w = s.cfg.cwFifoStop ∨ w = s.cfg.cwFifoArm) ∧
    t.rb.tail = s.rb.tail ∧ t.tci = { s.tci with cs := t.tci.cs, hwFault := t.tci.hwFault } ∧
    t.de.txDst = s.de.txDst ∧ t.de.txBuf = s.de.txBuf ∧ t.de.retry = s.de.retry

/-- R179: in a state that meets the invariant, with no fault latched, RXEVT never raises StateMachineStall. -/
def Obligations.WatchdogIsNeverReached : Prop :=
  ∀ s t : State, Lawful s → s.tci.hwFault = false → exec .rxEvt s = .next t →
    ∃ es, errorsOf t.log = errorsOf s.log ++ es ∧ ErrorEvent.stateMachineStall ∉ es

/-! ### The ring buffer and the facade -/

/-- R200, R252: RB.PUT stores the byte at `head` and advances `head`, or, when that would reach `tail`, drops it and
raises BufferOverflow. -/
def Obligations.RbPutStoresOrDrops : Prop :=
  ∀ (b : Byte) (s : State), s.ringOk →
    ((s.rb.head + 1) % s.cfg.rbSize = s.rb.tail →
      exec (.rbPut b) s = .next { s with log := s.log ++ [.error (.bufferOverflow b)], answer := .unit }) ∧
    ((s.rb.head + 1) % s.cfg.rbSize ≠ s.rb.tail →
      ∃ m : Memory, (∀ i, m.read i = if i = s.rb.head then some b else s.rb.cells.read i) ∧
        exec (.rbPut b) s = .next { s with
          rb := { s.rb with head := (s.rb.head + 1) % s.cfg.rbSize, cells := m }, answer := .unit })

/-- R201, R203: RB.GET, and READBYTE through it, answer the byte at `tail` and advance `tail`, writing nothing else. -/
def Obligations.ReadingTakesTheByteAtTail : Prop :=
  ∀ (b : Byte) (s : State), s.rb.head ≠ s.rb.tail → s.ringOk → s.rb.cells.read s.rb.tail = some b →
    ∀ i ∈ [Instr.rbGet, .readByte], exec i s = .next { s with
      rb := { s.rb with tail := (s.rb.tail + 1) % s.cfg.rbSize }, answer := .byte b }

/-- R202, R204: HASDATA answers `head != tail`, ISBUSY answers `awaiting_ack`; neither writes anything. -/
def Obligations.QueriesAnswerTheirFlag : Prop :=
  ∀ s : State,
    exec .hasData s = .next { s with answer := .bit (decide (s.rb.head ≠ s.rb.tail)) } ∧
    exec .isBusy s = .next { s with answer := .bit s.de.awaitingAck }

/-- R205: the ring buffer is a queue of at most `RB_SIZE - 1` bytes. -/
def Obligations.RingBufferIsAQueue : Prop :=
  ∀ (b : Byte) (s : State), s.ringOk → 2 ≤ s.cfg.rbSize →
    s.queue.length ≤ s.cfg.rbSize - 1 ∧
    (s.queue.length < s.cfg.rbSize - 1 →
      ∃ t, exec (.rbPut b) s = .next t ∧ t.queue = s.queue ++ [some b] ∧ t.ringOk) ∧
    (s.queue.length = s.cfg.rbSize - 1 → ∃ t, exec (.rbPut b) s = .next t ∧ t.rb = s.rb) ∧
    (∀ q, s.queue = some b :: q →
      ∃ t, exec .rbGet s = .next t ∧ t.answer = .byte b ∧ t.queue = q ∧ t.ringOk)

/-! ### The delivery engine -/

/-- R220: ENQB below capacity stores the byte, overwrites the destination, and arms the fill-timeout with the first
byte only. -/
def Obligations.EnqBStoresOneByte : Prop :=
  ∀ (b dst : Byte) (s : State), s.tci.initDone = true → s.de.awaitingAck = false → s.de.txCnt.toNat < 127 →
    ∃ m : Memory, (∀ i, m.read i = if i = s.de.txCnt.toNat then some b else s.de.txBuf.read i) ∧
      exec (.enqB b dst) s = .next { s with answer := .unit, de := { s.de with
        txDst := dst
        txBuf := m
        txCnt := s.de.txCnt + 1
        timeout := if s.de.txCnt = 0 then s.cfg.fillTimeout else s.de.timeout } }

/-- R220, R221: the ENQB that fills the buffer sends all 128 bytes at once, as a first attempt. -/
def Obligations.EnqBAtCapacitySends : Prop :=
  ∀ (b dst : Byte) (s : State) (p : List Byte), s.tci.initDone = true → s.de.awaitingAck = false →
    s.tci.mode ≠ .off → s.de.txCnt.toNat = 127 → pendingIs s p →
    willing (framePolls s.cfg s.cfg.typeData dst s.cfg.myAddr s.de.txSeq (p ++ [b])) s →
    ∃ (m : Memory) (w : State), (∀ i, m.read i = if i = 127 then some b else s.de.txBuf.read i) ∧
      Sent { s with de := { s.de with txDst := dst, txBuf := m, txCnt := 128 } } w
        (sendWords s.cfg s.cfg.typeData dst s.cfg.myAddr s.de.txSeq (p ++ [b])) ∧
      exec (.enqB b dst) s = .next { w with
        tci := { w.tci with mode := .rx, rxIrqEn := true }
        ra := { w.ra with st := .idle }
        de := { w.de with awaitingAck := true, timeout := s.cfg.ackTimeout, retry := s.cfg.retryBudget }
        answer := .unit }

/-- R221: SEND sends the pending payload to `tx_dst` as one data frame, returns to receive mode, and arms the
acknowledgement timeout; the retry budget is loaded on a first attempt only. -/
def Obligations.SendTransmitsThePayload : Prop :=
  ∀ (first : Bool) (s : State) (p : List Byte), s.tci.initDone = true → s.de.txCnt ≠ 0 → s.de.txCnt.toNat ≤ 128 →
    s.tci.mode ≠ .off → pendingIs s p →
    willing (framePolls s.cfg s.cfg.typeData s.de.txDst s.cfg.myAddr s.de.txSeq p) s →
    ∃ w, Sent s w (sendWords s.cfg s.cfg.typeData s.de.txDst s.cfg.myAddr s.de.txSeq p) ∧
      exec (.send first) s = .next { w with
        tci := { w.tci with mode := .rx, rxIrqEn := true }
        ra := { w.ra with st := .idle }
        de := { w.de with
          awaitingAck := true
          timeout := s.cfg.ackTimeout
          retry := if first then s.cfg.retryBudget else s.de.retry }
        answer := .unit }

/-- R221, R121: a SEND that a ready poll ends leaves `mode = M_TX`, the byte-ready source masked, `awaiting_ack` and
every other register of RA, RB and DE as it was, and `hw_fault = 1`; what went out is a beginning of its words. -/
def Obligations.AbortedSendStaysInTransmitMode : Prop :=
  ∀ (first : Bool) (s t : State), exec (.send first) s = .next t → t.answer = .aborted →
    t.tci = { s.tci with mode := .tx, rxIrqEn := false, cs := t.tci.cs, hwFault := true } ∧ t.ra = s.ra ∧ t.rb = s.rb ∧
      t.de = s.de ∧ errorsOf t.log = errorsOf s.log ++ [.hardwareNotReady] ∧
      ∃ p ws, pendingIs s p ∧ ws <+: sendWords s.cfg s.cfg.typeData s.de.txDst s.cfg.myAddr s.de.txSeq p ∧
        wordsOf t.log = wordsOf s.log ++ ws

/-- R222: a tick with no confirmation pending counts a running timeout down and sends nothing while it runs, leaves a
timeout of 0 alone, and does nothing more when it runs out with nothing pending. -/
def Obligations.TickCountsTheTimeoutDown : Prop :=
  ∀ s : State, s.de.ackPending = false →
    (s.de.timeout = 0 → exec .tick s = .next { s with answer := .unit }) ∧
    (1 < s.de.timeout.toNat → exec .tick s = .next { s with
      de := { s.de with timeout := s.de.timeout - 1 }, answer := .unit }) ∧
    (s.de.timeout = 1 → s.de.awaitingAck = false → s.de.txCnt = 0 → exec .tick s = .next { s with
      de := { s.de with timeout := 0 }, answer := .unit })

/-- R222, R253: a tick that brings the acknowledgement timeout to zero retransmits the same frame and spends one retry,
or, with none left, abandons: `awaiting_ack` cleared, DeliveryFailure raised, the sequence id advanced, the payload
discarded, nothing sent. -/
def Obligations.TickRetransmitsOrAbandons : Prop :=
  ∀ (s : State) (p : List Byte), s.de.ackPending = false → s.de.timeout = 1 → s.de.awaitingAck = true →
    (s.de.retry ≠ 0 → s.tci.initDone = true → s.tci.mode ≠ .off → s.de.txCnt ≠ 0 → s.de.txCnt.toNat ≤ 128 →
      pendingIs s p → willing (framePolls s.cfg s.cfg.typeData s.de.txDst s.cfg.myAddr s.de.txSeq p) s →
      ∃ w, Sent s w (sendWords s.cfg s.cfg.typeData s.de.txDst s.cfg.myAddr s.de.txSeq p) ∧
        exec .tick s = .next { w with
          tci := { w.tci with mode := .rx, rxIrqEn := true }
          ra := { w.ra with st := .idle }
          de := { w.de with timeout := s.cfg.ackTimeout, retry := s.de.retry - 1 }
          answer := .unit }) ∧
    (s.de.retry = 0 → exec .tick s = .next { s with
      de := { s.de with timeout := 0, awaitingAck := false, txSeq := s.de.txSeq + 1, txCnt := 0 }
      log := s.log ++ [.error (.deliveryFailure s.de.txDst s.de.txSeq)]
      answer := .unit })

/-- R222: the tick at which the fill-timeout runs out sends the pending bytes as a first attempt. -/
def Obligations.TickSendsPendingBytes : Prop :=
  ∀ (s : State) (p : List Byte), s.de.ackPending = false → s.de.timeout = 1 → s.de.awaitingAck = false →
    s.tci.initDone = true → s.tci.mode ≠ .off → s.de.txCnt ≠ 0 → s.de.txCnt.toNat ≤ 128 → pendingIs s p →
    willing (framePolls s.cfg s.cfg.typeData s.de.txDst s.cfg.myAddr s.de.txSeq p) s →
    ∃ w, Sent s w (sendWords s.cfg s.cfg.typeData s.de.txDst s.cfg.myAddr s.de.txSeq p) ∧
      exec .tick s = .next { w with
        tci := { w.tci with mode := .rx, rxIrqEn := true }
        ra := { w.ra with st := .idle }
        de := { w.de with awaitingAck := true, timeout := s.cfg.ackTimeout, retry := s.cfg.retryBudget }
        answer := .unit }

/-- R222, R258: a pending confirmation goes out first, and the tick then goes on in the same transition as it would with
none pending. -/
def Obligations.TickConfirmsFirst : Prop :=
  ∀ s : State, s.de.ackPending = true → s.tci.initDone = true → s.tci.mode ≠ .off →
    (s.de.awaitingAck = true → s.de.txCnt ≠ 0) →
    willing (framePolls s.cfg s.cfg.typeAck s.de.ackDst s.cfg.myAddr s.de.ackSeq []) s →
    ∃ w, Sent s w (sendWords s.cfg s.cfg.typeAck s.de.ackDst s.cfg.myAddr s.de.ackSeq []) ∧
      exec .tick s = exec .tick { w with
        tci := { w.tci with mode := .rx, rxIrqEn := true }
        ra := { w.ra with st := .idle }
        de := { w.de with ackPending := false } }

/-- R223: a confirmation from the node the outstanding frame went to, with its sequence id, ends the transmission; any
other changes nothing. -/
def Obligations.AckRxEndsTheTransmission : Prop :=
  ∀ s : State,
    (s.de.awaitingAck = true → s.ra.fSrc = s.de.txDst → s.ra.fSeq = s.de.txSeq → exec .ackRx s = .next { s with
      de := { s.de with awaitingAck := false, txSeq := s.de.txSeq + 1, txCnt := 0, timeout := 0 }, answer := .unit }) ∧
    (¬ (s.de.awaitingAck = true ∧ s.ra.fSrc = s.de.txDst ∧ s.ra.fSeq = s.de.txSeq) →
      exec .ackRx s = .next { s with answer := .unit })

/-- R224: ACKTX sends a confirmation frame without payload to `ack_dst` with `ack_seq`, returns to receive mode and
clears `ack_pending`; nothing of the outstanding transmission changes. -/
def Obligations.AckTxSendsTheConfirmation : Prop :=
  ∀ s : State, s.tci.initDone = true → s.tci.mode ≠ .off →
    willing (framePolls s.cfg s.cfg.typeAck s.de.ackDst s.cfg.myAddr s.de.ackSeq []) s →
    ∃ w, Sent s w (sendWords s.cfg s.cfg.typeAck s.de.ackDst s.cfg.myAddr s.de.ackSeq []) ∧
      exec .ackTx s = .next { w with
        tci := { w.tci with mode := .rx, rxIrqEn := true }
        ra := { w.ra with st := .idle }
        de := { w.de with ackPending := false }
        answer := .unit }

/-- R97, R178, R223: the three type classes: data is delivered unless a duplicate and confirmed either way, a
confirmation goes to ACKRX, a reserved type is discarded. That a class standing alone is that branch of the checksum
arm is the model's reading (log 7). -/
def Obligations.TypeClassesTakeTheirBranch : Prop :=
  ∀ s : State,
    (s.ra.lastSeq.read s.ra.fSrc.toNat = some s.ra.fSeq → exec .typeData s = .next { s with
      de := { s.de with ackPending := true, ackDst := s.ra.fSrc, ackSeq := s.ra.fSeq }, answer := .unit }) ∧
    (∀ p, s.ra.lastSeq.read s.ra.fSrc.toNat ≠ some s.ra.fSeq → p.length = s.ra.fLen.toNat → p.length ≤ 128 →
      holdsAt s.ra.pay p → s.ringOk → 2 ≤ s.cfg.rbSize →
      ∃ t, Delivered s t p ∧ exec .typeData s = .next { t with answer := .unit }) ∧
    (exec .typeAck s = exec .ackRx s ∧ ∃ d, exec .typeAck s = .next { s with de := d, answer := .unit }) ∧
    (∀ t, exec (.typeRsvd t) s = .next { s with answer := .unit })

/-- R225: from the first SEND of a payload, with a willing ENV and nothing but ticks (no RXEVT, so no confirmation, and no
MAIN operation between them), the `k`-th acknowledgement timeout sends the frame again for `k` up to the retry budget `N`,
the `N + 1`-th abandons it, and no later tick sends anything. -/
def Obligations.RetriesRunOut : Prop :=
  ∀ (s : State) (p : List Byte), cfgWf s.cfg = true → s.tci.initDone = true → s.tci.mode ≠ .off →
    s.de.ackPending = false → s.de.awaitingAck = true → s.de.timeout = s.cfg.ackTimeout →
    s.de.retry = s.cfg.retryBudget → s.de.txCnt ≠ 0 → s.de.txCnt.toNat ≤ 128 → pendingIs s p →
    willing (s.cfg.retryBudget.toNat * framePolls s.cfg s.cfg.typeData s.de.txDst s.cfg.myAddr s.de.txSeq p) s →
    (∀ k ≤ s.cfg.retryBudget.toNat, ∃ t, ticks (k * s.cfg.ackTimeout.toNat) s = some t ∧ t.de.awaitingAck = true ∧
      t.de.retry.toNat = s.cfg.retryBudget.toNat - k ∧ wordsOf t.log = wordsOf s.log ++
        (List.replicate k (sendWords s.cfg s.cfg.typeData s.de.txDst s.cfg.myAddr s.de.txSeq p)).flatten) ∧
    ∃ t, ticks ((s.cfg.retryBudget.toNat + 1) * s.cfg.ackTimeout.toNat) s = some t ∧
      t.de = { s.de with awaitingAck := false, txSeq := s.de.txSeq + 1, txCnt := 0, timeout := 0, retry := 0 } ∧
      errorsOf t.log = errorsOf s.log ++ [.deliveryFailure s.de.txDst s.de.txSeq] ∧
      wordsOf t.log = wordsOf s.log ++ (List.replicate s.cfg.retryBudget.toNat
        (sendWords s.cfg s.cfg.typeData s.de.txDst s.cfg.myAddr s.de.txSeq p)).flatten ∧
      ∀ m, ∃ t', ticks m t = some t' ∧ t'.log = t.log ∧ t'.de = t.de

/-! ### Reset, invariants and the whole machine -/

/-- R41: what the table of reset values gives. (The registers it calls unspecified are not stated.) -/
def Obligations.ResetLeavesTheTableValues : Prop :=
  ∀ c : Cfg, ∀ s, s = State.resetWith c →
    s.tci.mode = .off ∧ s.tci.cs = false ∧ s.tci.rxIrqEn = false ∧ s.tci.initDone = false ∧ s.tci.hwFault = false ∧
    s.ra.st = .idle ∧ s.ra.wd = 0 ∧ (∀ i, s.ra.lastSeq.read i = none) ∧ s.rb.head = 0 ∧ s.rb.tail = 0 ∧
    s.de.txCnt = 0 ∧ s.de.txSeq = 0 ∧ s.de.retry = 0 ∧ s.de.timeout = 0 ∧ s.de.awaitingAck = false ∧
    s.de.ackPending = false ∧ s.log = [] ∧ State.reset = State.resetWith refCfg

/-- R42: the state after reset meets the invariant, in every configuration, and its buffers are in canonical form. -/
def Obligations.ResetMeetsTheInvariant : Prop :=
  ∀ c : Cfg, cfgWf c = true → Lawful (State.resetWith c) ∧ (State.resetWith c).memWf

/-- R42: every step of MAIN, RXI or TMI keeps the invariant: its first part always, its second part while
`hw_fault = 0`. -/
def Obligations.StepKeepsTheInvariant : Prop :=
  ∀ s t : State, s.ordinaryTurn = true → Lawful s → step s = .next t → Lawful t

/-- The canonical form of the buffers (log 2): every step keeps it, a row standing alone included. -/
def Obligations.StepKeepsTheBuffersCanonical : Prop :=
  ∀ s t : State, s.memWf → step s = .next t → t.memWf

/-- R65, R41: from a state that meets the invariant with no fault latched, no step of MAIN, RXI or TMI faults: no index
leaves its buffer, and no byte is read before it was written. -/
def Obligations.SoundStatesNeverFault : Prop :=
  ∀ (s : State) (f : Fault), s.ordinaryTurn = true → Lawful s → s.tci.hwFault = false → step s ≠ .fault f

/-- R262, R74: which context writes which state: MAIN, the byte-ready handler and the timer handler leave alone every
register the table gives to the others only. -/
def Obligations.ContextsWriteTheirOwnState : Prop :=
  ∀ (s t : State) (ts : List Turn), step s = .next t →
    (s.env.turns = .main :: ts → t.ra = { s.ra with st := t.ra.st } ∧ t.rb.head = s.rb.head ∧
      t.rb.cells = s.rb.cells ∧ t.de.txSeq = s.de.txSeq ∧ t.de.ackPending = s.de.ackPending ∧
      t.de.ackDst = s.de.ackDst ∧ t.de.ackSeq = s.de.ackSeq) ∧
    (s.env.turns = .rxi :: ts → t.tci = { s.tci with cs := t.tci.cs, hwFault := t.tci.hwFault } ∧
      t.rb.tail = s.rb.tail ∧ t.de.txDst = s.de.txDst ∧ t.de.txBuf = s.de.txBuf ∧ t.de.retry = s.de.retry) ∧
    (s.env.turns = .tmi :: ts → t.tci.initDone = s.tci.initDone ∧ t.tci.rfBaud = s.tci.rfBaud ∧
      t.tci.rfChan = s.tci.rfChan ∧ t.tci.rfPower = s.tci.rfPower ∧ t.tci.rfEnv = s.tci.rfEnv ∧
      t.ra = { s.ra with st := t.ra.st } ∧ t.rb = s.rb ∧ t.de.txDst = s.de.txDst ∧ t.de.txBuf = s.de.txBuf ∧
      t.de.ackDst = s.de.ackDst ∧ t.de.ackSeq = s.de.ackSeq)

/-- R94: a step of MAIN, RXI or TMI sends words of the table, and nothing else. -/
def Obligations.OnlyTableWordsAreSent : Prop :=
  ∀ s t : State, s.ordinaryTurn = true → step s = .next t →
    ∃ ws, wordsOf t.log = wordsOf s.log ++ ws ∧ ∀ w ∈ ws, inWordTable s.cfg w

/-! ### Operations that a ready poll ends -/

/-- R121, R220, R222, R224: a ready poll that runs out inside ACKTX, inside the SEND of the ENQB that fills the buffer,
or inside a TICK ends that whole operation in M_TX, masked, with `hw_fault = 1`, and the writes made so far are kept:
of ACKTX none (`ack_pending` is still as it was), of ENQB the byte stored, `tx_dst`, and `tx_cnt = 128`, of TICK none when
its confirmation is what was cut off, and otherwise the confirmation sent, the timeout at 0 and, on a retransmission, the
retry spent. What went out is a beginning of the operation's words. -/
def Obligations.AbortedOperationsKeepTheirWrites : Prop :=
  ∀ s t : State, t.answer = .aborted →
    (exec .ackTx s = .next t ∨ (∃ b dst, exec (.enqB b dst) s = .next t) ∨ exec .tick s = .next t →
      t.tci = { s.tci with mode := .tx, rxIrqEn := false, cs := t.tci.cs, hwFault := true } ∧ t.rb = s.rb ∧
        t.ra = { s.ra with st := t.ra.st } ∧ errorsOf t.log = errorsOf s.log ++ [.hardwareNotReady]) ∧
    (exec .ackTx s = .next t → t.ra = s.ra ∧ t.de = s.de ∧
      ∃ ws, ws <+: sendWords s.cfg s.cfg.typeAck s.de.ackDst s.cfg.myAddr s.de.ackSeq [] ∧
        wordsOf t.log = wordsOf s.log ++ ws) ∧
    (∀ b dst, exec (.enqB b dst) s = .next t → s.de.txCnt.toNat = 127 ∧ t.ra = s.ra ∧
      ∃ (m : Memory) (p : List Byte) (ws : List Word),
        (∀ i, m.read i = if i = 127 then some b else s.de.txBuf.read i) ∧
        t.de = { s.de with txDst := dst, txBuf := m, txCnt := 128 } ∧ pendingIs s p ∧
        ws <+: sendWords s.cfg s.cfg.typeData dst s.cfg.myAddr s.de.txSeq (p ++ [b]) ∧
        wordsOf t.log = wordsOf s.log ++ ws) ∧
    (exec .tick s = .next t →
      (s.de.ackPending = true ∧ t.ra = s.ra ∧ t.de = s.de ∧
        ∃ ws, ws <+: sendWords s.cfg s.cfg.typeAck s.de.ackDst s.cfg.myAddr s.de.ackSeq [] ∧
          wordsOf t.log = wordsOf s.log ++ ws) ∨
      (s.de.timeout = 1 ∧ (s.de.awaitingAck = true → s.de.retry ≠ 0) ∧
        t.ra = (if s.de.ackPending then { s.ra with st := .idle } else s.ra) ∧
        t.de = { s.de with
          ackPending := false
          timeout := 0
          retry := if s.de.awaitingAck then s.de.retry - 1 else s.de.retry } ∧
        ∃ p ws, pendingIs s p ∧ ws <+: sendWords s.cfg s.cfg.typeData s.de.txDst s.cfg.myAddr s.de.txSeq p ∧
          wordsOf t.log = wordsOf s.log ++ (if s.de.ackPending
            then sendWords s.cfg s.cfg.typeAck s.de.ackDst s.cfg.myAddr s.de.ackSeq [] else []) ++ ws))
end

