-- ==== Sys2Proof/Laws/State.lean ====
section
/-! SUPPORT. What each named update of the state does to each field of it. -/

namespace Sys2Proof.Machine

variable (s : State)

@[simp] theorem State.record_cfg (es : List Event) : (s.record es).cfg = s.cfg := rfl
@[simp] theorem State.record_tci (es : List Event) : (s.record es).tci = s.tci := rfl
@[simp] theorem State.record_ra (es : List Event) : (s.record es).ra = s.ra := rfl
@[simp] theorem State.record_rb (es : List Event) : (s.record es).rb = s.rb := rfl
@[simp] theorem State.record_de (es : List Event) : (s.record es).de = s.de := rfl
@[simp] theorem State.record_log (es : List Event) : (s.record es).log = s.log ++ es := rfl
@[simp] theorem State.record_env (es : List Event) : (s.record es).env = s.env := rfl
@[simp] theorem State.record_answer (es : List Event) : (s.record es).answer = s.answer := rfl

@[simp] theorem State.raise_cfg (e : ErrorEvent) : (s.raise e).cfg = s.cfg := rfl
@[simp] theorem State.raise_tci (e : ErrorEvent) : (s.raise e).tci = s.tci := rfl
@[simp] theorem State.raise_ra (e : ErrorEvent) : (s.raise e).ra = s.ra := rfl
@[simp] theorem State.raise_rb (e : ErrorEvent) : (s.raise e).rb = s.rb := rfl
@[simp] theorem State.raise_de (e : ErrorEvent) : (s.raise e).de = s.de := rfl
@[simp] theorem State.raise_log (e : ErrorEvent) : (s.raise e).log = s.log ++ [.error e] := rfl
@[simp] theorem State.raise_env (e : ErrorEvent) : (s.raise e).env = s.env := rfl
@[simp] theorem State.raise_answer (e : ErrorEvent) : (s.raise e).answer = s.answer := rfl

@[simp] theorem State.setCs_cfg (b : Bool) : (s.setCs b).cfg = s.cfg := rfl
@[simp] theorem State.setCs_tci (b : Bool) : (s.setCs b).tci = { s.tci with cs := b } := rfl
@[simp] theorem State.setCs_ra (b : Bool) : (s.setCs b).ra = s.ra := rfl
@[simp] theorem State.setCs_rb (b : Bool) : (s.setCs b).rb = s.rb := rfl
@[simp] theorem State.setCs_de (b : Bool) : (s.setCs b).de = s.de := rfl
@[simp] theorem State.setCs_log (b : Bool) : (s.setCs b).log = s.log := rfl
@[simp] theorem State.setCs_env (b : Bool) : (s.setCs b).env = s.env := rfl
@[simp] theorem State.setCs_answer (b : Bool) : (s.setCs b).answer = s.answer := rfl

@[simp] theorem State.setAnswer_cfg (a : Answer) : (s.setAnswer a).cfg = s.cfg := rfl
@[simp] theorem State.setAnswer_tci (a : Answer) : (s.setAnswer a).tci = s.tci := rfl
@[simp] theorem State.setAnswer_ra (a : Answer) : (s.setAnswer a).ra = s.ra := rfl
@[simp] theorem State.setAnswer_rb (a : Answer) : (s.setAnswer a).rb = s.rb := rfl
@[simp] theorem State.setAnswer_de (a : Answer) : (s.setAnswer a).de = s.de := rfl
@[simp] theorem State.setAnswer_log (a : Answer) : (s.setAnswer a).log = s.log := rfl
@[simp] theorem State.setAnswer_env (a : Answer) : (s.setAnswer a).env = s.env := rfl
@[simp] theorem State.setAnswer_answer (a : Answer) : (s.setAnswer a).answer = a := rfl

@[simp] theorem State.hardwareNotReady_cfg : s.hardwareNotReady.cfg = s.cfg := rfl
@[simp] theorem State.hardwareNotReady_tci : s.hardwareNotReady.tci = { s.tci with hwFault := true } := rfl
@[simp] theorem State.hardwareNotReady_ra : s.hardwareNotReady.ra = s.ra := rfl
@[simp] theorem State.hardwareNotReady_rb : s.hardwareNotReady.rb = s.rb := rfl
@[simp] theorem State.hardwareNotReady_de : s.hardwareNotReady.de = s.de := rfl
@[simp] theorem State.hardwareNotReady_log : s.hardwareNotReady.log = s.log ++ [.error .hardwareNotReady] := rfl
@[simp] theorem State.hardwareNotReady_env : s.hardwareNotReady.env = s.env := rfl
@[simp] theorem State.hardwareNotReady_answer : s.hardwareNotReady.answer = s.answer := rfl

@[simp] theorem State.setMode_cfg (m : Mode) (irq : Bool) : (s.setMode m irq).cfg = s.cfg := rfl
@[simp] theorem State.setMode_tci (m : Mode) (irq : Bool) : (s.setMode m irq).tci = { s.tci with mode := m, rxIrqEn := irq } := rfl
@[simp] theorem State.setMode_ra (m : Mode) (irq : Bool) : (s.setMode m irq).ra = s.ra := rfl
@[simp] theorem State.setMode_rb (m : Mode) (irq : Bool) : (s.setMode m irq).rb = s.rb := rfl
@[simp] theorem State.setMode_de (m : Mode) (irq : Bool) : (s.setMode m irq).de = s.de := rfl
@[simp] theorem State.setMode_log (m : Mode) (irq : Bool) : (s.setMode m irq).log = s.log := rfl
@[simp] theorem State.setMode_env (m : Mode) (irq : Bool) : (s.setMode m irq).env = s.env := rfl
@[simp] theorem State.setMode_answer (m : Mode) (irq : Bool) : (s.setMode m irq).answer = s.answer := rfl

@[simp] theorem State.mask_cfg : s.mask.cfg = s.cfg := rfl
@[simp] theorem State.mask_tci : s.mask.tci = { s.tci with rxIrqEn := false } := rfl
@[simp] theorem State.mask_ra : s.mask.ra = s.ra := rfl
@[simp] theorem State.mask_rb : s.mask.rb = s.rb := rfl
@[simp] theorem State.mask_de : s.mask.de = s.de := rfl
@[simp] theorem State.mask_log : s.mask.log = s.log := rfl
@[simp] theorem State.mask_env : s.mask.env = s.env := rfl
@[simp] theorem State.mask_answer : s.mask.answer = s.answer := rfl

@[simp] theorem State.setSt_cfg (x : RxState) : (s.setSt x).cfg = s.cfg := rfl
@[simp] theorem State.setSt_tci (x : RxState) : (s.setSt x).tci = s.tci := rfl
@[simp] theorem State.setSt_ra (x : RxState) : (s.setSt x).ra = { s.ra with st := x } := rfl
@[simp] theorem State.setSt_rb (x : RxState) : (s.setSt x).rb = s.rb := rfl
@[simp] theorem State.setSt_de (x : RxState) : (s.setSt x).de = s.de := rfl
@[simp] theorem State.setSt_log (x : RxState) : (s.setSt x).log = s.log := rfl
@[simp] theorem State.setSt_env (x : RxState) : (s.setSt x).env = s.env := rfl
@[simp] theorem State.setSt_answer (x : RxState) : (s.setSt x).answer = s.answer := rfl

@[simp] theorem State.setUp_cfg : s.setUp.cfg = s.cfg := rfl
@[simp] theorem State.setUp_tci : s.setUp.tci = { s.tci with mode := .idle } := rfl
@[simp] theorem State.setUp_ra : s.setUp.ra = s.ra := rfl
@[simp] theorem State.setUp_rb : s.setUp.rb = s.rb := rfl
@[simp] theorem State.setUp_de : s.setUp.de = s.de := rfl
@[simp] theorem State.setUp_log : s.setUp.log = s.log := rfl
@[simp] theorem State.setUp_env : s.setUp.env = s.env := rfl
@[simp] theorem State.setUp_answer : s.setUp.answer = s.answer := rfl

@[simp] theorem State.setInitDone_cfg : s.setInitDone.cfg = s.cfg := rfl
@[simp] theorem State.setInitDone_tci : s.setInitDone.tci = { s.tci with initDone := true } := rfl
@[simp] theorem State.setInitDone_ra : s.setInitDone.ra = s.ra := rfl
@[simp] theorem State.setInitDone_rb : s.setInitDone.rb = s.rb := rfl
@[simp] theorem State.setInitDone_de : s.setInitDone.de = s.de := rfl
@[simp] theorem State.setInitDone_log : s.setInitDone.log = s.log := rfl
@[simp] theorem State.setInitDone_env : s.setInitDone.env = s.env := rfl
@[simp] theorem State.setInitDone_answer : s.setInitDone.answer = s.answer := rfl

@[simp] theorem State.setShadows_cfg (baud : Nat) (chan : BitVec 2) (power : Nat) (e : Profile) : (s.setShadows baud chan power e).cfg = s.cfg := rfl
@[simp] theorem State.setShadows_tci (baud : Nat) (chan : BitVec 2) (power : Nat) (e : Profile) : (s.setShadows baud chan power e).tci = { s.tci with rfBaud := baud, rfChan := chan, rfPower := power, rfEnv := e } := rfl
@[simp] theorem State.setShadows_ra (baud : Nat) (chan : BitVec 2) (power : Nat) (e : Profile) : (s.setShadows baud chan power e).ra = s.ra := rfl
@[simp] theorem State.setShadows_rb (baud : Nat) (chan : BitVec 2) (power : Nat) (e : Profile) : (s.setShadows baud chan power e).rb = s.rb := rfl
@[simp] theorem State.setShadows_de (baud : Nat) (chan : BitVec 2) (power : Nat) (e : Profile) : (s.setShadows baud chan power e).de = s.de := rfl
@[simp] theorem State.setShadows_log (baud : Nat) (chan : BitVec 2) (power : Nat) (e : Profile) : (s.setShadows baud chan power e).log = s.log := rfl
@[simp] theorem State.setShadows_env (baud : Nat) (chan : BitVec 2) (power : Nat) (e : Profile) : (s.setShadows baud chan power e).env = s.env := rfl
@[simp] theorem State.setShadows_answer (baud : Nat) (chan : BitVec 2) (power : Nat) (e : Profile) : (s.setShadows baud chan power e).answer = s.answer := rfl

@[simp] theorem State.setHead_cfg (h : Nat) : (s.setHead h).cfg = s.cfg := rfl
@[simp] theorem State.setHead_tci (h : Nat) : (s.setHead h).tci = s.tci := rfl
@[simp] theorem State.setHead_ra (h : Nat) : (s.setHead h).ra = s.ra := rfl
@[simp] theorem State.setHead_rb (h : Nat) : (s.setHead h).rb = { s.rb with head := h } := rfl
@[simp] theorem State.setHead_de (h : Nat) : (s.setHead h).de = s.de := rfl
@[simp] theorem State.setHead_log (h : Nat) : (s.setHead h).log = s.log := rfl
@[simp] theorem State.setHead_env (h : Nat) : (s.setHead h).env = s.env := rfl
@[simp] theorem State.setHead_answer (h : Nat) : (s.setHead h).answer = s.answer := rfl

@[simp] theorem State.setTail_cfg (h : Nat) : (s.setTail h).cfg = s.cfg := rfl
@[simp] theorem State.setTail_tci (h : Nat) : (s.setTail h).tci = s.tci := rfl
@[simp] theorem State.setTail_ra (h : Nat) : (s.setTail h).ra = s.ra := rfl
@[simp] theorem State.setTail_rb (h : Nat) : (s.setTail h).rb = { s.rb with tail := h } := rfl
@[simp] theorem State.setTail_de (h : Nat) : (s.setTail h).de = s.de := rfl
@[simp] theorem State.setTail_log (h : Nat) : (s.setTail h).log = s.log := rfl
@[simp] theorem State.setTail_env (h : Nat) : (s.setTail h).env = s.env := rfl
@[simp] theorem State.setTail_answer (h : Nat) : (s.setTail h).answer = s.answer := rfl

@[simp] theorem State.outstanding_cfg (f : Bool) : (s.outstanding f).cfg = s.cfg := rfl
@[simp] theorem State.outstanding_tci (f : Bool) : (s.outstanding f).tci = s.tci := rfl
@[simp] theorem State.outstanding_ra (f : Bool) : (s.outstanding f).ra = s.ra := rfl
@[simp] theorem State.outstanding_rb (f : Bool) : (s.outstanding f).rb = s.rb := rfl
@[simp] theorem State.outstanding_de (f : Bool) : (s.outstanding f).de = { s.de with awaitingAck := true, timeout := s.cfg.ackTimeout, retry := if f then s.cfg.retryBudget else s.de.retry } := rfl
@[simp] theorem State.outstanding_log (f : Bool) : (s.outstanding f).log = s.log := rfl
@[simp] theorem State.outstanding_env (f : Bool) : (s.outstanding f).env = s.env := rfl
@[simp] theorem State.outstanding_answer (f : Bool) : (s.outstanding f).answer = s.answer := rfl

@[simp] theorem State.setTxDst_cfg (d : Byte) : (s.setTxDst d).cfg = s.cfg := rfl
@[simp] theorem State.setTxDst_tci (d : Byte) : (s.setTxDst d).tci = s.tci := rfl
@[simp] theorem State.setTxDst_ra (d : Byte) : (s.setTxDst d).ra = s.ra := rfl
@[simp] theorem State.setTxDst_rb (d : Byte) : (s.setTxDst d).rb = s.rb := rfl
@[simp] theorem State.setTxDst_de (d : Byte) : (s.setTxDst d).de = { s.de with txDst := d } := rfl
@[simp] theorem State.setTxDst_log (d : Byte) : (s.setTxDst d).log = s.log := rfl
@[simp] theorem State.setTxDst_env (d : Byte) : (s.setTxDst d).env = s.env := rfl
@[simp] theorem State.setTxDst_answer (d : Byte) : (s.setTxDst d).answer = s.answer := rfl

@[simp] theorem State.enqueued_cfg : s.enqueued.cfg = s.cfg := rfl
@[simp] theorem State.enqueued_tci : s.enqueued.tci = s.tci := rfl
@[simp] theorem State.enqueued_ra : s.enqueued.ra = s.ra := rfl
@[simp] theorem State.enqueued_rb : s.enqueued.rb = s.rb := rfl
@[simp] theorem State.enqueued_de : s.enqueued.de = { s.de with txCnt := s.de.txCnt + 1, timeout := if s.de.txCnt + 1 = 1 then s.cfg.fillTimeout else s.de.timeout } := rfl
@[simp] theorem State.enqueued_log : s.enqueued.log = s.log := rfl
@[simp] theorem State.enqueued_env : s.enqueued.env = s.env := rfl
@[simp] theorem State.enqueued_answer : s.enqueued.answer = s.answer := rfl

@[simp] theorem State.confirmed_cfg : s.confirmed.cfg = s.cfg := rfl
@[simp] theorem State.confirmed_tci : s.confirmed.tci = s.tci := rfl
@[simp] theorem State.confirmed_ra : s.confirmed.ra = s.ra := rfl
@[simp] theorem State.confirmed_rb : s.confirmed.rb = s.rb := rfl
@[simp] theorem State.confirmed_de : s.confirmed.de = { s.de with awaitingAck := false, txSeq := nextSeq s.de.txSeq, txCnt := 0, timeout := 0 } := rfl
@[simp] theorem State.confirmed_log : s.confirmed.log = s.log := rfl
@[simp] theorem State.confirmed_env : s.confirmed.env = s.env := rfl
@[simp] theorem State.confirmed_answer : s.confirmed.answer = s.answer := rfl

@[simp] theorem State.ackSent_cfg : s.ackSent.cfg = s.cfg := rfl
@[simp] theorem State.ackSent_tci : s.ackSent.tci = s.tci := rfl
@[simp] theorem State.ackSent_ra : s.ackSent.ra = s.ra := rfl
@[simp] theorem State.ackSent_rb : s.ackSent.rb = s.rb := rfl
@[simp] theorem State.ackSent_de : s.ackSent.de = { s.de with ackPending := false } := rfl
@[simp] theorem State.ackSent_log : s.ackSent.log = s.log := rfl
@[simp] theorem State.ackSent_env : s.ackSent.env = s.env := rfl
@[simp] theorem State.ackSent_answer : s.ackSent.answer = s.answer := rfl

@[simp] theorem State.countDown_cfg : s.countDown.cfg = s.cfg := rfl
@[simp] theorem State.countDown_tci : s.countDown.tci = s.tci := rfl
@[simp] theorem State.countDown_ra : s.countDown.ra = s.ra := rfl
@[simp] theorem State.countDown_rb : s.countDown.rb = s.rb := rfl
@[simp] theorem State.countDown_de : s.countDown.de = { s.de with timeout := s.de.timeout - 1 } := rfl
@[simp] theorem State.countDown_log : s.countDown.log = s.log := rfl
@[simp] theorem State.countDown_env : s.countDown.env = s.env := rfl
@[simp] theorem State.countDown_answer : s.countDown.answer = s.answer := rfl

@[simp] theorem State.spendRetry_cfg : s.spendRetry.cfg = s.cfg := rfl
@[simp] theorem State.spendRetry_tci : s.spendRetry.tci = s.tci := rfl
@[simp] theorem State.spendRetry_ra : s.spendRetry.ra = s.ra := rfl
@[simp] theorem State.spendRetry_rb : s.spendRetry.rb = s.rb := rfl
@[simp] theorem State.spendRetry_de : s.spendRetry.de = { s.de with retry := s.de.retry - 1 } := rfl
@[simp] theorem State.spendRetry_log : s.spendRetry.log = s.log := rfl
@[simp] theorem State.spendRetry_env : s.spendRetry.env = s.env := rfl
@[simp] theorem State.spendRetry_answer : s.spendRetry.answer = s.answer := rfl

@[simp] theorem State.abandoned_cfg : s.abandoned.cfg = s.cfg := rfl
@[simp] theorem State.abandoned_tci : s.abandoned.tci = s.tci := rfl
@[simp] theorem State.abandoned_ra : s.abandoned.ra = s.ra := rfl
@[simp] theorem State.abandoned_rb : s.abandoned.rb = s.rb := rfl
@[simp] theorem State.abandoned_de : s.abandoned.de = { s.de with awaitingAck := false, txSeq := nextSeq s.de.txSeq, txCnt := 0 } := rfl
@[simp] theorem State.abandoned_log : s.abandoned.log = s.log ++ [.error (.deliveryFailure s.de.txDst s.de.txSeq)] := rfl
@[simp] theorem State.abandoned_env : s.abandoned.env = s.env := rfl
@[simp] theorem State.abandoned_answer : s.abandoned.answer = s.answer := rfl

@[simp] theorem State.payAdvanced_cfg (b : Byte) : (s.payAdvanced b).cfg = s.cfg := rfl
@[simp] theorem State.payAdvanced_tci (b : Byte) : (s.payAdvanced b).tci = s.tci := rfl
@[simp] theorem State.payAdvanced_ra (b : Byte) : (s.payAdvanced b).ra = { s.ra with crc := crc8Upd s.cfg s.ra.crc b, idx := s.ra.idx + 1, st := if s.ra.idx + 1 = s.ra.fLen then .chk else .pay } := rfl
@[simp] theorem State.payAdvanced_rb (b : Byte) : (s.payAdvanced b).rb = s.rb := rfl
@[simp] theorem State.payAdvanced_de (b : Byte) : (s.payAdvanced b).de = s.de := rfl
@[simp] theorem State.payAdvanced_log (b : Byte) : (s.payAdvanced b).log = s.log := rfl
@[simp] theorem State.payAdvanced_env (b : Byte) : (s.payAdvanced b).env = s.env := rfl
@[simp] theorem State.payAdvanced_answer (b : Byte) : (s.payAdvanced b).answer = s.answer := rfl

@[simp] theorem State.noteSeq_cfg : s.noteSeq.cfg = s.cfg := rfl
@[simp] theorem State.noteSeq_tci : s.noteSeq.tci = s.tci := rfl
@[simp] theorem State.noteSeq_ra : s.noteSeq.ra = { s.ra with lastSeq := s.ra.lastSeq.write s.ra.fSrc.toNat s.ra.fSeq } := rfl
@[simp] theorem State.noteSeq_rb : s.noteSeq.rb = s.rb := rfl
@[simp] theorem State.noteSeq_de : s.noteSeq.de = s.de := rfl
@[simp] theorem State.noteSeq_log : s.noteSeq.log = s.log := rfl
@[simp] theorem State.noteSeq_env : s.noteSeq.env = s.env := rfl
@[simp] theorem State.noteSeq_answer : s.noteSeq.answer = s.answer := rfl

@[simp] theorem State.requestAck_cfg : s.requestAck.cfg = s.cfg := rfl
@[simp] theorem State.requestAck_tci : s.requestAck.tci = s.tci := rfl
@[simp] theorem State.requestAck_ra : s.requestAck.ra = s.ra := rfl
@[simp] theorem State.requestAck_rb : s.requestAck.rb = s.rb := rfl
@[simp] theorem State.requestAck_de : s.requestAck.de = { s.de with ackPending := true, ackDst := s.ra.fSrc, ackSeq := s.ra.fSeq } := rfl
@[simp] theorem State.requestAck_log : s.requestAck.log = s.log := rfl
@[simp] theorem State.requestAck_env : s.requestAck.env = s.env := rfl
@[simp] theorem State.requestAck_answer : s.requestAck.answer = s.answer := rfl

@[simp] theorem State.countWd_cfg : s.countWd.cfg = s.cfg := rfl
@[simp] theorem State.countWd_tci : s.countWd.tci = s.tci := rfl
@[simp] theorem State.countWd_ra : s.countWd.ra = { s.ra with wd := s.ra.wd + 1 } := rfl
@[simp] theorem State.countWd_rb : s.countWd.rb = s.rb := rfl
@[simp] theorem State.countWd_de : s.countWd.de = s.de := rfl
@[simp] theorem State.countWd_log : s.countWd.log = s.log := rfl
@[simp] theorem State.countWd_env : s.countWd.env = s.env := rfl
@[simp] theorem State.countWd_answer : s.countWd.answer = s.answer := rfl

@[simp] theorem State.dropTurn_cfg : s.dropTurn.cfg = s.cfg := rfl
@[simp] theorem State.dropTurn_tci : s.dropTurn.tci = s.tci := rfl
@[simp] theorem State.dropTurn_ra : s.dropTurn.ra = s.ra := rfl
@[simp] theorem State.dropTurn_rb : s.dropTurn.rb = s.rb := rfl
@[simp] theorem State.dropTurn_de : s.dropTurn.de = s.de := rfl
@[simp] theorem State.dropTurn_log : s.dropTurn.log = s.log := rfl
@[simp] theorem State.dropTurn_env : s.dropTurn.env = { s.env with turns := s.env.turns.tail } := rfl
@[simp] theorem State.dropTurn_answer : s.dropTurn.answer = s.answer := rfl

@[simp] theorem State.setMainOps_cfg (l : List Request) : (s.setMainOps l).cfg = s.cfg := rfl
@[simp] theorem State.setMainOps_tci (l : List Request) : (s.setMainOps l).tci = s.tci := rfl
@[simp] theorem State.setMainOps_ra (l : List Request) : (s.setMainOps l).ra = s.ra := rfl
@[simp] theorem State.setMainOps_rb (l : List Request) : (s.setMainOps l).rb = s.rb := rfl
@[simp] theorem State.setMainOps_de (l : List Request) : (s.setMainOps l).de = s.de := rfl
@[simp] theorem State.setMainOps_log (l : List Request) : (s.setMainOps l).log = s.log := rfl
@[simp] theorem State.setMainOps_env (l : List Request) : (s.setMainOps l).env = { s.env with mainOps := l } := rfl
@[simp] theorem State.setMainOps_answer (l : List Request) : (s.setMainOps l).answer = s.answer := rfl

theorem State.setMem_pay (m : Memory) : s.setMem .pay m = { s with ra := { s.ra with pay := m } } := rfl

theorem State.setMem_rb (m : Memory) : s.setMem .rb m = { s with rb := { s.rb with cells := m } } := rfl

theorem State.setMem_txb (m : Memory) : s.setMem .txb m = { s with de := { s.de with txBuf := m } } := rfl

@[simp] theorem State.setMem_cfg (sp : Space) (m : Memory) : (s.setMem sp m).cfg = s.cfg := by cases sp <;> rfl
@[simp] theorem State.setMem_tci (sp : Space) (m : Memory) : (s.setMem sp m).tci = s.tci := by cases sp <;> rfl
@[simp] theorem State.setMem_log (sp : Space) (m : Memory) : (s.setMem sp m).log = s.log := by cases sp <;> rfl
@[simp] theorem State.setMem_env (sp : Space) (m : Memory) : (s.setMem sp m).env = s.env := by cases sp <;> rfl
@[simp] theorem State.setMem_answer (sp : Space) (m : Memory) : (s.setMem sp m).answer = s.answer := by
  cases sp <;> rfl
@[simp] theorem State.setMem_mem (sp : Space) (m : Memory) : (s.setMem sp m).mem sp = m := by cases sp <;> rfl
@[simp] theorem State.setMem_sizeOf (sp sq : Space) (m : Memory) : (s.setMem sp m).sizeOf sq = s.sizeOf sq := by
  cases sp <;> cases sq <;> rfl

end Sys2Proof.Machine
end

