-- ==== Sys2Proof/Laws/Port.lean ====
section
/-! SUPPORT. The radio port: what an exchange, a list of exchanges and a ready poll can do. -/

namespace Sys2Proof.Machine

/-! ### Running rules one after another -/

@[simp] theorem Res.bind_done {α β : Type} (a : α) (s : State) (k : α → State → Res β) :
    (Res.done a s).bind k = k a s := rfl

@[simp] theorem Res.bind_abort {α β : Type} (s : State) (k : α → State → Res β) :
    (Res.abort s : Res α).bind k = .abort s := rfl

@[simp] theorem Res.bind_noStep {α β : Type} (k : α → State → Res β) : (Res.noStep : Res α).bind k = .noStep := rfl

@[simp] theorem Res.bind_fault {α β : Type} (f : Fault) (k : α → State → Res β) :
    (Res.fault f : Res α).bind k = .fault f := rfl

/-- A sequence that ran to its end: both parts did. -/
theorem Res.bind_eq_done {α β : Type} {m : Res α} {k : α → State → Res β} {b : β} {t : State} :
    m.bind k = .done b t ↔ ∃ a u, m = .done a u ∧ k a u = .done b t := by
  cases m <;> simp

/-- A sequence that aborted: the first part did, or it ended and the second part did. -/
theorem Res.bind_eq_abort {α β : Type} {m : Res α} {k : α → State → Res β} {t : State} :
    m.bind k = .abort t ↔ m = .abort t ∨ ∃ a u, m = .done a u ∧ k a u = .abort t := by
  cases m <;> simp

theorem Res.bind_eq_fault {α β : Type} {m : Res α} {k : α → State → Res β} {f : Fault} :
    m.bind k = .fault f ↔ m = .fault f ∨ ∃ a u, m = .done a u ∧ k a u = .fault f := by
  cases m <;> simp

theorem Res.bind_eq_noStep {α β : Type} {m : Res α} {k : α → State → Res β} :
    m.bind k = .noStep ↔ m = .noStep ∨ ∃ a u, m = .done a u ∧ k a u = .noStep := by
  cases m <;> simp

/-! ### The event history -/

@[simp] theorem portEvents_nil : portEvents [] = [] := rfl

@[simp] theorem portEvents_append (xs ys : List (Word × Word)) :
    portEvents (xs ++ ys) = portEvents xs ++ portEvents ys := by simp [portEvents]

@[simp] theorem wordsOf_append (l m : List Event) : wordsOf (l ++ m) = wordsOf l ++ wordsOf m := by simp [wordsOf]

@[simp] theorem errorsOf_append (l m : List Event) : errorsOf (l ++ m) = errorsOf l ++ errorsOf m := by
  simp [errorsOf]

@[simp] theorem wordsOf_portEvents (xs : List (Word × Word)) : wordsOf (portEvents xs) = xs.map Prod.fst := by
  induction xs with
  | nil => rfl
  | cons x xs ih =>
    have : portEvents (x :: xs) = exchangeEvents x ++ portEvents xs := rfl
    rw [this, wordsOf_append, ih]
    simp [wordsOf, exchangeEvents]

@[simp] theorem errorsOf_portEvents (xs : List (Word × Word)) : errorsOf (portEvents xs) = [] := by
  induction xs with
  | nil => rfl
  | cons x xs ih =>
    have : portEvents (x :: xs) = exchangeEvents x ++ portEvents xs := rfl
    rw [this, errorsOf_append, ih]
    simp [errorsOf, exchangeEvents]

@[simp] theorem wordsOf_error (e : ErrorEvent) : wordsOf [.error e] = [] := rfl

@[simp] theorem errorsOf_error (e : ErrorEvent) : errorsOf [.error e] = [e] := rfl

/-! ### `Talked` -/

theorem Talked.refl (s : State) : Talked s s [] := by constructor <;> simp

theorem Talked.trans {s u v : State} {xs ys : List (Word × Word)} (h : Talked s u xs) (k : Talked u v ys) :
    Talked s v (xs ++ ys) where
  cfg := k.cfg.trans h.cfg
  tci := by rw [k.tci, h.tci]; by_cases hx : xs = [] <;> by_cases hy : ys = [] <;> simp [hx, hy]
  ra := k.ra.trans h.ra
  rb := k.rb.trans h.rb
  de := k.de.trans h.de
  log := by rw [k.log, h.log, portEvents_append, List.append_assoc]
  turns := k.turns.trans h.turns
  mainOps := k.mainOps.trans h.mainOps
  answer := k.answer.trans h.answer

theorem Sent.trans {s u v : State} {ws zs : List Word} (h : Sent s u ws) (k : Sent u v zs) : Sent s v (ws ++ zs) := by
  obtain ⟨xs, rfl, hx⟩ := h
  obtain ⟨ys, rfl, hy⟩ := k
  exact ⟨xs ++ ys, by simp, hx.trans hy⟩

theorem Sent.refl (s : State) : Sent s s [] := ⟨[], rfl, Talked.refl s⟩

theorem Talked.sent {s u : State} {xs : List (Word × Word)} (h : Talked s u xs) : Sent s u (xs.map Prod.fst) :=
  ⟨xs, rfl, h⟩

theorem Talked.mode {s u : State} {xs : List (Word × Word)} (h : Talked s u xs) : u.tci.mode = s.tci.mode := by
  rw [h.tci]

theorem Sent.cfg {s u : State} {ws : List Word} (h : Sent s u ws) : u.cfg = s.cfg := by obtain ⟨_, _, h⟩ := h; exact h.cfg
theorem Sent.ra {s u : State} {ws : List Word} (h : Sent s u ws) : u.ra = s.ra := by obtain ⟨_, _, h⟩ := h; exact h.ra
theorem Sent.rb {s u : State} {ws : List Word} (h : Sent s u ws) : u.rb = s.rb := by obtain ⟨_, _, h⟩ := h; exact h.rb
theorem Sent.de {s u : State} {ws : List Word} (h : Sent s u ws) : u.de = s.de := by obtain ⟨_, _, h⟩ := h; exact h.de
theorem Sent.turns {s u : State} {ws : List Word} (h : Sent s u ws) : u.env.turns = s.env.turns := by
  obtain ⟨_, _, h⟩ := h; exact h.turns
theorem Sent.mainOps {s u : State} {ws : List Word} (h : Sent s u ws) : u.env.mainOps = s.env.mainOps := by
  obtain ⟨_, _, h⟩ := h; exact h.mainOps
theorem Sent.answer {s u : State} {ws : List Word} (h : Sent s u ws) : u.answer = s.answer := by
  obtain ⟨_, _, h⟩ := h; exact h.answer

/-- The TCI registers after words were sent: only `cs` may differ, and it is deasserted after a word (R120). -/
theorem Sent.tci {s u : State} {ws : List Word} (h : Sent s u ws) :
    u.tci = { s.tci with cs := if ws = [] then s.tci.cs else false } := by
  obtain ⟨xs, rfl, h⟩ := h
  rw [h.tci]
  simp

theorem Sent.mode {s u : State} {ws : List Word} (h : Sent s u ws) : u.tci.mode = s.tci.mode := by rw [h.tci]

/-- The words in `log` after words were sent. -/
theorem Sent.words {s u : State} {ws : List Word} (h : Sent s u ws) : wordsOf u.log = wordsOf s.log ++ ws := by
  obtain ⟨xs, rfl, h⟩ := h
  rw [h.log]
  simp

/-- Exchanges raise no error event. -/
theorem Sent.errors {s u : State} {ws : List Word} (h : Sent s u ws) : errorsOf u.log = errorsOf s.log := by
  obtain ⟨xs, rfl, h⟩ := h
  rw [h.log]
  simp

/-- `log` is only appended to. -/
theorem Sent.log {s u : State} {ws : List Word} (h : Sent s u ws) : ∃ es, u.log = s.log ++ es := by
  obtain ⟨xs, rfl, h⟩ := h
  exact ⟨_, h.log⟩

/-! ### One exchange -/

/-- An answer of ENV changes nothing but ENV's own record of answers. -/
theorem exchange_spec (s : State) : ∃ e : Env, s.exchange.2 = { s with env := e } ∧
    e.turns = s.env.turns ∧ e.mainOps = s.env.mainOps ∧ e.readies = s.env.readies ∧
    e.readiesDrawn = s.env.readiesDrawn := by
  unfold State.exchange
  split <;> exact ⟨_, rfl, rfl, rfl, rfl, rfl⟩

/-- Everything XFER does (R120). -/
theorem xfer_talked (w : Word) (s : State) : Talked s (xfer w s).2 [(w, (xfer w s).1)] := by
  obtain ⟨e, he, ht, hm, _, _⟩ := exchange_spec ((s.setCs true).record [.selAssert])
  constructor <;> simp [xfer, he, ht, hm, portEvents, exchangeEvents]

/-- The response of XFER is ENV's next answer (R66). -/
theorem xfer_response (w : Word) (s : State) : (xfer w s).1 = s.exchange.1 := by
  simp only [xfer, State.exchange, State.setCs, State.record]
  split <;> rfl

/-- XFER leaves ENV's ready answers alone. -/
theorem xfer_readies (w : Word) (s : State) : (xfer w s).2.env.readies = s.env.readies ∧
    (xfer w s).2.env.readiesDrawn = s.env.readiesDrawn := by
  obtain ⟨e, he, _, _, hr, hd⟩ := exchange_spec ((s.setCs true).record [.selAssert])
  constructor <;> simp [xfer, he, hr, hd]

/-- XFER takes ENV's next answer (R66). -/
theorem xfer_answers (w : Word) (s : State) : (xfer w s).2.env.answers = s.env.answers.drop 1 := by
  simp only [xfer, State.exchange, State.setCs, State.record]
  cases s.env.answers <;> simp

theorem put_sent (w : Word) (s : State) : Sent s (put w s) [w] := (xfer_talked w s).sent

theorem putAll_sent (ws : List Word) : ∀ s, Sent s (putAll ws s) ws := by
  induction ws with
  | nil => intro s; exact Sent.refl s
  | cons w ws ih => intro s; exact (put_sent w s).trans (ih (put w s))

/-! ### The ready poll -/

/-- A poll changes nothing but ENV's own record of answers. -/
theorem ready_spec (s : State) : ∃ e : Env, s.ready.2 = { s with env := e } ∧
    e.turns = s.env.turns ∧ e.mainOps = s.env.mainOps ∧ e.answers = s.env.answers ∧
    e.answersDrawn = s.env.answersDrawn := by
  unfold State.ready
  split <;> exact ⟨_, rfl, rfl, rfl, rfl, rfl⟩

theorem poll_spec (n : Nat) : ∀ s, ∃ e : Env, (poll n s).2 = { s with env := e } ∧
    e.turns = s.env.turns ∧ e.mainOps = s.env.mainOps ∧ e.answers = s.env.answers ∧
    e.answersDrawn = s.env.answersDrawn := by
  induction n with
  | zero => intro s; exact ⟨s.env, rfl, rfl, rfl, rfl, rfl⟩
  | succ n ih =>
    intro s
    obtain ⟨e, he, h1, h2, h3, h4⟩ := ready_spec s
    simp only [poll]
    split
    · exact ⟨e, he, h1, h2, h3, h4⟩
    · obtain ⟨e', he', k1, k2, k3, k4⟩ := ih s.ready.2
      rw [he'] at *
      rw [he] at k1 k2 k3 k4 ⊢
      exact ⟨e', rfl, k1.trans h1, k2.trans h2, k3.trans h3, k4.trans h4⟩

theorem poll_talked (n : Nat) (s : State) : Talked s (poll n s).2 [] := by
  obtain ⟨e, he, h1, h2, _, _⟩ := poll_spec n s
  rw [he]
  constructor <;> simp [h1, h2]

/-- Everything WAITRDY does (R121): it returns after some polls, or the fault is latched and the transition aborts. -/
theorem waitRdy_cases (s : State) : ∃ u, Sent s u [] ∧ u.exchange.1 = s.exchange.1 ∧
    ((waitRdy s = .done () u ∧ (poll s.cfg.pollLimit s).1 = true) ∨
      (waitRdy s = .abort u.hardwareNotReady ∧ (poll s.cfg.pollLimit s).1 = false)) := by
  refine ⟨(poll s.cfg.pollLimit s).2, (poll_talked _ s).sent, ?_, ?_⟩
  · obtain ⟨e, he, _, _, h3, h4⟩ := poll_spec s.cfg.pollLimit s
    rw [he]
    simp only [State.exchange, h3, h4]
    split <;> rfl
  · unfold waitRdy
    cases h : (poll s.cfg.pollLimit s).1 <;> simp

/-! ### When ENV is willing -/

/-- Polling depends on ENV's ready answers only. -/
theorem poll_congr (n : Nat) : ∀ s t : State, s.env.readies = t.env.readies → s.env.readiesDrawn = t.env.readiesDrawn →
    (poll n s).1 = (poll n t).1 ∧ (poll n s).2.env.readies = (poll n t).2.env.readies ∧
      (poll n s).2.env.readiesDrawn = (poll n t).2.env.readiesDrawn := by
  induction n with
  | zero => intro s t h1 h2; exact ⟨rfl, h1, h2⟩
  | succ n ih =>
    intro s t h1 h2
    have hr : s.ready.1 = t.ready.1 ∧ s.ready.2.env.readies = t.ready.2.env.readies ∧
        s.ready.2.env.readiesDrawn = t.ready.2.env.readiesDrawn := by
      simp only [State.ready, ← h1, ← h2]
      split <;> simp [h2]
    simp only [poll, ← hr.1]
    split
    · exact ⟨rfl, hr.2⟩
    · exact ih _ _ hr.2.1 hr.2.2

/-- `willing` depends on the poll bound and ENV's ready answers only. -/
theorem willing_congr (n : Nat) : ∀ s t : State, s.cfg.pollLimit = t.cfg.pollLimit → s.env.readies = t.env.readies →
    s.env.readiesDrawn = t.env.readiesDrawn → willing n s → willing n t := by
  induction n with
  | zero => intro _ _ _ _ _ _; trivial
  | succ n ih =>
    intro s t h0 h1 h2 hw
    obtain ⟨p1, p2, p3⟩ := poll_congr s.cfg.pollLimit s t h1 h2
    rw [willing] at hw ⊢
    rw [← h0]
    refine ⟨p1 ▸ hw.1, ih _ _ ?_ p2 p3 hw.2⟩
    rw [(poll_talked _ s).cfg, (poll_talked _ t).cfg, h0]

theorem willing_put {n : Nat} {s : State} (w : Word) (h : willing n s) : willing n (put w s) :=
  willing_congr n s _ (by rw [(put_sent w s).cfg]) (xfer_readies w s).1.symm (xfer_readies w s).2.symm h

theorem willing_xfer {n : Nat} {s : State} (w : Word) (h : willing n s) : willing n (xfer w s).2 := willing_put w h

theorem willing_putAll {n : Nat} (ws : List Word) : ∀ {s : State}, willing n s → willing n (putAll ws s) := by
  induction ws with
  | nil => intro s h; exact h
  | cons w ws ih => intro s h; exact ih (willing_put w h)

theorem willing_less {m : Nat} : ∀ {n : Nat} {s : State}, m ≤ n → willing n s → willing m s := by
  induction m with
  | zero => intro _ _ _ _; trivial
  | succ m ih =>
    intro n s hn h
    obtain ⟨n, rfl⟩ : ∃ k, n = k + 1 := ⟨n - 1, by omega⟩
    exact ⟨h.1, ih (by omega) h.2⟩

/-- WAITRDY when ENV is willing: it returns, and one ready poll is used up. -/
theorem waitRdy_done {n : Nat} {s : State} (h : willing (n + 1) s) :
    ∃ u, waitRdy s = .done () u ∧ Sent s u [] ∧ u.exchange.1 = s.exchange.1 ∧ u.env.answers = s.env.answers ∧
      willing n u := by
  refine ⟨(poll s.cfg.pollLimit s).2, by simp [waitRdy, h.1], (poll_talked _ s).sent, ?_, ?_, h.2⟩
  · obtain ⟨e, he, _, _, h3, h4⟩ := poll_spec s.cfg.pollLimit s
    rw [he]
    simp only [State.exchange, h3, h4]
    split <;> rfl
  · obtain ⟨e, he, _, _, h3, _⟩ := poll_spec s.cfg.pollLimit s
    rw [he]
    exact h3

/-- ENV has already chosen `n` ready answers of 1: it is willing. -/
theorem willing_of_readies (n : Nat) : ∀ (s : State) (rest : List Bool), 1 ≤ s.cfg.pollLimit →
    s.env.readies = List.replicate n true ++ rest → willing n s := by
  induction n with
  | zero => intro _ _ _ _; trivial
  | succ n ih =>
    intro s rest hl hr
    obtain ⟨k, hk⟩ : ∃ k, s.cfg.pollLimit = k + 1 := ⟨s.cfg.pollLimit - 1, by omega⟩
    have hrd : s.ready = (true, { s with env := { s.env with readies := List.replicate n true ++ rest } }) := by
      simp [State.ready, hr, List.replicate_succ]
    refine ⟨by simp [hk, poll, hrd], ?_⟩
    have : (poll s.cfg.pollLimit s).2 = { s with env := { s.env with readies := List.replicate n true ++ rest } } := by
      simp [hk, poll, hrd]
    rw [this]
    exact ih _ rest hl rfl

end Sys2Proof.Machine
end

