-- ==== Sys2Proof/Laws/Transceiver.lean ====
section
/-! SUPPORT. What a word function of the configuration can answer and what each TCI operation can do, once: RESYNC, the
mode operations, INIT, CONFIG, TXBYTE, RXBYTE. -/

namespace Sys2Proof.Machine

/-! ### The word functions of the configuration -/

/-- What a word function can answer: a word the configuration fixes for the argument, or, where it fixes none, the
word of the function it names. -/
theorem WordFn.word_cases {α : Type} [DecidableEq α] (f : WordFn α) (free : Nat → α → Word) (a : α) :
    (∃ w, f.listed.lookup a = some w ∧ WordFn.word f free a = w) ∨
    (f.listed.lookup a = none ∧ WordFn.word f free a = free f.rest a) := by
  cases h : f.listed.lookup a <;> simp [WordFn.word, h]

/-- Every function agrees with some configuration's word function on any list of arguments. -/
theorem WordFn.exists_word_eq {α : Type} [DecidableEq α] (free : Nat → α → Word) (g : α → Word) (l : List α) :
    ∃ f : WordFn α, ∀ a ∈ l, WordFn.word f free a = g a := by
  refine ⟨{ listed := l.map fun a => (a, g a), rest := 0 }, ?_⟩
  induction l with
  | nil => simp
  | cons x l ih =>
    intro a ha
    by_cases hx : a = x
    · simp [WordFn.word, hx]
    · simpa [WordFn.word, List.lookup, hx, beq_eq_false_iff_ne.2 hx] using ih a (by simpa [hx] using ha)

/-! ### RESYNC and the modes -/

/-- Everything RESYNC does (R128). -/
theorem resync_spec (s : State) : ∃ u, Sent s u [s.cfg.cwFifoStop, s.cfg.cwFifoArm] ∧ resync s = u.setSt .idle :=
  ⟨_, (put_sent _ s).trans (put_sent _ _), rfl⟩

/-- Sending words after masking and then setting the mode and the mask is sending them and setting both. -/
theorem sent_mask_setMode {s u : State} {ws : List Word} (m : Mode) (b : Bool) (h : Sent s.mask u ws) :
    ∃ v, Sent s v ws ∧ u.setMode m b = v.setMode m b := by
  obtain ⟨xs, rfl, h⟩ := h
  refine ⟨{ u with tci := { u.tci with rxIrqEn := s.tci.rxIrqEn } }, ⟨xs, rfl, ?_⟩, rfl⟩
  exact { cfg := h.cfg, tci := by simp [h.tci], ra := h.ra, rb := h.rb, de := h.de, log := h.log, turns := h.turns,
          mainOps := h.mainOps, answer := h.answer }

/-- Everything SETRX does where it is enabled (R125). -/
theorem setRxBody_spec (s : State) : ∃ u, Sent s u (setRxWords s.cfg) ∧
    setRxBody s = (u.setSt .idle).setMode .rx true := by
  obtain ⟨v, hv, he⟩ := sent_mask_setMode (s := s) .rx true
    (((put_sent s.cfg.cwIdle s.mask).trans (put_sent s.cfg.cwRxOn _)).trans
      ((put_sent s.cfg.cwFifoStop _).trans (put_sent s.cfg.cwFifoArm _)))
  refine ⟨v, by simpa [setRxWords] using hv, ?_⟩
  have : setRxBody s = ((put s.cfg.cwFifoArm (put s.cfg.cwFifoStop (put s.cfg.cwRxOn
      (put s.cfg.cwIdle s.mask)))).setMode .rx true).setSt .idle := by
    simp only [setRxBody, resync, (put_sent _ _).cfg, State.mask_cfg]
    rfl
  rw [this, he]
  rfl

/-- Everything SETTX does where it is enabled (R126). -/
theorem setTxBody_spec (s : State) : ∃ u, Sent s u [s.cfg.cwIdle, s.cfg.cwTxOn] ∧
    setTxBody s = u.setMode .tx false := by
  obtain ⟨v, hv, he⟩ := sent_mask_setMode (s := s) .tx false
    ((put_sent s.cfg.cwIdle s.mask).trans (put_sent s.cfg.cwTxOn _))
  refine ⟨v, by simpa using hv, ?_⟩
  rw [← he]
  rfl

theorem setRx_cases (s : State) : (s.tci.mode ≠ .off ∧ setRx s = .done () (setRxBody s)) ∨
    (s.tci.mode = .off ∧ setRx s = .noStep) := by
  unfold setRx State.isSetUp
  by_cases h : s.tci.mode = .off <;> simp [h]

theorem setTx_cases (s : State) : (s.tci.mode ≠ .off ∧ setTx s = .done () (setTxBody s)) ∨
    (s.tci.mode = .off ∧ setTx s = .noStep) := by
  unfold setTx State.isSetUp
  by_cases h : s.tci.mode = .off <;> simp [h]

/-- Everything SETIDLE does (R127). -/
theorem setIdle_cases (s : State) :
    (s.tci.mode ≠ .off ∧ ∃ u, Sent s u [s.cfg.cwIdle] ∧ setIdle s = .done () (u.setMode .idle false)) ∨
    (s.tci.mode = .off ∧ setIdle s = .noStep) := by
  unfold setIdle State.isSetUp
  by_cases h : s.tci.mode = .off
  · simp [h]
  · obtain ⟨v, hv, he⟩ := sent_mask_setMode (s := s) .idle false (put_sent s.cfg.cwIdle s.mask)
    exact .inl ⟨h, v, by simpa using hv, by simp [h, ← he]⟩

/-- Everything INIT does (R123). -/
theorem init_cases (s : State) :
    (s.tci.initDone = false ∧ ∃ u, Sent s u (s.cfg.initSeq ++ setRxWords s.cfg) ∧
      init s = .done () ((u.setSt .idle).setMode .rx true).setInitDone) ∨
    (s.tci.initDone = true ∧ init s = .noStep) := by
  unfold init
  cases h : s.tci.initDone
  · refine .inl ⟨rfl, ?_⟩
    have hp := putAll_sent s.cfg.initSeq s
    obtain ⟨u, hu, he⟩ := setRxBody_spec (putAll s.cfg.initSeq s).setUp
    rcases setRx_cases (putAll s.cfg.initSeq s).setUp with ⟨_, hr⟩ | ⟨hm, _⟩
    · obtain ⟨xs, hx, hu⟩ := hu
      have hv : Sent (putAll s.cfg.initSeq s)
          { u with tci := { u.tci with mode := (putAll s.cfg.initSeq s).tci.mode } } (setRxWords s.cfg) :=
        ⟨xs, by simpa [hp.cfg] using hx,
          { cfg := hu.cfg, tci := by simp [hu.tci], ra := hu.ra, rb := hu.rb, de := hu.de, log := hu.log,
            turns := hu.turns, mainOps := hu.mainOps, answer := hu.answer }⟩
      exact ⟨_, hp.trans hv, by simp only [Bool.false_eq_true, if_false, hr, he, Res.bind_done]; rfl⟩
    · simp at hm
  · exact .inr ⟨rfl, by simp⟩

/-- Everything CONFIG does (R124). -/
theorem config_cases (baud : Nat) (chan : BitVec 2) (power : Nat) (e : Profile) (s : State) :
    (s.tci.initDone = true ∧ ∃ u, Sent s u (configWords s.cfg baud chan power e) ∧
      config baud chan power e s = .done () (u.setShadows baud chan power e)) ∨
    (s.tci.initDone = false ∧ config baud chan power e s = .noStep) := by
  unfold config
  cases h : s.tci.initDone
  · exact .inr ⟨rfl, by simp⟩
  · exact .inl ⟨rfl, _, putAll_sent _ s, by simp⟩

/-! ### Willing through the mode operations -/

theorem willing_update {n : Nat} {s t : State} (hc : t.cfg = s.cfg) (he : t.env = s.env) (h : willing n s) :
    willing n t := willing_congr n s t (by rw [hc]) (by rw [he]) (by rw [he]) h

theorem willing_resync {n : Nat} {s : State} (h : willing n s) : willing n (resync s) :=
  willing_update (s := put s.cfg.cwFifoArm (put s.cfg.cwFifoStop s)) rfl rfl (willing_put _ (willing_put _ h))

theorem willing_mask {n : Nat} {s : State} (h : willing n s) : willing n s.mask := willing_update (s := s) rfl rfl h

theorem willing_setRxBody {n : Nat} {s : State} (h : willing n s) : willing n (setRxBody s) :=
  willing_update (s := resync (put s.cfg.cwRxOn (put s.cfg.cwIdle s.mask))) rfl rfl
    (willing_resync (willing_put _ (willing_put _ (willing_mask h))))

theorem willing_setTxBody {n : Nat} {s : State} (h : willing n s) : willing n (setTxBody s) :=
  willing_update (s := put s.cfg.cwTxOn (put s.cfg.cwIdle s.mask)) rfl rfl
    (willing_put _ (willing_put _ (willing_mask h)))

/-! ### Byte primitives -/

/-- The two fill bytes (R93). -/
theorem isFill_iff (v : Byte) : isFill v = true ↔ v = 0x00 ∨ v = 0xFF := by simp [isFill]

theorem rawCount_eq (v : Byte) : rawCount v = if v = 0x00 ∨ v = 0xFF then 2 else 1 := by simp [rawCount, isFill_iff]

/-- The reads of one logical byte. -/
theorem reads_eq (v : Byte) (w : Word) :
    List.replicate (rawCount v) w = if v = 0x00 ∨ v = 0xFF then [w, w] else [w] := by
  rw [rawCount_eq]
  split <;> rfl

theorem rawCount_fill {v : Byte} (h : isFill v = true) : rawCount v = 2 := by simp [rawCount, h]
theorem rawCount_plain {v : Byte} (h : isFill v = false) : rawCount v = 1 := by simp [rawCount, h]

/-- Everything TXBYTE can do (R129): the byte's words go out, or a ready poll runs out after some of them. -/
theorem txByte_cases (v : Byte) (s : State) :
    (s.tci.mode ≠ .tx ∧ txByte v s = .noStep) ∨
    (s.tci.mode = .tx ∧ ∃ u, Sent s u (txByteWords s.cfg v) ∧ txByte v s = .done () u) ∨
    (s.tci.mode = .tx ∧ ∃ u ws, ws <+: txByteWords s.cfg v ∧ Sent s u ws ∧ txByte v s = .abort u.hardwareNotReady) := by
  unfold txByte State.transmitting
  by_cases hm : s.tci.mode = .tx
  swap
  · simp [hm]
  obtain ⟨u, hu, -, ⟨hw, -⟩ | ⟨hw, -⟩⟩ := waitRdy_cases s
  · have hp := (hu.trans (put_sent (txWord u.cfg v) u))
    cases hf : isFill v
    · exact .inr (.inl ⟨hm, put (txWord u.cfg v) u, by simpa [txByteWords, txWords, hf, hu.cfg] using hp,
        by simp [hm, hw]⟩)
    · obtain ⟨u', hu', -, ⟨hw', -⟩ | ⟨hw', -⟩⟩ := waitRdy_cases (put (txWord u.cfg v) u)
      · have hq := hp.trans (hu'.trans (put_sent (txWord u'.cfg u'.cfg.esc) u'))
        refine .inr (.inl ⟨hm, put (txWord u'.cfg u'.cfg.esc) u', ?_, by simp [hm, hw, txEscape, hw']⟩)
        simpa [txByteWords, txWords, hf, hu'.cfg, hu.cfg, (put_sent _ _).cfg] using hq
      · have hq := hp.trans hu'
        refine .inr (.inr ⟨hm, u', [txWord s.cfg v], ?_, ?_, by simp [hm, hw, txEscape, hw']⟩)
        · simp [txByteWords, txWords, hf]
        · simpa [hu.cfg] using hq
  · exact .inr (.inr ⟨hm, u, [], List.nil_prefix, hu, by simp [hm, hw]⟩)

/-- TXBYTE when ENV is willing. -/
theorem txByte_done {n : Nat} {v : Byte} {s : State} (hm : s.tci.mode = .tx) (h : willing (rawCount v + n) s) :
    ∃ u, txByte v s = .done () u ∧ Sent s u (txByteWords s.cfg v) ∧ willing n u := by
  unfold txByte State.transmitting
  cases hf : isFill v
  · rw [rawCount_plain hf, Nat.add_comm] at h
    obtain ⟨u, hw, hu, -, -, hn⟩ := waitRdy_done h
    exact ⟨put (txWord u.cfg v) u, by simp [hm, hw], by simpa [txByteWords, txWords, hf, hu.cfg] using hu.trans (put_sent (txWord u.cfg v) u),
      willing_put _ hn⟩
  · rw [rawCount_fill hf, show 2 + n = n + 1 + 1 by omega] at h
    obtain ⟨u, hw, hu, -, -, hn⟩ := waitRdy_done h
    obtain ⟨u', hw', hu', -, -, hn'⟩ := waitRdy_done (willing_put (txWord u.cfg v) hn)
    refine ⟨put (txWord u'.cfg u'.cfg.esc) u', by simp [hm, hw, txEscape, hw'], ?_, willing_put _ hn'⟩
    simpa [txByteWords, txWords, hf, hu'.cfg, hu.cfg, (put_sent _ _).cfg] using
      (hu.trans (put_sent (txWord u.cfg v) u)).trans (hu'.trans (put_sent (txWord u'.cfg u'.cfg.esc) u'))

/-- The next byte depends on ENV's answers only. -/
theorem nextByte_congr {s t : State} (h : s.env = t.env) : nextByte s = nextByte t := by
  unfold nextByte State.exchange
  rw [h]
  cases t.env.answers <;> rfl

/-- Everything RXBYTE can do (R130): the byte is read, or a ready poll runs out before one of its reads. -/
theorem rxByte_cases (s : State) :
    (s.tci.mode ≠ .rx ∧ rxByte s = .noStep) ∨
    (s.tci.mode = .rx ∧ ∃ u, Sent s u (List.replicate (rawCount (nextByte s)) s.cfg.cwRxRead) ∧
      rxByte s = .done (nextByte s) u) ∨
    (s.tci.mode = .rx ∧ ∃ u k, k < rawCount (nextByte s) ∧ Sent s u (List.replicate k s.cfg.cwRxRead) ∧
      rxByte s = .abort u.hardwareNotReady) := by
  unfold rxByte State.receiving
  by_cases hm : s.tci.mode = .rx
  swap
  · simp [hm]
  obtain ⟨u, hu, hx, ⟨hw, -⟩ | ⟨hw, -⟩⟩ := waitRdy_cases s
  · have hb : rxByteOf (xfer u.cfg.cwRxRead u).1 = nextByte s := by rw [xfer_response, hx]; rfl
    have hp := hu.trans (put_sent u.cfg.cwRxRead u)
    cases hf : isFill (nextByte s)
    · refine .inr (.inl ⟨hm, (xfer u.cfg.cwRxRead u).2, ?_, by simp [hm, hw, hb, rxTail, hf]⟩)
      simpa [rawCount_plain hf, hu.cfg, put] using hp
    · obtain ⟨u', hu', -, ⟨hw', -⟩ | ⟨hw', -⟩⟩ := waitRdy_cases (xfer u.cfg.cwRxRead u).2
      · have hq := hp.trans (hu'.trans (put_sent u'.cfg.cwRxRead u'))
        refine .inr (.inl ⟨hm, put u'.cfg.cwRxRead u', ?_, by simp [hm, hw, hb, rxTail, hf, rxEscape, hw']⟩)
        simpa [rawCount_fill hf, hu'.cfg, hu.cfg, (xfer_talked _ _).cfg, List.replicate_succ] using hq
      · have hq := hp.trans hu'
        refine .inr (.inr ⟨hm, u', 1, ?_, ?_, by simp [hm, hw, hb, rxTail, hf, rxEscape, hw']⟩)
        · simp [rawCount_fill hf]
        · simpa [hu.cfg] using hq
  · exact .inr (.inr ⟨hm, u, 0, by unfold rawCount; split <;> omega, hu, by simp [hm, hw]⟩)

/-- RXBYTE when ENV is willing. -/
theorem rxByte_done {n : Nat} {s : State} (hm : s.tci.mode = .rx) (h : willing (rawCount (nextByte s) + n) s) :
    ∃ u, rxByte s = .done (nextByte s) u ∧
      Sent s u (List.replicate (rawCount (nextByte s)) s.cfg.cwRxRead) ∧ willing n u := by
  unfold rxByte State.receiving
  cases hf : isFill (nextByte s)
  · rw [rawCount_plain hf, Nat.add_comm] at h
    obtain ⟨u, hw, hu, hx, -, hn⟩ := waitRdy_done h
    have hb : rxByteOf (xfer u.cfg.cwRxRead u).1 = nextByte s := by rw [xfer_response, hx]; rfl
    refine ⟨(xfer u.cfg.cwRxRead u).2, by simp [hm, hw, hb, rxTail, hf], ?_, willing_xfer _ hn⟩
    simpa [rawCount_plain hf, hu.cfg, put] using hu.trans (put_sent u.cfg.cwRxRead u)
  · rw [rawCount_fill hf, show 2 + n = n + 1 + 1 by omega] at h
    obtain ⟨u, hw, hu, hx, -, hn⟩ := waitRdy_done h
    have hb : rxByteOf (xfer u.cfg.cwRxRead u).1 = nextByte s := by rw [xfer_response, hx]; rfl
    obtain ⟨u', hw', hu', -, -, hn'⟩ := waitRdy_done (willing_xfer u.cfg.cwRxRead hn)
    refine ⟨put u'.cfg.cwRxRead u', by simp [hm, hw, hb, rxTail, hf, rxEscape, hw'], ?_, willing_put _ hn'⟩
    simpa [rawCount_fill hf, hu'.cfg, hu.cfg, (xfer_talked _ _).cfg, List.replicate_succ] using
      (hu.trans (put_sent u.cfg.cwRxRead u)).trans (hu'.trans (put_sent u'.cfg.cwRxRead u'))

end Sys2Proof.Machine
end

