-- ==== Sys2Proof/Laws/FrameCodec.lean ====
section
/-! SUPPORT. The frame codec: stuffing, lengths, and what sending a list of logical bytes can do. -/

namespace Sys2Proof.Machine

/-! ### Stuffing -/

@[simp] theorem stuff_nil (e : Byte) : stuff e [] = [] := rfl

theorem stuff_cons (e b : Byte) (l : List Byte) : stuff e (b :: l) = (if isFill b then [b, e] else [b]) ++ stuff e l := by
  simp only [stuff]
  split <;> simp

@[simp] theorem stuff_append (e : Byte) (l m : List Byte) : stuff e (l ++ m) = stuff e l ++ stuff e m := by
  induction l with
  | nil => rfl
  | cons b l ih => simp [stuff_cons, ih]

theorem stuff_singleton (e b : Byte) : stuff e [b] = if isFill b then [b, e] else [b] := by
  simp [stuff_cons]

theorem length_stuff_singleton (e b : Byte) : (stuff e [b]).length = rawCount b := by
  rw [stuff_singleton, rawCount]
  split <;> rfl

theorem txByteWords_eq (c : Cfg) (v : Byte) : txByteWords c v = txWords c (stuff c.esc [v]) := by
  rw [stuff_singleton, txByteWords]

@[simp] theorem txWords_append (c : Cfg) (l m : List Byte) : txWords c (l ++ m) = txWords c l ++ txWords c m := by
  simp [txWords]

/-! ### Frames -/

/-- The header and payload of a payload that fits (R156). -/
theorem body_of_fits (t d src q : Byte) {p : List Byte} (h : p.length ≤ 128) :
    body t d src q p = [t, BitVec.ofNat 8 p.length, d, src, q] ++ p := by
  simp [body, clampPayload, List.take_of_length_le h]

theorem crc8From_append (c : Cfg) (x : Byte) (l m : List Byte) :
    crc8From c x (l ++ m) = crc8From c (crc8From c x l) m := by
  simp [crc8From]

/-! ### Sending logical bytes -/

/-- Everything TXBYTE of a list can do: the stuffed bytes go out, or a ready poll runs out after some of their words. -/
theorem txBytes_cases (l : List Byte) : ∀ s : State, s.tci.mode = .tx →
    (∃ u, Sent s u (txWords s.cfg (stuff s.cfg.esc l)) ∧ txBytes l s = .done () u) ∨
    (∃ u ws, ws <+: txWords s.cfg (stuff s.cfg.esc l) ∧ Sent s u ws ∧ txBytes l s = .abort u.hardwareNotReady) := by
  induction l with
  | nil => intro s _; exact .inl ⟨s, Sent.refl s, rfl⟩
  | cons x l ih =>
    intro s hm
    have hw : txWords s.cfg (stuff s.cfg.esc (x :: l)) =
        txByteWords s.cfg x ++ txWords s.cfg (stuff s.cfg.esc l) := by
      rw [txByteWords_eq, ← txWords_append, ← stuff_append]
      rfl
    rcases txByte_cases x s with ⟨h, _⟩ | ⟨_, u, hu, he⟩ | ⟨_, u, ws, hp, hu, he⟩
    · exact absurd hm h
    · rcases ih u (hu.mode.trans hm) with ⟨v, hv, hd⟩ | ⟨v, ws, hp, hv, hd⟩
      · rw [hu.cfg] at hv
        exact .inl ⟨v, hw ▸ hu.trans hv, by simp [txBytes, he, hd]⟩
      · rw [hu.cfg] at hp
        refine .inr ⟨v, _, ?_, hu.trans hv, by simp [txBytes, he, hd]⟩
        rw [hw]
        exact (List.prefix_append_right_inj _).2 hp
    · refine .inr ⟨u, ws, ?_, hu, by simp [txBytes, he]⟩
      rw [hw]
      exact hp.trans (List.prefix_append _ _)

/-- TXBYTE of a list when ENV is willing. -/
theorem txBytes_done {n : Nat} (l : List Byte) : ∀ s : State, s.tci.mode = .tx →
    willing ((stuff s.cfg.esc l).length + n) s →
    ∃ u, txBytes l s = .done () u ∧ Sent s u (txWords s.cfg (stuff s.cfg.esc l)) ∧ willing n u := by
  induction l with
  | nil => intro s _ h; exact ⟨s, rfl, Sent.refl s, by simpa using h⟩
  | cons x l ih =>
    intro s hm h
    have hw : stuff s.cfg.esc (x :: l) = stuff s.cfg.esc [x] ++ stuff s.cfg.esc l := by
      rw [← stuff_append]
      rfl
    rw [hw, List.length_append, length_stuff_singleton, Nat.add_assoc] at h
    obtain ⟨u, he, hu, hn⟩ := txByte_done hm h
    obtain ⟨v, hd, hv, hn'⟩ := ih u (hu.mode.trans hm) (by rw [hu.cfg]; exact hn)
    refine ⟨v, by simp [txBytes, he, hd], ?_, hn'⟩
    rw [hw, txWords_append, ← txByteWords_eq]
    exact hu.trans (by rw [hu.cfg] at hv; exact hv)

/-- Sending a list with its running checksum is sending it; the checksum is that of the list (R151, R155). -/
theorem txSummed_eq (l : List Byte) : ∀ (c : Byte) (s : State),
    txSummed c l s = (txBytes l s).bind fun _ u => .done (crc8From s.cfg c l) u := by
  induction l with
  | nil => intro c s; rfl
  | cons x l ih =>
    intro c s
    rcases txByte_cases x s with ⟨_, he⟩ | ⟨_, u, hu, he⟩ | ⟨_, u, ws, _, hu, he⟩
    · simp [txSummed, txBytes, he]
    · simp [txSummed, txBytes, he, ih, hu.cfg, crc8From]
    · simp [txSummed, txBytes, he]

theorem txBytes_append (l m : List Byte) : ∀ s : State,
    txBytes (l ++ m) s = (txBytes l s).bind fun _ u => txBytes m u := by
  induction l with
  | nil => intro s; rfl
  | cons x l ih =>
    intro s
    rcases txByte_cases x s with ⟨_, he⟩ | ⟨_, u, hu, he⟩ | ⟨_, u, ws, _, hu, he⟩ <;> simp [txBytes, he, ih]

/-- FRAME.ENC is TXBYTE of each byte of `wire` (R155, R156). -/
theorem frameEnc_eq (t d src q : Byte) (p : List Byte) (s : State) (hm : s.tci.mode = .tx) :
    frameEnc t d src q p s = txBytes (wire s.cfg t d src q p) s := by
  rw [wire, List.append_assoc, txBytes_append]
  unfold frameEnc State.transmitting
  rcases txBytes_cases s.cfg.preamble s hm with ⟨u, hu, he⟩ | ⟨u, ws, _, hu, he⟩
  · rw [if_pos (by simp [hm]), he, Res.bind_done, Res.bind_done, txSummed_eq, txBytes_append]
    rcases txBytes_cases (body t d src q p) u (hu.mode.trans hm) with ⟨v, hv, hd⟩ | ⟨v, ws, _, hv, hd⟩
    · rw [hd]
      simp only [Res.bind_done, txBytes, hu.cfg, crc8]
      rcases txByte_cases (crc8From s.cfg s.cfg.crcInit (body t d src q p)) v with ⟨_, hx⟩ | ⟨_, w, _, hx⟩ | ⟨_, w, _, _, _, hx⟩ <;>
        rw [hx] <;> rfl
    · rw [hd]
      rfl
  · rw [if_pos (by simp [hm]), he]
    rfl

theorem frameEnc_noStep (t d src q : Byte) (p : List Byte) (s : State) (hm : s.tci.mode ≠ .tx) :
    frameEnc t d src q p s = .noStep := by
  simp [frameEnc, State.transmitting, hm]

/-- Everything FRAME.ENC can do in transmit mode (R155). -/
theorem frameEnc_cases (t d src q : Byte) (p : List Byte) (s : State) (hm : s.tci.mode = .tx) :
    (∃ u, Sent s u (frameWords s.cfg t d src q p) ∧ frameEnc t d src q p s = .done () u) ∨
    (∃ u ws, ws <+: frameWords s.cfg t d src q p ∧ Sent s u ws ∧ frameEnc t d src q p s = .abort u.hardwareNotReady) := by
  rw [frameEnc_eq _ _ _ _ _ _ hm]
  exact txBytes_cases _ s hm

/-- FRAME.ENC when ENV is willing. -/
theorem frameEnc_done {n : Nat} (t d src q : Byte) (p : List Byte) (s : State) (hm : s.tci.mode = .tx)
    (h : willing ((stuff s.cfg.esc (wire s.cfg t d src q p)).length + n) s) :
    ∃ u, frameEnc t d src q p s = .done () u ∧ Sent s u (frameWords s.cfg t d src q p) ∧ willing n u := by
  rw [frameEnc_eq _ _ _ _ _ _ hm]
  exact txBytes_done _ s hm h

/-! ### Receiving logical bytes -/

/-- The first raw byte ENV feeds is the next byte (R63). -/
theorem feeds_cons {s : State} {b : Byte} {raw : List Byte} (h : feeds s (b :: raw)) :
    nextByte s = b ∧ (s.env.answers.drop 1).length ≥ raw.length ∧
      ((s.env.answers.drop 1).take raw.length).map rxByteOf = raw := by
  obtain ⟨hl, hm⟩ := h
  cases ha : s.env.answers with
  | nil => simp [ha] at hl
  | cons r l =>
    rw [ha] at hl hm
    simp at hl hm
    exact ⟨by simp [nextByte, State.exchange, ha, hm.1], by simpa using hl, by simpa using hm.2⟩

/-- RXBYTE when ENV is willing and feeds the stuffed byte `b` (R130, R154): it answers `b`, and the rest is fed next. -/
theorem rxByte_feeds {n : Nat} {s : State} {e b : Byte} {raw : List Byte} (hm : s.tci.mode = .rx)
    (h : willing (rawCount b + n) s) (hf : feeds s (stuff e [b] ++ raw)) :
    ∃ u, rxByte s = .done b u ∧ Sent s u (List.replicate (rawCount b) s.cfg.cwRxRead) ∧ willing n u ∧
      u.env.answers = s.env.answers.drop (stuff e [b]).length ∧ feeds u raw := by
  have hb : nextByte s = b := by
    rw [stuff_singleton] at hf
    split at hf <;> exact (feeds_cons hf).1
  subst hb
  obtain ⟨u, he, hu, hn⟩ := rxByte_done hm h
  have ha : u.env.answers = s.env.answers.drop (stuff e [nextByte s]).length := by
    unfold rxByte State.receiving at he
    cases hfl : isFill (nextByte s)
    · rw [rawCount_plain hfl, Nat.add_comm] at h
      obtain ⟨v, hw, hv, hx, ha, hn⟩ := waitRdy_done h
      have hb : rxByteOf (xfer v.cfg.cwRxRead v).1 = nextByte s := by rw [xfer_response, hx]; rfl
      simp [hm, hw, hb, rxTail, hfl] at he
      rw [← he, xfer_answers, ha, stuff_singleton, hfl]; rfl
    · rw [rawCount_fill hfl, show 2 + n = n + 1 + 1 by omega] at h
      obtain ⟨v, hw, hv, hx, ha, hn⟩ := waitRdy_done h
      have hb : rxByteOf (xfer v.cfg.cwRxRead v).1 = nextByte s := by rw [xfer_response, hx]; rfl
      obtain ⟨v', hw', hv', -, ha', hn'⟩ := waitRdy_done (willing_xfer v.cfg.cwRxRead hn)
      simp [hm, hw, hb, rxTail, hfl, rxEscape, hw'] at he
      rw [← he, put, xfer_answers, ha', xfer_answers, ha, stuff_singleton, hfl]; simp
  refine ⟨u, he, hu, hn, ha, ?_⟩
  obtain ⟨hl, hr⟩ := hf
  refine ⟨?_, ?_⟩
  · rw [ha]; simp at hl ⊢; omega
  · rw [ha]
    have := congrArg (List.drop (stuff e [nextByte s]).length) hr
    rw [← List.map_drop, List.drop_take] at this
    simpa using this

end Sys2Proof.Machine
end

