-- ==== Sys2Proof/Laws/Memory.lean ====
section
/-! SUPPORT. Buffers: reading after writing, the canonical form, and what each buffer operation can do. -/

namespace Sys2Proof.Machine

/-! ### One memory -/

@[simp] theorem Memory.read_nil (a : Nat) : Memory.read [] a = none := rfl

/-- Reading after a write: the written index gives the written byte, every other index what it gave before. -/
theorem Memory.read_write (m : Memory) (a : Nat) (b : Byte) (a' : Nat) :
    (m.write a b).read a' = if a' = a then some b else m.read a' := by
  induction m with
  | nil => simp [Memory.write, Memory.read]
  | cons p t ih =>
    obtain ⟨x, c⟩ := p
    simp only [Memory.write]
    split
    · simp only [Memory.read]
    · split
      · subst_vars
        simp only [Memory.read]
        split <;> simp_all
      · simp only [Memory.read, ih]
        grind

@[simp] theorem Memory.read_write_same (m : Memory) (a : Nat) (b : Byte) : (m.write a b).read a = some b := by
  simp [Memory.read_write]

theorem Memory.read_write_other (m : Memory) {a a' : Nat} (b : Byte) (h : a' ≠ a) :
    (m.write a b).read a' = m.read a' := by
  simp [Memory.read_write, h]

/-- The indices a written memory lists: the old ones and the written one. -/
theorem Memory.mem_write_index (m : Memory) (a : Nat) (b : Byte) (p : Host.Cell) (h : p ∈ m.write a b) :
    p.1 = a ∨ p ∈ m := by
  induction m with
  | nil =>
    simp only [Memory.write, List.mem_singleton] at h
    exact .inl (by rw [h])
  | cons q t ih =>
    obtain ⟨x, c⟩ := q
    simp only [Memory.write] at h
    split at h
    · rcases List.mem_cons.1 h with rfl | h
      · exact .inl rfl
      · exact .inr h
    · split at h
      · rcases List.mem_cons.1 h with rfl | h
        · exact .inl rfl
        · exact .inr (List.mem_cons_of_mem _ h)
      · rcases List.mem_cons.1 h with rfl | h
        · exact .inr List.mem_cons_self
        · rcases ih h with h | h
          · exact .inl h
          · exact .inr (List.mem_cons_of_mem _ h)

/-- A write keeps the canonical form. -/
theorem Memory.write_wf (m : Memory) (a : Nat) (b : Byte) (h : Memory.wf m) : Memory.wf (m.write a b) := by
  induction m with
  | nil => simp [Memory.write, Memory.wf]
  | cons p t ih =>
    obtain ⟨x, c⟩ := p
    obtain ⟨hx, ht⟩ := List.pairwise_cons.1 h
    simp only [Memory.write]
    split
    · refine List.pairwise_cons.2 ⟨fun q hq => ?_, h⟩
      rcases List.mem_cons.1 hq with rfl | hq
      · assumption
      · have := hx q hq
        simp only at this ⊢
        omega
    · split
      · subst_vars
        exact List.pairwise_cons.2 ⟨hx, ht⟩
      · refine List.pairwise_cons.2 ⟨fun q hq => ?_, ih ht⟩
        rcases Memory.mem_write_index t a b q hq with h' | h'
        · simp only [h']
          omega
        · exact hx q h'

/-! ### The buffer operations of a state -/

/-- Everything `memRead` can answer. -/
theorem memRead_cases (sp : Space) (i : Nat) (s : State) :
    (∃ b, i < s.sizeOf sp ∧ (s.mem sp).read i = some b ∧ memRead sp i s = .done b s) ∨
    (i < s.sizeOf sp ∧ (s.mem sp).read i = none ∧ memRead sp i s = .fault (.unwritten sp i)) ∨
    (¬ i < s.sizeOf sp ∧ memRead sp i s = .fault (.badIndex sp i)) := by
  unfold memRead
  split
  · cases h : (s.mem sp).read i <;> simp_all
  · simp_all

theorem memRead_done {sp : Space} {i : Nat} {s : State} {b : Byte} (hi : i < s.sizeOf sp)
    (h : (s.mem sp).read i = some b) : memRead sp i s = .done b s := by
  simp [memRead, hi, h]

/-- Everything `memWrite` can answer. -/
theorem memWrite_cases (sp : Space) (i : Nat) (b : Byte) (s : State) :
    (i < s.sizeOf sp ∧ memWrite sp i b s = .done () (s.setMem sp ((s.mem sp).write i b))) ∨
    (¬ i < s.sizeOf sp ∧ memWrite sp i b s = .fault (.badIndex sp i)) := by
  unfold memWrite
  split <;> simp_all

theorem memWrite_done {sp : Space} {i : Nat} {s : State} (b : Byte) (hi : i < s.sizeOf sp) :
    memWrite sp i b s = .done () (s.setMem sp ((s.mem sp).write i b)) := by
  simp [memWrite, hi]

/-- Reading a range that is written answers its bytes and changes nothing. -/
theorem memReadFrom_done (sp : Space) (s : State) (p : List Byte) :
    ∀ i, i + p.length ≤ s.sizeOf sp → (∀ k, k < p.length → (s.mem sp).read (i + k) = p[k]?) →
      memReadFrom sp i p.length s = .done p s := by
  induction p with
  | nil => intro i _ _; rfl
  | cons b p ih =>
    intro i hi hp
    have h0 : (s.mem sp).read i = some b := by simpa using hp 0 (by simp)
    have hs : i < s.sizeOf sp := by simp only [List.length_cons] at hi; omega
    have hr := ih (i + 1) (by simp only [List.length_cons] at hi; omega) (fun k hk => by
      have := hp (k + 1) (by simpa using hk)
      rw [show i + 1 + k = i + (k + 1) by omega, this]
      simp)
    simp only [List.length_cons, memReadFrom, memRead_done hs h0, Res.bind, hr]

/-- Everything a range read can answer: the bytes it read and the state as it was, or a fault. -/
theorem memReadFrom_cases (sp : Space) (s : State) : ∀ n i,
    (∃ p : List Byte, p.length = n ∧ i + n ≤ max i (s.sizeOf sp) ∧
      (∀ k, k < n → (s.mem sp).read (i + k) = p[k]?) ∧ memReadFrom sp i n s = .done p s) ∨
    (∃ f, memReadFrom sp i n s = .fault f) := by
  intro n
  induction n with
  | zero => intro i; exact .inl ⟨[], rfl, by omega, by intro k hk; omega, rfl⟩
  | succ n ih =>
    intro i
    rcases memRead_cases sp i s with ⟨b, hi, hb, he⟩ | ⟨_, _, he⟩ | ⟨_, he⟩
    · rcases ih (i + 1) with ⟨p, hl, hm, hp, hr⟩ | ⟨f, hr⟩
      · refine .inl ⟨b :: p, by simp [hl], by omega, fun k hk => ?_, by simp [memReadFrom, he, Res.bind, hr]⟩
        cases k with
        | zero => simpa using hb
        | succ k =>
          have := hp k (by omega)
          rw [show i + (k + 1) = i + 1 + k by omega, this]
          simp
      · exact .inr ⟨f, by simp [memReadFrom, he, Res.bind, hr]⟩
    · exact .inr ⟨.unwritten sp i, by simp [memReadFrom, he, Res.bind]⟩
    · exact .inr ⟨.badIndex sp i, by simp [memReadFrom, he, Res.bind]⟩

/-- A buffer write keeps the canonical form of every buffer. -/
theorem memWrite_memWf {sp : Space} {i : Nat} {b : Byte} {s t : State} (h : memWrite sp i b s = .done () t)
    (hw : s.memWf) : t.memWf := by
  obtain ⟨h1, h2, h3, h4⟩ := hw
  rcases memWrite_cases sp i b s with ⟨_, he⟩ | ⟨_, he⟩
  · rw [he] at h
    rw [← (Res.done.inj h).2]
    cases sp
    · exact ⟨Memory.write_wf _ _ _ h1, h2, h3, h4⟩
    · exact ⟨h1, h2, Memory.write_wf _ _ _ h3, h4⟩
    · exact ⟨h1, h2, h3, Memory.write_wf _ _ _ h4⟩
  · rw [he] at h
    cases h

end Sys2Proof.Machine
end

