-- ==== Sys2Proof/Laws/Delivery.lean ====
section
/-! SUPPORT. The delivery engine: what sending a frame, SEND, ACKTX, ENQB, ACKRX and TICK can do. -/

namespace Sys2Proof.Machine

/-! ### One frame sent: SETTX, FRAME.ENC, SETRX -/

/-- Words sent with another mode and mask are words sent. -/
theorem sent_setMode {u v : State} {ws : List Word} {m : Mode} {b : Bool} (h : Sent (u.setMode m b) v ws) :
    ∃ v', Sent u v' ws ∧ v = v'.setMode m b := by
  obtain ⟨xs, rfl, h⟩ := h
  refine ⟨{ v with tci := { v.tci with mode := u.tci.mode, rxIrqEn := u.tci.rxIrqEn } }, ⟨xs, rfl, ?_⟩, ?_⟩
  · exact { cfg := h.cfg, tci := by simp [h.tci], ra := h.ra, rb := h.rb, de := h.de, log := h.log, turns := h.turns,
            mainOps := h.mainOps, answer := h.answer }
  · have : v.tci = { v.tci with mode := m, rxIrqEn := b } := by simp [h.tci]
    cases v
    simp only [State.setMode] at this ⊢
    rw [← this]

/-- The state after a whole transmission whose words took `s` to `v`: receiving, `st = IDLE`. -/
def backToRx (v : State) : State := (v.setSt .idle).setMode .rx true

/-- The state after a transmission that a ready poll ended, whose words took `s` to `u` (R221, P6). -/
def stuckInTx (u : State) : State := (u.setMode .tx false).hardwareNotReady

/-- SETTX, then a payload that may read the state, then FRAME.ENC and SETRX: everything it can do. -/
theorem transmit_cases (t d src q : Byte) (p : List Byte) (s : State) (hm : s.tci.mode ≠ .off) :
    ∃ u, setTx s = .done () u ∧ u.cfg = s.cfg ∧ u.de = s.de ∧
      ((∃ v w, Sent s w (sendWords s.cfg t d src q p) ∧ frameEnc t d src q p u = .done () v ∧
          setRx v = .done () (backToRx w)) ∨
        (∃ w ws, ws <+: sendWords s.cfg t d src q p ∧ Sent s w ws ∧ frameEnc t d src q p u = .abort (stuckInTx w))) := by
  rcases setTx_cases s with ⟨_, hs⟩ | ⟨h, _⟩
  swap
  · exact absurd h hm
  obtain ⟨a, ha, he⟩ := setTxBody_spec s
  refine ⟨_, hs, by rw [he]; exact ha.cfg, by rw [he]; exact ha.de, ?_⟩
  rw [he]
  rcases frameEnc_cases t d src q p (a.setMode .tx false) rfl with ⟨v, hv, hd⟩ | ⟨v, ws, hp, hv, hd⟩
  · obtain ⟨v', hv', rfl⟩ := sent_setMode hv
    obtain ⟨w, hw, hr⟩ := setRxBody_spec (v'.setMode .tx false)
    obtain ⟨w', hw', rfl⟩ := sent_setMode hw
    refine .inl ⟨_, w', ?_, hd, ?_⟩
    · have := (ha.trans hv').trans hw'
      simpa [sendWords, ha.cfg, hv'.cfg] using this
    · rcases setRx_cases (v'.setMode .tx false) with ⟨_, hx⟩ | ⟨hx, _⟩
      · rw [hx, hr]
        rfl
      · simp at hx
  · obtain ⟨v', hv', rfl⟩ := sent_setMode hv
    refine .inr ⟨v', _, ?_, ha.trans hv', hd⟩
    simp only [State.setMode_cfg, ha.cfg] at hp
    rw [sendWords, List.append_assoc]
    exact (List.prefix_append_right_inj _).2 (hp.trans (List.prefix_append _ _))

/-- A whole transmission when ENV is willing. -/
theorem transmit_done {n : Nat} (t d src q : Byte) (p : List Byte) (s : State) (hm : s.tci.mode ≠ .off)
    (h : willing (framePolls s.cfg t d src q p + n) s) :
    ∃ u v w, setTx s = .done () u ∧ u.cfg = s.cfg ∧ u.de = s.de ∧ Sent s w (sendWords s.cfg t d src q p) ∧
      frameEnc t d src q p u = .done () v ∧ setRx v = .done () (backToRx w) ∧ willing n (backToRx w) := by
  obtain ⟨u, hu, hc, hd, ⟨v, w, hw, hf, hr⟩ | ⟨w, ws, hp, hw, hf⟩⟩ := transmit_cases t d src q p s hm
  all_goals
    have hub : u = setTxBody s := by
      rcases setTx_cases s with ⟨_, hs⟩ | ⟨h, _⟩
      · rw [hs] at hu
        cases hu
        rfl
      · exact absurd h hm
    have hmu : u.tci.mode = .tx := by rw [hub]; rfl
    have hwu : willing (framePolls u.cfg t d src q p + n) u := by
      rw [hc, hub]
      exact willing_setTxBody h
    obtain ⟨v', hf', hv', hn⟩ := frameEnc_done t d src q p u hmu hwu
    rw [hf] at hf'
    cases hf'
  refine ⟨u, v, w, hu, hc, hd, hw, hf, hr, ?_⟩
  rcases setRx_cases v with ⟨_, hx⟩ | ⟨_, hx⟩
  · rw [hx] at hr
    rw [← (Res.done.inj hr).2]
    exact willing_setRxBody hn
  · rw [hx] at hr
    cases hr

/-! ### ACKTX -/

/-- Everything ACKTX can do (R224). -/
theorem ackTx_cases (s : State) :
    ((s.tci.initDone = false ∨ s.tci.mode = .off) ∧ ackTx s = .noStep) ∨
    (s.tci.initDone = true ∧ s.tci.mode ≠ .off ∧
      ((∃ w, Sent s w (sendWords s.cfg s.cfg.typeAck s.de.ackDst s.cfg.myAddr s.de.ackSeq []) ∧
          ackTx s = .done () (backToRx w).ackSent) ∨
        (∃ w ws, ws <+: sendWords s.cfg s.cfg.typeAck s.de.ackDst s.cfg.myAddr s.de.ackSeq [] ∧ Sent s w ws ∧
          ackTx s = .abort (stuckInTx w)))) := by
  unfold ackTx
  cases hi : s.tci.initDone
  · exact .inl ⟨.inl rfl, by simp⟩
  by_cases hm : s.tci.mode = .off
  · rcases setTx_cases s with ⟨h, _⟩ | ⟨_, hs⟩
    · exact absurd hm h
    · exact .inl ⟨.inr hm, by simp [hs]⟩
  · obtain ⟨u, hu, hc, hd, h⟩ := transmit_cases s.cfg.typeAck s.de.ackDst s.cfg.myAddr s.de.ackSeq [] s hm
    refine .inr ⟨rfl, hm, ?_⟩
    rcases h with ⟨v, w, hw, hf, hr⟩ | ⟨w, ws, hp, hw, hf⟩
    · exact .inl ⟨w, hw, by simp [hu, hc, hd, hf, hr]⟩
    · exact .inr ⟨w, ws, hp, hw, by simp [hu, hc, hd, hf]⟩

/-- ACKTX when ENV is willing. -/
theorem ackTx_done {n : Nat} {s : State} (hi : s.tci.initDone = true) (hm : s.tci.mode ≠ .off)
    (h : willing (framePolls s.cfg s.cfg.typeAck s.de.ackDst s.cfg.myAddr s.de.ackSeq [] + n) s) :
    ∃ w, Sent s w (sendWords s.cfg s.cfg.typeAck s.de.ackDst s.cfg.myAddr s.de.ackSeq []) ∧
      ackTx s = .done () (backToRx w).ackSent ∧ willing n (backToRx w).ackSent := by
  obtain ⟨u, v, w, hu, hc, hd, hw, hf, hr, hn⟩ := transmit_done _ _ _ _ _ s hm h
  exact ⟨w, hw, by simp [ackTx, hi, hu, hc, hd, hf, hr], willing_update (s := backToRx w) rfl rfl hn⟩

/-! ### SEND -/

theorem pendingPayload_done {s : State} {p : List Byte} (h : pendingIs s p) (hc : s.de.txCnt.toNat ≤ 128) :
    pendingPayload s = .done p s := by
  rw [pendingPayload, ← h.1]
  exact memReadFrom_done .txb s p 0 (by rw [h.1]; simpa [State.sizeOf] using hc)
    (fun k hk => by rw [Nat.zero_add]; exact h.2 k hk)

theorem pendingPayload_cases (s : State) :
    (∃ p, pendingIs s p ∧ s.de.txCnt.toNat ≤ 128 ∧ pendingPayload s = .done p s) ∨
    ∃ f, pendingPayload s = .fault f := by
  rcases memReadFrom_cases .txb s s.de.txCnt.toNat 0 with ⟨p, hl, hm, hp, hr⟩ | ⟨f, hf⟩
  · exact .inl ⟨p, ⟨hl, fun i hi => by
      have := hp i (hl ▸ hi)
      rwa [Nat.zero_add] at this⟩, by simpa [State.sizeOf] using hm, hr⟩
  · exact .inr ⟨f, hf⟩

/-- Two payloads of one state are equal. -/
theorem pendingIs_unique {s : State} {p p' : List Byte} (h : pendingIs s p) (h' : pendingIs s p') : p = p' := by
  refine List.ext_getElem? fun i => ?_
  by_cases hi : i < p.length
  · rw [← h.2 i hi, ← h'.2 i (by rw [h'.1, ← h.1]; exact hi)]
  · rw [List.getElem?_eq_none (by omega), List.getElem?_eq_none (by rw [h'.1, ← h.1]; omega)]

/-- Everything SEND can do (R221). -/
theorem send_cases (first : Bool) (s : State) :
    ((s.canSend = false ∨ s.tci.mode = .off) ∧ send first s = .noStep) ∨
    (∃ f, send first s = .fault f ∧ ∀ p, ¬ (pendingIs s p ∧ s.de.txCnt.toNat ≤ 128)) ∨
    (s.canSend = true ∧ s.tci.mode ≠ .off ∧ ∃ p, pendingIs s p ∧ s.de.txCnt.toNat ≤ 128 ∧
      ((∃ w, Sent s w (sendWords s.cfg s.cfg.typeData s.de.txDst s.cfg.myAddr s.de.txSeq p) ∧
          send first s = .done () ((backToRx w).outstanding first)) ∨
        (∃ w ws, ws <+: sendWords s.cfg s.cfg.typeData s.de.txDst s.cfg.myAddr s.de.txSeq p ∧ Sent s w ws ∧
          send first s = .abort (stuckInTx w)))) := by
  unfold send
  cases hi : s.canSend
  · exact .inl ⟨.inl rfl, by simp⟩
  by_cases hm : s.tci.mode = .off
  · rcases setTx_cases s with ⟨h, _⟩ | ⟨_, hs⟩
    · exact absurd hm h
    · exact .inl ⟨.inr hm, by simp [hs]⟩
  · rcases setTx_cases s with ⟨_, hs⟩ | ⟨h, _⟩
    swap
    · exact absurd h hm
    obtain ⟨a, ha, he⟩ := setTxBody_spec s
    have hde : (setTxBody s).de = s.de := by rw [he]; exact ha.de
    rcases pendingPayload_cases (setTxBody s) with ⟨p, hp, hn, hr⟩ | ⟨f, hf⟩
    · obtain ⟨u, hu, hc, hd, h⟩ := transmit_cases s.cfg.typeData s.de.txDst s.cfg.myAddr s.de.txSeq p s hm
      rw [hs] at hu
      cases hu
      have hps : pendingIs s p := by simpa only [pendingIs, hde] using hp
      refine .inr (.inr ⟨rfl, hm, p, hps, hde ▸ hn, ?_⟩)
      rcases h with ⟨v, w, hw, hf, hx⟩ | ⟨w, ws, hq, hw, hf⟩
      · exact .inl ⟨w, hw, by simp [hs, hr, hc, hd, hf, hx]⟩
      · exact .inr ⟨w, ws, hq, hw, by simp [hs, hr, hc, hd, hf]⟩
    · refine .inr (.inl ⟨f, by simp [hs, hf], fun p ⟨hp, hn⟩ => ?_⟩)
      rw [pendingPayload_done (s := setTxBody s) (p := p) (by simpa only [pendingIs, hde] using hp) (hde ▸ hn)] at hf
      cases hf

/-- SEND when ENV is willing. -/
theorem send_done {n : Nat} {s : State} {p : List Byte} (first : Bool) (hi : s.canSend = true)
    (hm : s.tci.mode ≠ .off) (hp : pendingIs s p) (hc : s.de.txCnt.toNat ≤ 128)
    (h : willing (framePolls s.cfg s.cfg.typeData s.de.txDst s.cfg.myAddr s.de.txSeq p + n) s) :
    ∃ w, Sent s w (sendWords s.cfg s.cfg.typeData s.de.txDst s.cfg.myAddr s.de.txSeq p) ∧
      send first s = .done () ((backToRx w).outstanding first) ∧ willing n ((backToRx w).outstanding first) := by
  obtain ⟨u, v, w, hu, hcu, hd, hw, hf, hr, hn⟩ := transmit_done _ _ _ _ _ s hm h
  have hpp : pendingPayload u = .done p u :=
    pendingPayload_done (by simpa only [pendingIs, hd] using hp) (hd ▸ hc)
  exact ⟨w, hw, by simp [send, hi, hu, hpp, hcu, hd, hf, hr],
    willing_update (s := backToRx w) rfl rfl hn⟩

/-! ### ENQB -/

/-- The state of ENQB before it may send (R220). -/
def enqueuedState (b dst : Byte) (s : State) : State :=
  ((s.setTxDst dst).setMem .txb (s.de.txBuf.write s.de.txCnt.toNat b)).enqueued

/-- Everything ENQB can do (R220). -/
theorem enqB_cases (b dst : Byte) (s : State) :
    (s.canEnqueue = false ∧ enqB b dst s = .noStep) ∨
    (s.canEnqueue = true ∧ ¬ s.de.txCnt.toNat < 128 ∧ enqB b dst s = .fault (.badIndex .txb s.de.txCnt.toNat)) ∨
    (s.canEnqueue = true ∧ s.de.txCnt.toNat < 127 ∧ enqB b dst s = .done () (enqueuedState b dst s)) ∨
    (s.canEnqueue = true ∧ s.de.txCnt.toNat = 127 ∧ enqB b dst s = send true (enqueuedState b dst s)) := by
  unfold enqB
  cases hc : s.canEnqueue
  · simp
  rcases memWrite_cases .txb s.de.txCnt.toNat b (s.setTxDst dst) with ⟨hi, hw⟩ | ⟨hi, hw⟩
  · have hi' : s.de.txCnt.toNat < 128 := hi
    have hn : (s.de.txCnt + 1).toNat = s.de.txCnt.toNat + 1 := by
      rw [BitVec.toNat_add]
      show (_ + 1) % 256 = _
      omega
    by_cases h : s.de.txCnt.toNat = 127
    · refine .inr (.inr (.inr ⟨rfl, h, ?_⟩))
      simp only [if_true, hw, Res.bind_done]
      refine if_pos ?_
      show (s.de.txCnt + 1).toNat = 128
      omega
    · refine .inr (.inr (.inl ⟨rfl, by omega, ?_⟩))
      simp only [if_true, hw, Res.bind_done]
      refine if_neg ?_
      show ¬ (s.de.txCnt + 1).toNat = 128
      omega
  · exact .inr (.inl ⟨rfl, hi, by simp [hw]⟩)

/-! ### TICK -/

/-- Everything TICK does with its timeout (R222). -/
theorem tickTimeout_cases (s : State) :
    (s.de.timeout = 0 ∧ tickTimeout s = .done () s) ∨
    (1 < s.de.timeout.toNat ∧ tickTimeout s = .done () s.countDown) ∨
    (s.de.timeout = 1 ∧ s.de.awaitingAck = true ∧ s.de.retry ≠ 0 ∧
      tickTimeout s = send false s.countDown.spendRetry) ∨
    (s.de.timeout = 1 ∧ s.de.awaitingAck = true ∧ s.de.retry = 0 ∧ tickTimeout s = .done () s.countDown.abandoned) ∨
    (s.de.timeout = 1 ∧ s.de.awaitingAck = false ∧ s.de.txCnt ≠ 0 ∧ tickTimeout s = send true s.countDown) ∨
    (s.de.timeout = 1 ∧ s.de.awaitingAck = false ∧ s.de.txCnt = 0 ∧ tickTimeout s = .done () s.countDown) := by
  unfold tickTimeout timeoutExpired
  by_cases h0 : s.de.timeout = 0
  · simp [h0]
  by_cases h1 : s.de.timeout = 1
  · have hz : s.countDown.de.timeout = 0 := by simp [h1]
    rw [if_pos h0, if_pos hz]
    cases ha : s.de.awaitingAck
    · by_cases hc : s.de.txCnt = 0#8 <;> simp [h1, ha, hc]
    · by_cases hc : s.de.retry = 0#8 <;> simp [h1, ha, hc]
  · have hlt : 1 < s.de.timeout.toNat := by
      have h0' : s.de.timeout.toNat ≠ 0 := fun h => h0 (BitVec.eq_of_toNat_eq (by simpa using h))
      have h1' : s.de.timeout.toNat ≠ 1 := fun h => h1 (BitVec.eq_of_toNat_eq (by simpa using h))
      omega
    refine .inr (.inl ⟨hlt, ?_⟩)
    rw [if_pos h0, if_neg]
    simp only [State.countDown_de]
    intro h
    apply h1
    have := congrArg (· + 1#8) h
    simpa using this

theorem tick_plain {s : State} (h : s.de.ackPending = false) : tick s = tickTimeout s := by simp [tick, h]

theorem tick_confirm {s : State} (h : s.de.ackPending = true) :
    tick s = (ackTx s).bind fun _ s => tickTimeout s := by simp [tick, h]

end Sys2Proof.Machine
end

