-- ==== Sys2Proof/Laws/PerInstr.lean ====
section
/-! SUPPORT. One lemma per instruction: its encoding is a word of its own row of the opcode table, compared under the
row's mask (R90, R102). -/

namespace Sys2Proof.Laws.TableRow

/-- A row of spec/opcode_table.json: its format, the width of its word, the bits compared and their value. -/
structure Row where
  fmt   : Format
  width : Nat
  mask  : Word
  value : Word
  deriving DecidableEq, Repr

/-- The instruction's row. -/
def row : Instr → Row
  | .xfer _ => ⟨.op, 5, 0x001F, 0x0000⟩
  | .waitRdy => ⟨.op, 5, 0x001F, 0x0001⟩
  | .init => ⟨.op, 5, 0x001F, 0x0002⟩
  | .config _ _ _ _ => ⟨.op, 5, 0x001F, 0x0003⟩
  | .setRx => ⟨.op, 5, 0x001F, 0x0004⟩
  | .setTx => ⟨.op, 5, 0x001F, 0x0005⟩
  | .setIdle => ⟨.op, 5, 0x001F, 0x0006⟩
  | .resync => ⟨.op, 5, 0x001F, 0x0007⟩
  | .txByte _ => ⟨.op, 5, 0x001F, 0x0008⟩
  | .rxByte => ⟨.op, 5, 0x001F, 0x0009⟩
  | .crc8Upd _ _ => ⟨.op, 5, 0x001F, 0x000A⟩
  | .frameEnc _ _ _ _ _ => ⟨.op, 5, 0x001F, 0x000B⟩
  | .rxEvt => ⟨.op, 5, 0x001F, 0x000C⟩
  | .rbPut _ => ⟨.op, 5, 0x001F, 0x000D⟩
  | .rbGet => ⟨.op, 5, 0x001F, 0x000E⟩
  | .hasData => ⟨.op, 5, 0x001F, 0x000F⟩
  | .readByte => ⟨.op, 5, 0x001F, 0x0010⟩
  | .isBusy => ⟨.op, 5, 0x001F, 0x0011⟩
  | .enqB _ _ => ⟨.op, 5, 0x001F, 0x0012⟩
  | .send _ => ⟨.op, 5, 0x001F, 0x0013⟩
  | .tick => ⟨.op, 5, 0x001F, 0x0014⟩
  | .ackRx => ⟨.op, 5, 0x001F, 0x0015⟩
  | .ackTx => ⟨.op, 5, 0x001F, 0x0016⟩
  | .opRsvd10111 => ⟨.op, 5, 0x001F, 0x0017⟩
  | .opRsvd11xxx _ => ⟨.op, 5, 0x0018, 0x0018⟩
  | .stIdle _ => ⟨.st, 3, 0x0007, 0x0000⟩
  | .stLen _ => ⟨.st, 3, 0x0007, 0x0001⟩
  | .stDst _ => ⟨.st, 3, 0x0007, 0x0002⟩
  | .stSrc _ => ⟨.st, 3, 0x0007, 0x0003⟩
  | .stSeq _ => ⟨.st, 3, 0x0007, 0x0004⟩
  | .stPay _ => ⟨.st, 3, 0x0007, 0x0005⟩
  | .stChk _ => ⟨.st, 3, 0x0007, 0x0006⟩
  | .stNone => ⟨.st, 3, 0x0007, 0x0007⟩
  | .rawFill00 => ⟨.raw, 8, 0x00FF, 0x0000⟩
  | .rawFillFF => ⟨.raw, 8, 0x00FF, 0x00FF⟩
  | .rawPlain _ => ⟨.raw, 8, 0x0000, 0x0000⟩
  | .typeData => ⟨.type, 8, 0x00FF, 0x0001⟩
  | .typeAck => ⟨.type, 8, 0x00FF, 0x0002⟩
  | .typeRsvd _ => ⟨.type, 8, 0x0000, 0x0000⟩
  | .cwFifoStop => ⟨.cw, 16, 0xFFFF, 0xCA81⟩
  | .cwFifoArm => ⟨.cw, 16, 0xFFFF, 0xCA83⟩
  | .cwInit0 => ⟨.cw, 16, 0xFFFF, 0xC0E0⟩
  | .cwInit1 => ⟨.cw, 16, 0xFFFF, 0x80D7⟩
  | .cwInit2 => ⟨.cw, 16, 0xFFFF, 0xC2AB⟩
  | .cwInit3 => ⟨.cw, 16, 0xFFFF, 0xCA81⟩
  | .cwInit4 => ⟨.cw, 16, 0xFFFF, 0xE000⟩
  | .cwInit5 => ⟨.cw, 16, 0xFFFF, 0xC800⟩
  | .cwInit6 => ⟨.cw, 16, 0xFFFF, 0xC4F7⟩
  | .cwIdle => ⟨.cw, 16, 0xFFFF, 0x8208⟩
  | .cwRxOn => ⟨.cw, 16, 0xFFFF, 0x82C8⟩
  | .cwTxOn => ⟨.cw, 16, 0xFFFF, 0x8238⟩
  | .cwRxRead => ⟨.cw, 16, 0xFFFF, 0xB000⟩
  | .cwTxWrite _ => ⟨.cw, 16, 0xFF00, 0xB800⟩
  | .cwRate _ => ⟨.cw, 16, 0xFF00, 0xC600⟩
  | .cwFreq _ => ⟨.cw, 16, 0xF000, 0xA000⟩
  | .cwTxCfg _ => ⟨.cw, 16, 0xFE00, 0x9800⟩
  | .cwRxCfg _ => ⟨.cw, 16, 0xF800, 0x9000⟩
  | .cwStatus => ⟨.cw, 16, 0xFFFF, 0x0000⟩

/-- The table word of a request: the command word of a CW request, the code byte of any other. -/
def wordOf (r : Request) : Word :=
  match r.fmt, r.bytes with
  | .cw, lo :: hi :: _ => joinWord hi lo
  | _, b :: _ => b.setWidth 16
  | _, [] => 0

/-- The instruction's encoding is in its row's format, and its word fits the row's width and has the row's value where
the row's mask compares. -/
def Statement (i : Instr) : Prop :=
  (encode i).fmt = (row i).fmt ∧ wordOf (encode i) &&& (row i).mask = (row i).value ∧
    (wordOf (encode i)).toNat < 2 ^ (row i).width

theorem joinWord_bytes (w : Word) : joinWord (hiByte w) (loByte w) = w := by
  apply BitVec.eq_of_getLsbD_eq
  intro i hi
  simp only [joinWord, hiByte, loByte, BitVec.getLsbD_append, BitVec.getLsbD_extractLsb']
  by_cases h : i < 8
  · simp [h]
  · simp [h, show 8 + (i - 8) = i by omega, show i - 8 < 8 by omega]

/-- A row of another format: what is to show about its code. -/
theorem ofCode {i : Instr} (code : Byte) (hf : i.format = (row i).fmt) (hw : wordOf (encode i) = code.setWidth 16)
    (h : code.setWidth 16 &&& (row i).mask = (row i).value ∧ code.toNat < 2 ^ (row i).width) : Statement i :=
  ⟨hf, hw ▸ h.1, by rw [hw, BitVec.toNat_setWidth, Nat.mod_eq_of_lt (by omega)]; exact h.2⟩

/-- A CW row: what is to show about its word. -/
theorem ofWord {i : Instr} (hf : i.format = .cw) (hb : encodeBytes i = [loByte (encodeCw i), hiByte (encodeCw i)])
    (hr : (row i).fmt = .cw ∧ (row i).width = 16) (h : encodeCw i &&& (row i).mask = (row i).value) : Statement i := by
  have hw : wordOf (encode i) = encodeCw i := by simp only [wordOf, encode, hf, hb, joinWord_bytes]
  exact ⟨hf.trans hr.1.symm, hw ▸ h, by rw [hr.2]; exact (wordOf (encode i)).isLt⟩

theorem xfer (w : Word) : Statement (.xfer w) :=
  ofCode 0x00 rfl rfl (by simp [row])
theorem waitRdy : Statement .waitRdy := ofCode 0x01 rfl rfl (by decide)
theorem init : Statement .init := ofCode 0x02 rfl rfl (by decide)
theorem config (baud : Nat) (chan : BitVec 2) (power : Nat) (env : Profile) : Statement (.config baud chan power env) :=
  ofCode 0x03 rfl rfl (by simp [row])
theorem setRx : Statement .setRx := ofCode 0x04 rfl rfl (by decide)
theorem setTx : Statement .setTx := ofCode 0x05 rfl rfl (by decide)
theorem setIdle : Statement .setIdle := ofCode 0x06 rfl rfl (by decide)
theorem resync : Statement .resync := ofCode 0x07 rfl rfl (by decide)
theorem txByte (v : Byte) : Statement (.txByte v) :=
  ofCode 0x08 rfl rfl (by simp [row])
theorem rxByte : Statement .rxByte := ofCode 0x09 rfl rfl (by decide)
theorem crc8Upd (c : Byte) (b : Byte) : Statement (.crc8Upd c b) :=
  ofCode 0x0A rfl rfl (by simp [row])
theorem frameEnc (t : Byte) (d : Byte) (src : Byte) (q : Byte) (p : List Byte) : Statement (.frameEnc t d src q p) :=
  ofCode 0x0B rfl rfl (by simp [row])
theorem rxEvt : Statement .rxEvt := ofCode 0x0C rfl rfl (by decide)
theorem rbPut (b : Byte) : Statement (.rbPut b) :=
  ofCode 0x0D rfl rfl (by simp [row])
theorem rbGet : Statement .rbGet := ofCode 0x0E rfl rfl (by decide)
theorem hasData : Statement .hasData := ofCode 0x0F rfl rfl (by decide)
theorem readByte : Statement .readByte := ofCode 0x10 rfl rfl (by decide)
theorem isBusy : Statement .isBusy := ofCode 0x11 rfl rfl (by decide)
theorem enqB (b : Byte) (dst : Byte) : Statement (.enqB b dst) :=
  ofCode 0x12 rfl rfl (by simp [row])
theorem send (first : Bool) : Statement (.send first) :=
  ofCode 0x13 rfl rfl (by simp [row])
theorem tick : Statement .tick := ofCode 0x14 rfl rfl (by decide)
theorem ackRx : Statement .ackRx := ofCode 0x15 rfl rfl (by decide)
theorem ackTx : Statement .ackTx := ofCode 0x16 rfl rfl (by decide)
theorem opRsvd10111 : Statement .opRsvd10111 := ofCode 0x17 rfl rfl (by decide)
theorem opRsvd11xxx (x : BitVec 3) : Statement (.opRsvd11xxx x) :=
  ⟨rfl, by revert x; decide, by revert x; decide⟩
theorem stIdle (b : Byte) : Statement (.stIdle b) :=
  ofCode 0x00 rfl rfl (by simp [row])
theorem stLen (b : Byte) : Statement (.stLen b) :=
  ofCode 0x01 rfl rfl (by simp [row])
theorem stDst (b : Byte) : Statement (.stDst b) :=
  ofCode 0x02 rfl rfl (by simp [row])
theorem stSrc (b : Byte) : Statement (.stSrc b) :=
  ofCode 0x03 rfl rfl (by simp [row])
theorem stSeq (b : Byte) : Statement (.stSeq b) :=
  ofCode 0x04 rfl rfl (by simp [row])
theorem stPay (b : Byte) : Statement (.stPay b) :=
  ofCode 0x05 rfl rfl (by simp [row])
theorem stChk (b : Byte) : Statement (.stChk b) :=
  ofCode 0x06 rfl rfl (by simp [row])
theorem stNone : Statement .stNone := ofCode 0x07 rfl rfl (by decide)
theorem rawFill00 : Statement .rawFill00 := ofCode 0x00 rfl rfl (by decide)
theorem rawFillFF : Statement .rawFillFF := ofCode 0xFF rfl rfl (by decide)
theorem rawPlain (v : Byte) : Statement (.rawPlain v) :=
  ⟨rfl, by revert v; decide, by revert v; decide⟩
theorem typeData : Statement .typeData := ofCode 0x01 rfl rfl (by decide)
theorem typeAck : Statement .typeAck := ofCode 0x02 rfl rfl (by decide)
theorem typeRsvd (t : Byte) : Statement (.typeRsvd t) :=
  ⟨rfl, by revert t; decide, by revert t; decide⟩
theorem cwFifoStop : Statement .cwFifoStop := ofWord rfl rfl ⟨rfl, rfl⟩ (by decide)
theorem cwFifoArm : Statement .cwFifoArm := ofWord rfl rfl ⟨rfl, rfl⟩ (by decide)
theorem cwInit0 : Statement .cwInit0 := ofWord rfl rfl ⟨rfl, rfl⟩ (by decide)
theorem cwInit1 : Statement .cwInit1 := ofWord rfl rfl ⟨rfl, rfl⟩ (by decide)
theorem cwInit2 : Statement .cwInit2 := ofWord rfl rfl ⟨rfl, rfl⟩ (by decide)
theorem cwInit3 : Statement .cwInit3 := ofWord rfl rfl ⟨rfl, rfl⟩ (by decide)
theorem cwInit4 : Statement .cwInit4 := ofWord rfl rfl ⟨rfl, rfl⟩ (by decide)
theorem cwInit5 : Statement .cwInit5 := ofWord rfl rfl ⟨rfl, rfl⟩ (by decide)
theorem cwInit6 : Statement .cwInit6 := ofWord rfl rfl ⟨rfl, rfl⟩ (by decide)
theorem cwIdle : Statement .cwIdle := ofWord rfl rfl ⟨rfl, rfl⟩ (by decide)
theorem cwRxOn : Statement .cwRxOn := ofWord rfl rfl ⟨rfl, rfl⟩ (by decide)
theorem cwTxOn : Statement .cwTxOn := ofWord rfl rfl ⟨rfl, rfl⟩ (by decide)
theorem cwRxRead : Statement .cwRxRead := ofWord rfl rfl ⟨rfl, rfl⟩ (by decide)
theorem cwTxWrite (t : Byte) : Statement (.cwTxWrite t) :=
  ofWord rfl rfl ⟨rfl, rfl⟩ (by simp only [encodeCw, row]; apply BitVec.eq_of_getLsbD_eq; intro i hi; simp only [BitVec.getLsbD_and, BitVec.getLsbD_append]; interval_cases i <;> simp)
theorem cwRate (d : BitVec 8) : Statement (.cwRate d) :=
  ofWord rfl rfl ⟨rfl, rfl⟩ (by simp only [encodeCw, row]; apply BitVec.eq_of_getLsbD_eq; intro i hi; simp only [BitVec.getLsbD_and, BitVec.getLsbD_append]; interval_cases i <;> simp)
theorem cwFreq (f : BitVec 12) : Statement (.cwFreq f) :=
  ofWord rfl rfl ⟨rfl, rfl⟩ (by simp only [encodeCw, row]; apply BitVec.eq_of_getLsbD_eq; intro i hi; simp only [BitVec.getLsbD_and, BitVec.getLsbD_append]; interval_cases i <;> simp)
theorem cwTxCfg (d : BitVec 9) : Statement (.cwTxCfg d) :=
  ofWord rfl rfl ⟨rfl, rfl⟩ (by simp only [encodeCw, row]; apply BitVec.eq_of_getLsbD_eq; intro i hi; simp only [BitVec.getLsbD_and, BitVec.getLsbD_append]; interval_cases i <;> simp)
theorem cwRxCfg (d : BitVec 11) : Statement (.cwRxCfg d) :=
  ofWord rfl rfl ⟨rfl, rfl⟩ (by simp only [encodeCw, row]; apply BitVec.eq_of_getLsbD_eq; intro i hi; simp only [BitVec.getLsbD_and, BitVec.getLsbD_append]; interval_cases i <;> simp)
theorem cwStatus : Statement .cwStatus := ofWord rfl rfl ⟨rfl, rfl⟩ (by decide)

end Sys2Proof.Laws.TableRow
end

