-- ==== Sys2Proof/Laws/RingBuffer.lean ====
section
/-! SUPPORT. The ring buffer: what RB.PUT, RB.GET and a run of RB.PUTs can do. -/

namespace Sys2Proof.Machine

/-- The state after RB.PUT has stored `b` (R200). -/
def ringAppended (b : Byte) (s : State) : State :=
  (s.setMem .rb (s.rb.cells.write s.rb.head b)).setHead (nextIndex s.cfg s.rb.head)

@[simp] theorem ringAppended_rb (b : Byte) (s : State) : (ringAppended b s).rb =
    { s.rb with head := nextIndex s.cfg s.rb.head, cells := s.rb.cells.write s.rb.head b } := rfl

/-- Everything RB.PUT can do (R200). -/
theorem rbPut_cases (b : Byte) (s : State) :
    (s.rbFull = true ∧ rbPut b s = .done () (s.raise (.bufferOverflow b))) ∨
    (s.rbFull = false ∧ s.rb.head < s.cfg.rbSize ∧ rbPut b s = .done () (ringAppended b s)) ∨
    (s.rbFull = false ∧ ¬ s.rb.head < s.cfg.rbSize ∧ rbPut b s = .fault (.badIndex .rb s.rb.head)) := by
  unfold rbPut
  cases hf : s.rbFull
  · rcases memWrite_cases .rb s.rb.head b s with ⟨hi, hw⟩ | ⟨hi, hw⟩
    · exact .inr (.inl ⟨rfl, hi, by simp [hw]; rfl⟩)
    · exact .inr (.inr ⟨rfl, hi, by simp [hw]⟩)
  · exact .inl ⟨rfl, by simp⟩

/-- Everything RB.GET can do (R201). -/
theorem rbGet_cases (s : State) :
    (s.rb.head = s.rb.tail ∧ rbGet s = .noStep) ∨
    (s.rb.head ≠ s.rb.tail ∧ ∃ b, s.rb.tail < s.cfg.rbSize ∧ s.rb.cells.read s.rb.tail = some b ∧
      rbGet s = .done b (s.setTail (nextIndex s.cfg s.rb.tail))) ∨
    (s.rb.head ≠ s.rb.tail ∧ (¬ s.rb.tail < s.cfg.rbSize ∨ s.rb.cells.read s.rb.tail = none) ∧
      ∃ f, rbGet s = .fault f) := by
  unfold rbGet State.hasBytes
  by_cases h : s.rb.head = s.rb.tail
  · exact .inl ⟨h, by simp [h]⟩
  · rcases memRead_cases .rb s.rb.tail s with ⟨b, hi, hb, he⟩ | ⟨hi, hb, he⟩ | ⟨hi, he⟩
    · exact .inr (.inl ⟨h, b, hi, hb, by simp [h, he]⟩)
    · exact .inr (.inr ⟨h, .inr hb, _, by simp [h, he]; rfl⟩)
    · exact .inr (.inr ⟨h, .inl hi, _, by simp [h, he]; rfl⟩)

/-- READBYTE is RB.GET (R203). -/
theorem readByte_eq (s : State) : readByte s = rbGet s := by
  unfold readByte rbGet
  cases s.hasBytes <;> simp

/-- `t` is `s` but for what RB.PUT writes: `head`, the ring's bytes, and BufferOverflow events in `log`. -/
structure Buffered (s t : State) : Prop where
  cfg : t.cfg = s.cfg
  tci : t.tci = s.tci
  ra : t.ra = s.ra
  tail : t.rb.tail = s.rb.tail
  de : t.de = s.de
  log : ∃ bs : List Byte, t.log = s.log ++ bs.map fun b => .error (.bufferOverflow b)
  env : t.env = s.env
  answer : t.answer = s.answer
  wf : Memory.wf s.rb.cells → Memory.wf t.rb.cells
  head : s.rb.head < s.cfg.rbSize → t.rb.head < s.cfg.rbSize

theorem Buffered.refl (s : State) : Buffered s s :=
  ⟨rfl, rfl, rfl, rfl, rfl, ⟨[], by simp⟩, rfl, rfl, id, id⟩

theorem Buffered.trans {s t u : State} (h : Buffered s t) (k : Buffered t u) : Buffered s u where
  cfg := k.cfg.trans h.cfg
  tci := k.tci.trans h.tci
  ra := k.ra.trans h.ra
  tail := k.tail.trans h.tail
  de := k.de.trans h.de
  log := by
    obtain ⟨bs, hb⟩ := h.log
    obtain ⟨cs, hc⟩ := k.log
    exact ⟨bs ++ cs, by rw [hc, hb]; simp⟩
  env := k.env.trans h.env
  answer := k.answer.trans h.answer
  wf := fun x => k.wf (h.wf x)
  head := fun x => by have := k.head (by rw [h.cfg]; exact h.head x); rwa [h.cfg] at this

theorem nextIndex_lt {c : Cfg} {i : Nat} (h : i < c.rbSize) : nextIndex c i < c.rbSize :=
  Nat.mod_lt _ (by omega)

theorem rbPut_buffered {b : Byte} {s t : State} (h : rbPut b s = .done () t) : Buffered s t := by
  rcases rbPut_cases b s with ⟨_, he⟩ | ⟨_, hi, he⟩ | ⟨_, _, he⟩
  · rw [he] at h
    rw [← (Res.done.inj h).2]
    exact ⟨rfl, rfl, rfl, rfl, rfl, ⟨[b], rfl⟩, rfl, rfl, id, id⟩
  · rw [he] at h
    rw [← (Res.done.inj h).2]
    exact ⟨rfl, rfl, rfl, rfl, rfl, ⟨[], by simp [ringAppended]⟩, rfl, rfl, fun x => Memory.write_wf _ _ _ x,
      fun x => nextIndex_lt x⟩
  · rw [he] at h
    cases h

end Sys2Proof.Machine
end

