-- ==== Sys2Proof/Laws/Receive.lean ====
section
/-! SUPPORT. The receive assembler: what delivery, the checksum arm, the arms and RXEVT can do. -/

namespace Sys2Proof.Machine

/-- Delivery writes what RB.PUT writes, or faults; it has no other outcome. -/
theorem deliver_cases (n : Nat) : ∀ (i : Nat) (s : State),
    (∃ t, deliver i n s = .done () t ∧ Buffered s t) ∨ (∃ f, deliver i n s = .fault f) := by
  induction n with
  | zero => intro i s; exact .inl ⟨s, rfl, Buffered.refl s⟩
  | succ n ih =>
    intro i s
    rcases memRead_cases .pay i s with ⟨b, _, _, he⟩ | ⟨_, _, he⟩ | ⟨_, he⟩
    · rcases rbPut_cases b s with ⟨_, hp⟩ | ⟨_, _, hp⟩ | ⟨_, _, hp⟩
      · rcases ih (i + 1) (s.raise (.bufferOverflow b)) with ⟨t, ht, hb⟩ | ⟨f, hf⟩
        · exact .inl ⟨t, by simp [deliver, he, hp, ht], (rbPut_buffered hp).trans hb⟩
        · exact .inr ⟨f, by simp [deliver, he, hp, hf]⟩
      · rcases ih (i + 1) (ringAppended b s) with ⟨t, ht, hb⟩ | ⟨f, hf⟩
        · exact .inl ⟨t, by simp [deliver, he, hp, ht], (rbPut_buffered hp).trans hb⟩
        · exact .inr ⟨f, by simp [deliver, he, hp, hf]⟩
      · exact .inr ⟨.badIndex .rb s.rb.head, by simp [deliver, he, hp]⟩
    · exact .inr ⟨.unwritten .pay i, by simp [deliver, he]⟩
    · exact .inr ⟨.badIndex .pay i, by simp [deliver, he]⟩

/-- Everything the data branch of the checksum arm can do (R178). -/
theorem acceptData_cases (s : State) :
    (s.isDuplicate = true ∧ acceptData s = .done () s.requestAck) ∨
    (s.isDuplicate = false ∧ ∃ t, Buffered s t ∧ deliver 0 s.ra.fLen.toNat s = .done () t ∧
      acceptData s = .done () t.noteSeq.requestAck) ∨
    (s.isDuplicate = false ∧ ∃ f, acceptData s = .fault f ∧ deliver 0 s.ra.fLen.toNat s = .fault f) := by
  unfold acceptData
  cases hd : s.isDuplicate
  · rcases deliver_cases s.ra.fLen.toNat 0 s with ⟨t, ht, hb⟩ | ⟨f, hf⟩
    · exact .inr (.inl ⟨rfl, t, hb, ht, by simp [ht]⟩)
    · exact .inr (.inr ⟨rfl, f, by simp [hf], hf⟩)
  · exact .inl ⟨rfl, by simp⟩

/-- Everything the judgement of a frame can do, in its fixed order (R178, R258). -/
theorem judgeFrame_cases (b : Byte) (s : State) :
    (b ≠ s.ra.crc ∧ judgeFrame b s = .done () (s.raise .frameCorruption)) ∨
    (b = s.ra.crc ∧ s.ra.fDst ≠ s.cfg.myAddr ∧ judgeFrame b s = .done () s) ∨
    (b = s.ra.crc ∧ s.ra.fDst = s.cfg.myAddr ∧ s.ra.fType = s.cfg.typeData ∧ judgeFrame b s = acceptData s) ∨
    (b = s.ra.crc ∧ s.ra.fDst = s.cfg.myAddr ∧ s.ra.fType ≠ s.cfg.typeData ∧ s.ra.fType = s.cfg.typeAck ∧
      judgeFrame b s = .done () (ackRx s)) ∨
    (b = s.ra.crc ∧ s.ra.fDst = s.cfg.myAddr ∧ s.ra.fType ≠ s.cfg.typeData ∧ s.ra.fType ≠ s.cfg.typeAck ∧
      judgeFrame b s = .done () s) := by
  unfold judgeFrame typeClass
  by_cases h1 : b = s.ra.crc
  swap
  · exact .inl ⟨h1, by simp [h1]⟩
  by_cases h2 : s.ra.fDst = s.cfg.myAddr
  swap
  · exact .inr (.inl ⟨h1, h2, by simp [h1, h2]⟩)
  by_cases h3 : s.ra.fType = s.cfg.typeData
  · exact .inr (.inr (.inl ⟨h1, h2, h3, by simp [h1, h2, h3]⟩))
  by_cases h4 : s.ra.fType = s.cfg.typeAck
  · rw [h4] at h3
    exact .inr (.inr (.inr (.inl ⟨h1, h2, by rwa [h4], h4, by simp [h1, h2, h3, h4]⟩)))
  · exact .inr (.inr (.inr (.inr ⟨h1, h2, h3, h4, by simp [h1, h2, h3, h4]⟩)))

/-- Everything ACKRX can do (R223). -/
theorem ackRx_cases (s : State) : (s.ackMatches = true ∧ ackRx s = s.confirmed) ∨
    (s.ackMatches = false ∧ ackRx s = s) := by
  unfold ackRx
  cases s.ackMatches <;> simp

/-- The checksum arm: RESYNC, the judgement, `st = IDLE` (R178). -/
theorem armChk_spec (b : Byte) (s : State) : ∃ u, Sent s u [s.cfg.cwFifoStop, s.cfg.cwFifoArm] ∧
    armChk b s = (judgeFrame b (u.setSt .idle)).bind fun _ t => .done () (t.setSt .idle) := by
  obtain ⟨u, hu, he⟩ := resync_spec s
  exact ⟨u, hu, by rw [armChk, he]⟩

/-- Everything arm PAY can do (R177). -/
theorem armPay_cases (b : Byte) (s : State) :
    (s.ra.idx.toNat < 128 ∧
      armPay b s = .done () ((s.setMem .pay (s.ra.pay.write s.ra.idx.toNat b)).payAdvanced b)) ∨
    (¬ s.ra.idx.toNat < 128 ∧ armPay b s = .fault (.badIndex .pay s.ra.idx.toNat)) := by
  unfold armPay
  rcases memWrite_cases .pay s.ra.idx.toNat b s with ⟨hi, hw⟩ | ⟨hi, hw⟩
  · exact .inl ⟨hi, by rw [hw]; rfl⟩
  · exact .inr ⟨hi, by rw [hw]; rfl⟩

/-- Everything RXEVT can do before its arm (R171). -/
theorem rxEvt_cases (s : State) :
    ((s.tci.mode ≠ .rx ∨ s.tci.rxIrqEn = false) ∧ rxEvt s = .noStep) ∨
    (s.tci.mode = .rx ∧ s.tci.rxIrqEn = true ∧
      ((∃ u k, k < rawCount (nextByte s) ∧ Sent s.countWd u (List.replicate k s.cfg.cwRxRead) ∧
          rxEvt s = .abort u.hardwareNotReady) ∨
        (∃ u, Sent s.countWd u (List.replicate (rawCount (nextByte s)) s.cfg.cwRxRead) ∧
          rxEvt s = if s.stalled then .done () (resync (u.raise .stateMachineStall)) else arm (nextByte s) u))) := by
  unfold rxEvt State.rxEnabled State.receiving
  by_cases hm : s.tci.mode = .rx
  swap
  · exact .inl ⟨.inl hm, by simp [hm]⟩
  cases hq : s.tci.rxIrqEn
  · exact .inl ⟨.inr rfl, by simp⟩
  refine .inr ⟨hm, rfl, ?_⟩
  have hn : nextByte s.countWd = nextByte s := nextByte_congr rfl
  have hc : s.countWd.cfg = s.cfg := rfl
  have hcases := rxByte_cases s.countWd
  rw [hn, hc] at hcases
  rcases hcases with ⟨h, _⟩ | ⟨_, u, hu, he⟩ | ⟨_, u, ws, hp, hu, he⟩
  · exact absurd hm h
  · refine .inr ⟨u, hu, ?_⟩
    cases s.stalled <;> simp [hm, armWdg, he]
  · refine .inl ⟨u, ws, hp, hu, ?_⟩
    cases s.stalled <;> simp [hm, armWdg, he]

/-- RXEVT when ENV is willing (R171). -/
theorem rxEvt_done {n : Nat} {s : State} (hm : s.tci.mode = .rx) (hq : s.tci.rxIrqEn = true)
    (h : willing (rawCount (nextByte s) + n) s) :
    ∃ u, Sent s.countWd u (List.replicate (rawCount (nextByte s)) s.cfg.cwRxRead) ∧ willing n u ∧
      rxEvt s = if s.stalled then .done () (resync (u.raise .stateMachineStall)) else arm (nextByte s) u := by
  have hb : nextByte s.countWd = nextByte s := nextByte_congr rfl
  have hw : willing (rawCount (nextByte s.countWd) + n) s.countWd := hb ▸ willing_update (s := s) rfl rfl h
  obtain ⟨u, he, hu, hn⟩ := rxByte_done (s := s.countWd) hm hw
  rw [hb] at he hu
  refine ⟨u, hu, hn, ?_⟩
  unfold rxEvt State.rxEnabled State.receiving
  cases s.stalled <;> simp [hm, hq, armWdg, he]

end Sys2Proof.Machine
end

