-- ==== Sys2Proof/Laws/Step.lean ====
section
/-! SUPPORT. The step: how a rule concludes, what is started next, and every way a step answers a next state. -/

namespace Sys2Proof.Machine

/-- A rule that answers a next state ran to its end, aborted, or had no step (R11). -/
theorem conclude_next {α : Type} {s t : State} {answerOf : α → Answer} {m : Res α}
    (h : conclude s answerOf m = .next t) :
    (∃ a u, m = .done a u ∧ t = u.setAnswer (answerOf a)) ∨ (∃ u, m = .abort u ∧ t = u.setAnswer .aborted) ∨
      (m = .noStep ∧ t = s.setAnswer .noStep) := by
  cases m <;> simp only [conclude, Host.Outcome.next.injEq, reduceCtorEq] at h
  · exact .inl ⟨_, _, rfl, h.symm⟩
  · exact .inr (.inl ⟨_, rfl, h.symm⟩)
  · exact .inr (.inr ⟨rfl, h.symm⟩)

/-- A rule faults where a buffer access in it does. -/
theorem conclude_fault {α : Type} {s : State} {answerOf : α → Answer} {m : Res α} {f : Fault}
    (h : conclude s answerOf m = .fault f) : m = .fault f := by
  cases m <;> simp_all [conclude]

/-- Everything the choice of the next request can be (R7, R73, R259). -/
theorem fetch_cases (s : State) :
    (s.env.turns = [] ∧ fetch s = .rest s) ∨
    (s.env.turns.head? = some .main ∧ s.env.mainOps = [] ∧ fetch s = .rest s.dropTurn) ∨
    (∃ r l, s.env.turns.head? = some .main ∧ s.env.mainOps = r :: l ∧
      fetch s = .start .main r (s.dropTurn.setMainOps l)) ∨
    (s.env.turns.head? = some .rxi ∧ fetch s = .start .rxi rxEvtRequest s.dropTurn) ∨
    (s.env.turns.head? = some .tmi ∧ fetch s = .start .tmi tickRequest s.dropTurn) ∨
    (∃ r, s.env.turns.head? = some (.alone r) ∧ fetch s = .start (.alone r) r s.dropTurn) := by
  unfold fetch
  cases h : s.env.turns with
  | nil => simp
  | cons turn l =>
    cases turn
    · cases hm : s.env.mainOps <;> simp
    all_goals simp

@[simp] theorem decode_rxEvtRequest : decode rxEvtRequest = .ok (.rxEvt, []) := rfl

@[simp] theorem decode_tickRequest : decode tickRequest = .ok (.tick, []) := rfl

/-- Every way a step answers a next state: nothing was started, or a decoded and admitted instruction ran (R7). -/
theorem step_next {s t : State} (h : step s = .next t) : cfgWf s.cfg = true ∧
    (fetch s = .rest t ∨ ∃ turn r u i rest v, fetch s = .start turn r u ∧ decode r = .ok (i, rest) ∧
      turn.admits i = true ∧ exec i u = .next v ∧ t = settle turn r v) := by
  unfold step at h
  split at h
  swap
  · simp at h
  refine ⟨‹_›, ?_⟩
  cases hf : fetch s with
  | rest u =>
    simp only [hf, Host.Outcome.next.injEq] at h
    exact .inl (by rw [h])
  | start turn r u =>
    simp only [hf] at h
    cases hd : decode r with
    | error e => simp [hd] at h
    | ok p =>
      obtain ⟨i, rest⟩ := p
      simp only [hd] at h
      split at h
      · cases he : exec i u with
        | next v =>
          simp only [he, finishTurn, Host.Outcome.next.injEq] at h
          exact .inr ⟨turn, r, u, i, rest, v, rfl, hd, ‹_›, he, h.symm⟩
        | fault f => simp [he, finishTurn] at h
        | refused f => simp [he, finishTurn] at h
      · simp at h

/-- A step faults only where the instruction it runs does. -/
theorem step_fault {s : State} {f : Fault} (h : step s = .fault f) : cfgWf s.cfg = true ∧
    ∃ turn r u i rest, fetch s = .start turn r u ∧ decode r = .ok (i, rest) ∧ turn.admits i = true ∧
      exec i u = .fault f := by
  unfold step at h
  split at h
  swap
  · simp at h
  refine ⟨‹_›, ?_⟩
  cases hf : fetch s with
  | rest u => simp [hf] at h
  | start turn r u =>
    simp only [hf] at h
    cases hd : decode r with
    | error e => simp [hd] at h
    | ok p =>
      obtain ⟨i, rest⟩ := p
      simp only [hd] at h
      split at h
      · cases he : exec i u with
        | next v => simp [he, finishTurn] at h
        | fault g =>
          simp only [he, finishTurn, Host.Outcome.fault.injEq] at h
          exact ⟨turn, r, u, i, rest, rfl, hd, ‹_›, h ▸ he⟩
        | refused f => simp [he, finishTurn] at h
      · simp at h

/-- The memories are in canonical form after reset. -/
theorem resetWith_memWf (c : Cfg) : (State.resetWith c).memWf := by
  simp [State.memWf, State.resetWith, Memory.wf]

end Sys2Proof.Machine
end

