-- ==== Sys2Proof/Tests/Slice0.lean ====
section
/-! SUPPORT. Tests: well-formedness, decoding of written-out words, one step of each instruction on small states
(expected values from spec/95_test_vectors.md, the vector named at each test), and for every obligation with hypotheses
a state that meets them. -/

namespace Sys2Proof.Tests

open Sys2Proof.Machine

/-! ### Helpers -/

/-- ENV lets 400 ready polls succeed. -/
def readies400 : List Bool := List.replicate 400 true

/-- After reset in `REF` with `POLL_LIMIT = 3`, ENV answering the next 400 ready polls with 1. -/
def start : State :=
  let s := State.resetWith { refCfg with pollLimit := 3 }
  { s with env := { s.env with readies := readies400 } }

/-- The same, set up and in `mode`. -/
def inMode (m : Mode) : State :=
  { start with tci := { start.tci with mode := m, rxIrqEn := m == .rx, initDone := true } }

/-- The same, after INIT. -/
def up : State := inMode .rx

/-- `up` with other receive registers. -/
def withRa (f : Ra → Ra) : State := { up with ra := f up.ra }

/-- `up` with other delivery registers. -/
def withDe (f : De → De) : State := { up with de := f up.de }

/-- `up` with a ring buffer of 4 slots. -/
def withRb (f : Rb → Rb) : State := { up with cfg := { up.cfg with rbSize := 4 }, rb := f up.rb }

/-- ENV's next answers. -/
def feed (ws : List Word) (s : State) : State := { s with env := { s.env with answers := ws } }

/-- ENV's next ready answers. -/
def polls (bs : List Bool) (s : State) : State := { s with env := { s.env with readies := bs } }

/-- ENV's next turn, and MAIN's program. -/
def turned (t : Turn) (l : List Request) (s : State) : State := { s with env := { s.env with turns := [t], mainOps := l } }

/-- Frame B received up to its checksum (V5.12). -/
def frameB (r : Ra) : Ra :=
  { r with st := .chk, crc := 0x01, fType := 0x01, fLen := 2, fDst := 0x0A, fSrc := 0x05, fSeq := 0x07, idx := 2, wd := 6,
           pay := [(0, 0x48), (1, 0x69)] }

/-- Three bytes pending to node 05 (P2). -/
def pending3 (d : De) : De :=
  { d with txDst := 0x05, txBuf := [(0, 0x01), (1, 0x02), (2, 0x03)], txCnt := 3, timeout := 1 }

/-- `n` bytes of 00 pending. -/
def pendingZeros (n : Nat) (d : De) : De :=
  { d with txBuf := (List.range n).map fun i => (i, 0), txCnt := BitVec.ofNat 8 n }

/-- The next state of an instruction. -/
def after (i : Instr) (s : State) : Option State :=
  match exec i s with
  | .next t => some t
  | _ => none

/-- The words and error events an instruction adds to an empty `log`, and its answer. -/
def seen (i : Instr) (s : State) : Option (List Word × List ErrorEvent × Answer) :=
  (after i s).map fun t => (wordsOf t.log, errorsOf t.log, t.answer)

/-- The answer of the next step. -/
def stepAnswer (s : State) : Option Answer :=
  match step s with
  | .next t => some t.answer
  | _ => none

/-- ENV lets every ready poll of a frame succeed. -/
def willingFrame (t d src q : Byte) (p : List Byte) (k : Nat) (s : State) : Prop :=
  ∃ n, k * framePolls s.cfg t d src q p = n ∧ willing n s

theorem willing_up (n : Nat) (s : State) (hn : n ≤ 400) (hc : s.cfg.pollLimit = 3)
    (hr : s.env.readies = readies400) : willing n s :=
  willing_less hn (willing_of_readies 400 s [] (by omega) (by rw [hr, readies400, List.append_nil]))

theorem willingFrame_up (n : Nat) {t d src q : Byte} {p : List Byte} {k : Nat} {s : State}
    (h : k * framePolls s.cfg t d src q p = n) (hn : n ≤ 400) (hc : s.cfg.pollLimit = 3)
    (hr : s.env.readies = readies400) : willingFrame t d src q p k s :=
  ⟨n, h, willing_up n s hn hc hr⟩

/-- A frame takes at most 278 ready polls in `REF`, two for each of 139 logical bytes. -/
theorem willingFrame_any {t d src q : Byte} {p : List Byte} {s : State} (hc : s.cfg.pollLimit = 3)
    (hp : s.cfg.preamble.length = 5) (hr : s.env.readies = readies400) : willingFrame t d src q p 1 s := by
  have hs : ∀ (e : Byte) (l : List Byte), (stuff e l).length ≤ 2 * l.length := by
    intro e l
    induction l with
    | nil => simp
    | cons b l ih =>
      rw [stuff_cons]
      split <;> simp <;> omega
  refine ⟨_, rfl, willing_up _ s ?_ hc hr⟩
  have h := hs s.cfg.esc (wire s.cfg t d src q p)
  have hw : (wire s.cfg t d src q p).length ≤ 139 := by
    have : (p.take Config.maxLen).length ≤ 128 := List.length_take_le 128 p
    simp only [wire, body, clampPayload, List.length_append, List.length_cons, List.length_nil, hp]
    omega
  simp only [framePolls]
  omega

/-! ### WellFormed: one ill-formed term for each check -/

theorem test_wf_refuses_baud : (Instr.config (2 ^ 32) 0 0 .quiet).wf = false := by decide
theorem test_wf_refuses_power : (Instr.config 0 0 (2 ^ 32) .quiet).wf = false := by decide
theorem test_wf_refuses_payload : (Instr.frameEnc 1 2 3 4 (List.replicate 256 0)).wf = false := by decide +kernel
theorem test_wf_refuses_plain : ([.rawPlain 0x00, .rawPlain 0xFF] : List Instr).all (fun i => !i.wf) = true := by decide
theorem test_wf_refuses_rsvd : ([.typeRsvd 0x01, .typeRsvd 0x02] : List Instr).all (fun i => !i.wf) = true := by decide

/-! ### Decoding of words written out from the spec's encodings (R93, R94, R97, R99, R101) -/

/-- A request's bytes decode to an instruction with nothing left. -/
def reads (f : Format) (bytes : List Byte) (i : Instr) : Bool := (decode ⟨f, bytes⟩).toOption == some (i, [])

/-- R24, R99: the code of each receive state is the code of its ST row. -/
theorem test_st_codes : [(RxState.idle, Instr.stIdle 7), (.len, .stLen 7), (.dst, .stDst 7), (.src, .stSrc 7),
    (.seq, .stSeq 7), (.pay, .stPay 7), (.chk, .stChk 7)].all
      (fun x => (encode x.2).bytes == [x.1.code.setWidth 8, 7]) = true := by decide

/-- R106: three ENQBs, in order. -/
theorem test_enqTx : enqTx [0x01, 0x02, 0x03] 0x05 = [⟨.op, [0x12, 0x01, 0x05]⟩, ⟨.op, [0x12, 0x02, 0x05]⟩,
    ⟨.op, [0x12, 0x03, 0x05]⟩] := by decide

theorem test_decode_op_select : [([0b00000, 0x00, 0xB0], Instr.xfer 0xB000), ([0b00001], .waitRdy), ([0b00010], .init),
    ([0b00011, 0x00, 0xE1, 0x00, 0x00, 0x02, 0x05, 0x00, 0x00, 0x00, 0x02], .config 57600 2 5 .noisy),
    ([0b00100], .setRx), ([0b00101], .setTx), ([0b00110], .setIdle), ([0b00111], .resync), ([0b01000, 0x7E], .txByte 0x7E),
    ([0b01001], .rxByte), ([0b01010, 0x5E, 0x02], .crc8Upd 0x5E 0x02),
    ([0b01011, 0x01, 0x05, 0x0A, 0x00, 0x02, 0x48, 0x69], .frameEnc 0x01 0x05 0x0A 0x00 [0x48, 0x69])].all
      (fun x => reads .op x.1 x.2) = true := by decide
theorem test_decode_op_rest : [([0b01100], Instr.rxEvt), ([0b01101, 0x48], .rbPut 0x48), ([0b01110], .rbGet),
    ([0b01111], .hasData), ([0b10000], .readByte), ([0b10001], .isBusy), ([0b10010, 0x01, 0x05], .enqB 0x01 0x05),
    ([0b10011, 0x01], .send true), ([0b10011, 0x00], .send false), ([0b10100], .tick), ([0b10101], .ackRx),
    ([0b10110], .ackTx), ([0b10111], .opRsvd10111), ([0b11000], .opRsvd11xxx 0), ([0b11111], .opRsvd11xxx 7)].all
      (fun x => reads .op x.1 x.2) = true := by decide
theorem test_decode_st : [([0b000, 0x01], Instr.stIdle 0x01), ([0b001, 0x02], .stLen 0x02), ([0b010, 0x0A], .stDst 0x0A),
    ([0b011, 0x05], .stSrc 0x05), ([0b100, 0x07], .stSeq 0x07), ([0b101, 0x48], .stPay 0x48), ([0b110, 0x01], .stChk 0x01),
    ([0b111], .stNone)].all (fun x => reads .st x.1 x.2) = true := by decide
theorem test_decode_raw : [([0b00000000], Instr.rawFill00), ([0b11111111], .rawFillFF), ([0b00000001], .rawPlain 0x01),
    ([0b11111110], .rawPlain 0xFE)].all (fun x => reads .raw x.1 x.2) = true := by decide
theorem test_decode_type : [([0b00000001], Instr.typeData), ([0b00000010], .typeAck), ([0b00000000], .typeRsvd 0x00),
    ([0b01111111], .typeRsvd 0x7F)].all (fun x => reads .type x.1 x.2) = true := by decide
theorem test_decode_cw_fixed : [([0x81, 0xCA], Instr.cwFifoStop), ([0x83, 0xCA], .cwFifoArm), ([0xE0, 0xC0], .cwInit0),
    ([0xD7, 0x80], .cwInit1), ([0xAB, 0xC2], .cwInit2), ([0x00, 0xE0], .cwInit4), ([0x00, 0xC8], .cwInit5),
    ([0xF7, 0xC4], .cwInit6), ([0x08, 0x82], .cwIdle), ([0xC8, 0x82], .cwRxOn), ([0x38, 0x82], .cwTxOn),
    ([0x00, 0xB0], .cwRxRead), ([0x00, 0x00], .cwStatus)].all (fun x => reads .cw x.1 x.2) = true := by decide
theorem test_decode_cw_data : [([0xAA, 0xB8], Instr.cwTxWrite 0xAA), ([0x23, 0xC6], .cwRate 0x23), ([0x50, 0xA5], .cwFreq 0x550),
    ([0b01010000, 0b10011001], .cwTxCfg 0x150), ([0b11000000, 0b10010101], .cwRxCfg 0x5C0)].all
      (fun x => reads .cw x.1 x.2) = true := by decide
/-- The word of CW.INIT3 is that of CW.FIFO_STOP, whose row stands first (R102). -/
theorem test_decode_cw_init3 : (encode .cwInit3).bytes = [0x81, 0xCA] ∧ reads .cw [0x81, 0xCA] .cwFifoStop = true := by decide
/-- R103: a word of no row, an operation code above 31, a receive state above 7, a channel above 3, a lost operand. -/
theorem test_decode_refuses : [(Format.cw, [0xFF, 0xFF]), (.op, [0x20]), (.st, [0x08]), (.op, [3, 0, 0, 0, 0, 4, 0, 0, 0, 0, 0]),
    (.op, [0x12, 0x01])].all (fun x => (decode ⟨x.1, x.2⟩).toOption.isNone) = true := by decide

/-! ### One step from reset, on a table word -/

theorem test_step_init : (match step (State.reset.withFetchWord 8 0x02) with | .next t => some (wordsOf t.log) | _ => none) =
    some [0xC0E0, 0x80D7, 0xC2AB, 0xCA81, 0xE000, 0xC800, 0xC4F7, 0x8208, 0x82C8, 0xCA81, 0xCA83] := by decide +kernel
theorem test_step_command_word : decodeTableWord 16 0x8208 = some .cwIdle ∧
    (match step (State.reset.withFetchWord 16 0x8208) with | .next t => some (wordsOf t.log) | _ => none) = some [0x8208] := by
  decide +kernel

/-! ### The transceiver command interface -/

/-- V4.14 -/
theorem test_xfer : (after (.xfer 0xB000) (feed [0x8048] up)).map (fun t => (t.log, t.tci.cs, t.answer)) =
    some ([.selAssert, .exchange 0xB000 0x8048, .selDeassert], false, .word 0x8048) := by decide
/-- V4.12 -/
theorem test_waitRdy_returns : (after .waitRdy (polls [false, false, true] up)).map (fun t => (t.tci.hwFault, t.answer)) =
    some (false, .unit) := by decide
/-- V4.13 -/
theorem test_waitRdy_latches : (after .waitRdy (polls [false, false, false] up)).map
    (fun t => (t.tci.hwFault, errorsOf t.log, t.answer)) = some (true, [.hardwareNotReady], .aborted) := by decide
/-- V4.1 -/
theorem test_init : (after .init start).map (fun t => (wordsOf t.log, t.tci.mode, t.tci.rxIrqEn, t.tci.initDone)) =
    some ([0xC0E0, 0x80D7, 0xC2AB, 0xCA81, 0xE000, 0xC800, 0xC4F7, 0x8208, 0x82C8, 0xCA81, 0xCA83], .rx, true, true) := by
  decide
/-- V4.15 -/
theorem test_init_again : seen .init up = some ([], [], .noStep) := by decide
/-- V4.3 -/
theorem test_config : (after (.config 9600 2 5 .noisy) up).map
    (fun t => ((wordsOf t.log).length, (wordsOf t.log)[1]?, t.tci.rfChan, t.tci.rfBaud, t.tci.rfEnv)) =
    some (4, some 0xA654, 2, 9600, .noisy) := by decide
/-- V4.2, in a configuration that fixes the words of one baud rate, one power level and one profile. -/
theorem test_config_words : (after (.config 9600 0 5 .quiet) { up with cfg := { up.cfg with
      rateWord := ⟨[(57600, 0xC606), (9600, 0xC623)], 0⟩, txWord := ⟨[(5, 0x9850)], 0⟩, rxWord := ⟨[(.quiet, 0x94A0)], 0⟩ } }).map
    (fun t => (wordsOf t.log, t.tci.rfChan, t.tci.mode)) = some ([0xC623, 0xA550, 0x9850, 0x94A0], 0, .rx) := by decide
/-- V4.4 -/
theorem test_setRx : (after .setRx (withRa fun r => { r with st := .pay, wd := 9 })).map
    (fun t => (wordsOf t.log, t.ra.st, t.ra.wd, t.tci.mode)) = some ([0x8208, 0x82C8, 0xCA81, 0xCA83], .idle, 9, .rx) := by decide
/-- V4.5 -/
theorem test_setTx : (after .setTx up).map (fun t => (wordsOf t.log, t.tci.mode, t.tci.rxIrqEn)) =
    some ([0x8208, 0x8238], .tx, false) := by decide
/-- V4.6 -/
theorem test_setIdle : (after .setIdle (withRa fun r => { r with st := .pay })).map
    (fun t => (wordsOf t.log, t.tci.mode, t.tci.rxIrqEn, t.ra.st)) = some ([0x8208], .idle, false, .pay) := by decide
/-- V4.7 -/
theorem test_resync : (after .resync (withRa fun r => { r with st := .pay })).map (fun t => (wordsOf t.log, t.ra.st)) =
    some ([0xCA81, 0xCA83], .idle) := by decide
/-- V4.8 -/
theorem test_txByte_fill : seen (.txByte 0x00) (inMode .tx) = some ([0xB800, 0xB8AA], [], .unit) ∧
    seen (.txByte 0xFF) (inMode .tx) = some ([0xB8FF, 0xB8AA], [], .unit) := by decide
/-- V4.8 -/
theorem test_txByte_plain : seen (.txByte 0xAA) (inMode .tx) = some ([0xB8AA], [], .unit) := by decide
/-- V4.9 -/
theorem test_rxByte_plain : seen .rxByte (feed [0x8048] up) = some ([0xB000], [], .byte 0x48) := by decide
/-- V4.11 -/
theorem test_rxByte_fill : seen .rxByte (feed [0x00FF, 0x0012] up) = some ([0xB000, 0xB000], [], .byte 0xFF) := by decide

/-! ### The frame codec -/

/-- V1.2, V1.4, V1.9, V1.10 -/
theorem test_crc8Upd : [(0x00, 0x01, 0x5E), (0x00, 0x80, 0x8C), (0x5E, 0x02, 0x78), (0x8C, 0x00, 0x2F)].all
    (fun x => seen (.crc8Upd x.1 x.2.1) up == some ([], [], .byte x.2.2)) = true := by decide +kernel
/-- V1.15, V1.16 -/
theorem test_crc8 : crc8 refCfg [0x31, 0x32, 0x33, 0x34, 0x35, 0x36, 0x37, 0x38, 0x39] = 0xA1 ∧
    crc8 refCfg [0x02, 0x1C, 0xB8, 0x01, 0x00, 0x00, 0x00] = 0xA2 := by decide +kernel
/-- V2.7, V2.9, V2.11, V2.12 -/
theorem test_stuff : stuff 0xAA [0x00, 0xFF, 0x7E] = [0x00, 0xAA, 0xFF, 0xAA, 0x7E] ∧
    unstuff [0x00, 0xAA, 0xFF, 0xAA, 0x7E] = [0x00, 0xFF, 0x7E] ∧ unstuff [0x00, 0x00, 0x48] = [0x00, 0x48] ∧
    unstuff [0xFF, 0xFF, 0xAA, 0x48] = [0xFF, 0xAA, 0x48] := by decide
/-- V3.12 -/
theorem test_frameEnc : seen (.frameEnc 0x01 0x05 0x0A 0x00 [0x01, 0x02, 0x03]) (inMode .tx) =
    some ([0xB8AA, 0xB8AA, 0xB8AA, 0xB82D, 0xB8D4, 0xB801, 0xB803, 0xB805, 0xB80A, 0xB800, 0xB8AA, 0xB801, 0xB802, 0xB803,
      0xB88A], [], .unit) := by decide +kernel
/-- R156: the payload is cut to 128 bytes, and the Length byte says so. -/
theorem test_frameEnc_clamps : (body 0x01 0x0A 0x05 0x10 (List.replicate 130 0x00)).length = 133 ∧
    (body 0x01 0x0A 0x05 0x10 (List.replicate 130 0x00))[1]? = some 0x80 := by decide +kernel

/-! ### The receive assembler -/

/-- V5.2 -/
theorem test_rxEvt_fill : (after .rxEvt (feed [0x0000, 0x00AA] up)).map (fun t => (wordsOf t.log, t.ra.st, t.ra.fType, t.ra.wd)) =
    some ([0xB000, 0xB000], .len, 0x00, 0) := by decide +kernel
/-- V5.18 -/
theorem test_rxEvt_stall : (after .rxEvt (feed [0x0077] (withRa fun r => { r with st := .dst, wd := 256 }))).map
    (fun t => (wordsOf t.log, errorsOf t.log, t.ra.st, t.ra.wd, t.ra.fDst)) =
    some ([0xB000, 0xCA81, 0xCA83], [.stateMachineStall], .idle, 257, 0) := by decide
/-- V5.1 -/
theorem test_stIdle : (after (.stIdle 0x01) (withRa fun r => { r with wd := 57 })).map
    (fun t => (t.ra.fType, t.ra.crc, t.ra.wd, t.ra.st)) = some (0x01, 0x5E, 0, .len) := by decide +kernel
/-- V5.4 -/
theorem test_stLen_clamps : (after (.stLen 0xC8) (withRa fun r => { r with st := .len, crc := 0x5E })).map
    (fun t => (t.ra.fLen, t.ra.crc, t.ra.st)) = some (128, 0xCC, .dst) := by decide +kernel
/-- V5.6 -/
theorem test_stDst : (after (.stDst 0x0A) (withRa fun r => { r with st := .dst, crc := 0x78 })).map
    (fun t => (t.ra.fDst, t.ra.crc, t.ra.st)) = some (0x0A, 0x44, .src) := by decide +kernel
/-- V5.7 -/
theorem test_stSrc : (after (.stSrc 0x05) (withRa fun r => { r with st := .src, crc := 0x44 })).map
    (fun t => (t.ra.fSrc, t.ra.crc, t.ra.st)) = some (0x05, 0x18, .seq) := by decide +kernel
/-- V5.8 -/
theorem test_stSeq : (after (.stSeq 0x07) (withRa fun r => { r with st := .seq, crc := 0x18, fLen := 2, idx := 9 })).map
    (fun t => (t.ra.fSeq, t.ra.crc, t.ra.idx, t.ra.st)) = some (0x07, 0xDC, 0, .pay) := by decide +kernel
/-- V5.9 -/
theorem test_stSeq_zero_length : (after (.stSeq 0x08) (withRa fun r => { r with st := .seq, crc := 0x57 })).map
    (fun t => (t.ra.crc, t.ra.st)) = some (0x9A, .chk) := by decide +kernel
/-- V5.10 -/
theorem test_stPay : (after (.stPay 0x48) (withRa fun r => { r with st := .pay, crc := 0xDC, fLen := 2 })).map
    (fun t => (t.ra.pay, t.ra.crc, t.ra.idx, t.ra.st)) = some ([(0, 0x48)], 0x70, 1, .pay) := by decide +kernel
/-- V5.11 -/
theorem test_stPay_last : (after (.stPay 0x69) (withRa fun r => { r with st := .pay, crc := 0x70, idx := 1, fLen := 2 })).map
    (fun t => (t.ra.crc, t.ra.idx, t.ra.st)) = some (0x01, 2, .chk) := by decide +kernel
/-- V5.12 -/
theorem test_stChk_delivers : (after (.stChk 0x01) (withRa frameB)).map
    (fun t => (wordsOf t.log, t.rb, t.ra.lastSeq.read 5, t.de)) =
    some ([0xCA81, 0xCA83], { up.rb with head := 2, cells := [(0, 0x48), (1, 0x69)] }, some 0x07,
      { up.de with ackPending := true, ackDst := 0x05, ackSeq := 0x07 }) := by decide +kernel
/-- V5.13 -/
theorem test_stChk_corrupted : (after (.stChk 0x00) (withRa frameB)).map
    (fun t => (wordsOf t.log, errorsOf t.log, t.rb, t.de, t.ra.st)) =
    some ([0xCA81, 0xCA83], [.frameCorruption], up.rb, up.de, .idle) := by decide
theorem test_stNone : exec .stNone up = .refused .noReceiveArm := by rfl

/-! ### The ring buffer and the facade -/

/-- V6.3: the byte goes to index 3 and `head` wraps. -/
theorem test_rbPut : (after (.rbPut 0x05) (withRb fun r => { r with head := 3, tail := 1 })).map
    (fun t => (t.rb.head, t.rb.cells)) = some (0, [(3, 0x05)]) := by decide
/-- V6.2 -/
theorem test_rbPut_full : (after (.rbPut 0x04) (withRb fun r => { r with head := 3 })).map
    (fun t => (t.rb.head, t.rb.cells, errorsOf t.log)) = some (3, [], [.bufferOverflow 0x04]) := by decide
/-- V6.3 -/
theorem test_rbGet : (after .rbGet (withRb fun r => { r with head := 3, cells := [(0, 0x01)] })).map
    (fun t => (t.rb.tail, t.answer)) = some (1, .byte 0x01) := by decide
/-- V6.7 -/
theorem test_hasData : seen .hasData (withRb fun r => { r with head := 2, tail := 2 }) = some ([], [], .bit false) ∧
    seen .hasData (withRb fun r => { r with head := 2 }) = some ([], [], .bit true) := by decide
/-- V6.4, P1 step 13 -/
theorem test_readByte : (after .readByte (withRb fun r => { r with tail := 3, cells := [(3, 0x69)] })).map
    (fun t => (t.rb.tail, t.answer)) = some (0, .byte 0x69) ∧ seen .readByte up = some ([], [], .noStep) := by decide
/-- V6.8 -/
theorem test_isBusy : seen .isBusy (withDe fun d => { d with awaitingAck := true }) = some ([], [], .bit true) ∧
    seen .isBusy up = some ([], [], .bit false) := by decide

/-! ### The delivery engine -/

/-- V7.1 -/
theorem test_enqB : (after (.enqB 0x01 0x05) up).map (fun t => (t.de.txDst, t.de.txBuf, t.de.txCnt, t.de.timeout)) =
    some (0x05, [(0, 0x01)], 1, 2) := by decide
/-- V7.3 -/
theorem test_enqB_second : (after (.enqB 0x03 0x06) (withDe fun d => { d with txDst := 0x05, txBuf := [(0, 1)], txCnt := 1, timeout := 1 })).map
    (fun t => (t.de.txDst, t.de.txCnt, t.de.timeout)) = some (0x06, 2, 1) := by decide
/-- P2 step 6 -/
theorem test_send : (after (.send true) (withDe pending3)).map
    (fun t => (wordsOf t.log, t.de.awaitingAck, t.de.timeout, t.de.retry, t.tci.mode)) =
    some ([0x8208, 0x8238, 0xB8AA, 0xB8AA, 0xB8AA, 0xB82D, 0xB8D4, 0xB801, 0xB803, 0xB805, 0xB80A, 0xB800, 0xB8AA, 0xB801,
      0xB802, 0xB803, 0xB88A, 0x8208, 0x82C8, 0xCA81, 0xCA83], true, 20, 3, .rx) := by decide +kernel
/-- P6 step 3 -/
theorem test_send_aborted : (after (.send true) (polls [true, true, true, false, false, false] (withDe pending3))).map
    (fun t => (wordsOf t.log, t.tci.mode, t.tci.hwFault, t.de.awaitingAck, t.de.retry)) =
    some ([0x8208, 0x8238, 0xB8AA, 0xB8AA, 0xB8AA], .tx, true, false, 0) := by decide +kernel
/-- V7.11 -/
theorem test_tick_abandons : (after .tick (withDe fun d => { pending3 d with awaitingAck := true, txSeq := 4 })).map
    (fun t => (errorsOf t.log, t.de.timeout, t.de.awaitingAck, t.de.txSeq, t.de.txCnt)) =
    some ([.deliveryFailure 0x05 0x04], 0, false, 5, 0) := by decide
/-- V7.16 -/
theorem test_tick_confirms : (after .tick (withDe fun d => { d with ackPending := true, ackDst := 0x05, ackSeq := 0x07 })).map
    (fun t => (wordsOf t.log, t.de.ackPending)) =
    some ([0x8208, 0x8238, 0xB8AA, 0xB8AA, 0xB8AA, 0xB82D, 0xB8D4, 0xB802, 0xB800, 0xB8AA, 0xB805, 0xB80A, 0xB807, 0xB8D2,
      0x8208, 0x82C8, 0xCA81, 0xCA83], false) := by decide +kernel
/-- An outstanding send to node 05 and a confirmation received from it (V5.17). -/
def confirmable (src : Byte) : State :=
  { withDe (fun d => { pending3 d with awaitingAck := true, timeout := 7 }) with ra := { up.ra with fSrc := src } }
/-- V5.17 -/
theorem test_ackRx : (after .ackRx (confirmable 0x05)).map (fun t => (t.de.awaitingAck, t.de.txSeq, t.de.txCnt, t.de.timeout)) =
    some (false, 1, 0, 0) := by decide
/-- V7.13 -/
theorem test_ackRx_other : (after .ackRx (confirmable 0x06)).map (fun t => (t.de.awaitingAck, t.de.txSeq, t.de.timeout)) =
    some (true, 0, 7) := by decide
/-- V7.16 -/
theorem test_ackTx : (after .ackTx (withDe fun d => { d with ackPending := true, ackDst := 0x05, ackSeq := 0x07, retry := 2 })).map
    (fun t => ((wordsOf t.log)[13]?, t.de.ackPending, t.de.retry)) = some (some 0xB8D2, false, 2) := by decide +kernel
theorem test_reserved_codes : exec .opRsvd10111 up = .refused (.reservedOperation 0x17) ∧
    exec (.opRsvd11xxx 5) up = .refused (.reservedOperation 0x1D) := by exact ⟨rfl, rfl⟩

/-! ### Raw bytes, types, command words -/

/-- V4.10, V4.8: the escape alone. -/
theorem test_rawFill00 : seen .rawFill00 (feed [0x00AA] up) = some ([0xB000], [], .byte 0x00) ∧
    seen .rawFill00 (inMode .tx) = some ([0xB8AA], [], .byte 0x00) := by decide
theorem test_rawFillFF : seen .rawFillFF (feed [0x0012] up) = some ([0xB000], [], .byte 0xFF) ∧
    seen .rawFillFF (inMode .tx) = some ([0xB8AA], [], .byte 0xFF) := by decide
theorem test_rawPlain : seen (.rawPlain 0x48) up = some ([], [], .byte 0x48) := by decide
/-- V5.14 -/
theorem test_typeData_duplicate : (after .typeData (withRa fun r => { frameB r with lastSeq := [(5, 0x07)] })).map
    (fun t => (t.rb.head, t.ra.lastSeq, t.de.ackPending)) = some (0, [(5, 0x07)], true) := by decide
/-- V5.17 -/
theorem test_typeAck : (after .typeAck (confirmable 0x05)).map (fun t => (t.de.awaitingAck, t.de.txSeq)) = some (false, 1) := by decide
/-- V5.16 -/
theorem test_typeRsvd : (after (.typeRsvd 0x7F) (withRa frameB)).map (fun t => (t.rb.head, t.ra.lastSeq, t.de.ackPending)) =
    some (0, [], false) := by decide
/-- R94, V4: each fixed role sends its word. -/
theorem test_cw_fixed : [(Instr.cwFifoStop, 0xCA81), (.cwFifoArm, 0xCA83), (.cwInit0, 0xC0E0), (.cwInit1, 0x80D7),
    (.cwInit2, 0xC2AB), (.cwInit3, 0xCA81), (.cwInit4, 0xE000), (.cwInit5, 0xC800), (.cwInit6, 0xC4F7), (.cwIdle, 0x8208),
    (.cwRxOn, 0x82C8), (.cwTxOn, 0x8238), (.cwStatus, 0x0000)].all
      (fun x => seen x.1 (feed [0x1234] start) == some ([x.2], [], .word 0x1234)) = true := by decide
/-- V4.9 -/
theorem test_cwRxRead : seen .cwRxRead (feed [0x8048] up) = some ([0xB000], [], .byte 0x48) := by decide
/-- V4.8, V4.2 -/
theorem test_cw_data : [(Instr.cwTxWrite 0x7E, 0xB87E), (.cwRate 0x23, 0xC623), (.cwFreq 0x550, 0xA550), (.cwTxCfg 0x150, 0x9950),
    (.cwRxCfg 0x5C0, 0x95C0)].all (fun x => seen x.1 (feed [0x1234] up) == some ([x.2], [], .word 0x1234)) = true := by decide

/-! ### For each obligation with hypotheses: states and operands that meet them, one for each clause -/

/-- `up` with a frame reception in state `x` under way, its counters at `wd`, `idx` and `fLen`. -/
def receiving (x : RxState) (wd : BitVec 9) (idx len : Byte) : State :=
  withRa fun r => { r with st := x, wd := wd, idx := idx, fLen := len }

/-- Frame B at its checksum, to this node, with what `f` changes. -/
def atChk (f : Ra → Ra) : State := withRa fun r => f (frameB r)

/-- A send outstanding, its timeout at `timeout` and `retry` retries left. -/
def outstanding (timeout retry : Byte) : State :=
  withDe fun d => { pending3 d with awaitingAck := true, timeout := timeout, retry := retry }

theorem witness_EncodedInstructionsDecodeBack : ([.config (2 ^ 32 - 1) 3 (2 ^ 32 - 1) .noisy, .rawPlain 0x01, .rawPlain 0xFE,
    .typeRsvd 0x00, .typeRsvd 0x03, .cwInit3] : List Instr).all Instr.wf = true ∧
    (Instr.frameEnc 1 2 3 4 (List.replicate 255 0)).wf = true := by decide +kernel

theorem witness_ReservedCodesAreRefused : 32 ≤ (0x20 : Byte).toNat ∧ 8 ≤ (0x08 : Byte).toNat ∧
    (∃ (b : Byte) (rest : List Byte), b = 0x04 ∧ 4 ≤ b.toNat ∧ rest.length = 5 ∧ 5 ≤ rest.length) ∧
    ∀ w ∈ ([0xFFFF, 0x0001, 0xCA82, 0xB001, 0x9A00] : List Word),
      ∀ row ∈ ([(0xFFFF, 0xCA81), (0xFFFF, 0xCA83), (0xFFFF, 0xC0E0), (0xFFFF, 0x80D7), (0xFFFF, 0xC2AB),
        (0xFFFF, 0xCA81), (0xFFFF, 0xE000), (0xFFFF, 0xC800), (0xFFFF, 0xC4F7), (0xFFFF, 0x8208), (0xFFFF, 0x82C8),
        (0xFFFF, 0x8238), (0xFFFF, 0xB000), (0xFF00, 0xB800), (0xFF00, 0xC600), (0xF000, 0xA000), (0xFE00, 0x9800),
        (0xF800, 0x9000), (0xFFFF, 0x0000)] : List (Word × Word)), w &&& row.1 ≠ row.2 :=
  ⟨by decide, by decide, ⟨0x04, [0, 0, 0, 0, 0], rfl, by decide, rfl, by decide⟩, by simp⟩

/-- A MAIN operation with a step and one without, and rows standing alone that fault and that are refused. -/
theorem witness_StepRunsTheDecodedInstruction :
    ∀ x ∈ [(turned .main [encode .setRx] up, Turn.main, Instr.setRx),
      (turned .main [encode .readByte] up, .main, .readByte),
      (turned (.alone (encode (.stPay 0))) [] (receiving .pay 0 200 255), .alone (encode (.stPay 0)), .stPay 0),
      (turned (.alone (encode .stNone)) [] up, .alone (encode .stNone), .stNone)],
    cfgWf x.1.cfg = true ∧ fetch x.1 = .start x.2.1 (encode x.2.2) { x.1 with env := { x.1.env with turns := [], mainOps := [] } } ∧
      decode (encode x.2.2) = .ok (x.2.2, []) ∧ x.2.2.wf = true ∧ x.2.1.admits x.2.2 = true := by
  intro x hx
  rcases List.mem_cons.1 hx with rfl | hx <;> [skip; rcases List.mem_cons.1 hx with rfl | hx <;>
    [skip; rcases List.mem_pair.1 hx with rfl | rfl]] <;> exact ⟨by decide, rfl, rfl, rfl, rfl⟩

theorem witness_StepRunsTheDecodedInstruction_refusals :
    (∃ (s : State) (r : Request) (i : Instr), cfgWf s.cfg = true ∧ s.env.turns = .main :: [] ∧ s.env.mainOps = r :: [] ∧
      decode r = .ok (i, []) ∧ i ∉ [Instr.init, .setRx, .setIdle, .hasData, .readByte, .isBusy] ∧
      (∀ baud chan power e, i ≠ .config baud chan power e) ∧ ∀ b dst, i ≠ .enqB b dst) ∧
    (∃ (s t : State) (r : Request) (e : DecodeError), cfgWf s.cfg = true ∧ fetch s = .start .main r t ∧
      decode r = .error e) ∧
    ∃ s : State, ¬ (2 ≤ s.cfg.preamble.length ∧ s.cfg.typeAck ≠ s.cfg.typeData ∧ 2 ≤ s.cfg.rbSize ∧ s.cfg.ackTimeout ≠ 0 ∧
      s.cfg.fillTimeout ≠ 0 ∧ 1 ≤ s.cfg.pollLimit ∧ s.cfg.cwTxWrite.extractLsb' 0 8 = 0) :=
  ⟨⟨turned .main [encode (.send true)] up, _, .send true, by decide, rfl, rfl, rfl, by decide, by simp, by simp⟩,
    ⟨turned .main [⟨.op, [0x20]⟩] up, _, _, _, by decide, rfl, rfl⟩,
    ⟨{ up with cfg := { up.cfg with rbSize := 1 } }, by decide⟩⟩

/-- R100, R298: MAIN asks for SEND; a ring buffer of one slot. -/
theorem test_step_refuses : step (turned .main [encode (.send true)] up) = .refused .notStartedByMain ∧
    step { up with cfg := { up.cfg with rbSize := 1 } } = .refused .notAConfiguration := ⟨rfl, rfl⟩

theorem witness_EventsStartTheirHandlers : cfgWf up.cfg = true ∧ (turned .rxi [] up).env.turns = [.rxi] ∧
    (turned .tmi [] up).env.turns = [.tmi] := by decide

theorem witness_WaitingMainOperationIsKept :
    (∀ x ∈ [(up, Instr.readByte), (start, .enqB 1 5), (outstanding 20 3, .enqB 1 5), (up, .init),
        (start, .config 9600 2 5 .noisy), (start, .setRx), (start, .setIdle)],
      cfgWf (turned .main [encode x.2] x.1).cfg = true ∧ (turned .main [encode x.2] x.1).env.turns = .main :: [] ∧
        (turned .main [encode x.2] x.1).env.mainOps = encode x.2 :: []) ∧
    up.rb.head = up.rb.tail ∧ start.tci.initDone = false ∧ (outstanding 20 3).de.awaitingAck = true ∧
    up.tci.initDone = true ∧ start.tci.mode = .off ∧ 9600 < 2 ^ 32 := by decide

theorem witness_NoStepClearsTheFaultFlag :
    stepAnswer (turned .main [encode .setRx] { up with tci := { up.tci with hwFault := true } }) = some .unit := by
  decide +kernel

theorem witness_WaitRdyReturnsOrLatchesTheFault : 2 < up.cfg.pollLimit ∧
    (polls [false, false, true] up).env.readies = List.replicate 2 false ++ true :: [] ∧
    (polls [false, false, false] up).env.readies = List.replicate up.cfg.pollLimit false ++ [] := by decide

theorem witness_InitArmsTheReceiver : start.tci.initDone = false := by decide

theorem witness_ConfigSendsItsFourWords : up.tci.initDone = true := by decide

theorem witness_ModeOperationsSwitchTheMode : up.tci.mode ≠ .off ∧ (inMode .idle).tci.mode ≠ .off := by decide

theorem witness_TxByteSendsTheByteAndItsEscape : (inMode .tx).tci.mode = .tx ∧
    willing (if (0x00 : Byte) = 0x00 ∨ (0x00 : Byte) = 0xFF then 2 else 1) (inMode .tx) ∧
    willing (if (0xFE : Byte) = 0x00 ∨ (0xFE : Byte) = 0xFF then 2 else 1) (inMode .tx) :=
  ⟨rfl, willing_up _ _ (by decide) rfl rfl, willing_up _ _ (by decide) rfl rfl⟩

theorem witness_RxByteReadsOneLogicalByte :
    (∃ (s : State) (v : Byte), s.tci.mode = .rx ∧ v = s.exchange.1.extractLsb' 0 8 ∧ v = (0xFF : Byte) ∧ willing 2 s) ∧
    (∃ (s : State) (v : Byte), s.tci.mode = .rx ∧ v = s.exchange.1.extractLsb' 0 8 ∧ v = (0x01 : Byte) ∧ willing 1 s) :=
  ⟨⟨feed [0x80FF] up, _, rfl, rfl, rfl, willing_up _ _ (by decide) rfl rfl⟩,
    ⟨feed [0x8001] up, _, rfl, rfl, rfl, willing_up _ _ (by decide) rfl rfl⟩⟩

theorem witness_DisabledOperationsHaveNoStep : up.tci.initDone = true ∧ start.tci.initDone = false ∧
    start.tci.mode = .off ∧ up.tci.mode ≠ .tx ∧ (inMode .tx).tci.mode ≠ .rx ∧ { up.tci with rxIrqEn := false }.rxIrqEn = false ∧
    up.rb.head = up.rb.tail ∧ (outstanding 20 3).de.awaitingAck = true ∧ up.de.txCnt = 0 ∧
    (receiving .chk 0 0 0).ra.st ≠ .idle ∧ ([.len, .dst, .src, .seq, .pay, .chk] : List RxState).all (· != up.ra.st) = true := by
  decide

theorem witness_CommandWordRowsSendTheirWord : up.cfg.initSeq[0]? = some 0xC0E0 ∧ up.cfg.initSeq[6]? = some 0xC4F7 ∧
    { up.cfg with initSeq := [0xC0E0] }.initSeq[1]? = none := by decide

theorem witness_RawClassesAddTheirEscape : up.tci.mode = .rx ∧ willing 1 up ∧ (inMode .tx).tci.mode = .tx ∧
    willing 1 (inMode .tx) ∧ start.tci.mode = .off ∧ (inMode .idle).tci.mode = .idle ∧ (0x01 : Byte) ≠ 0x00 ∧
    (0xFE : Byte) ≠ 0xFF :=
  ⟨rfl, willing_up _ _ (by decide) rfl rfl, rfl, willing_up _ _ (by decide) rfl rfl, rfl, rfl, by decide, by decide⟩

theorem witness_Crc8UpdIsEightRounds :
    (0x5E : Byte) = (fun x : Byte => if x.getLsbD 0 then (x >>> 1) ^^^ up.cfg.crcPoly else x >>> 1)^[8] (0x00 ^^^ 0x01) := by
  decide +kernel

theorem witness_OneByteChangeChangesTheCrc : refCfg.crcPoly.getLsbD 7 = true ∧ (0x01 : Byte) ≠ 0 := by decide

theorem witness_FrameEncSendsTheStuffedFrame : (inMode .tx).tci.mode = .tx ∧
    [0x01, 0x03, 0x05, 0x0A, 0x00, 0x01, 0x02, 0x03] =
      [0x01, BitVec.ofNat 8 (min [0x01, 0x02, 0x03].length 128), 0x05, 0x0A, 0x00] ++ ([0x01, 0x02, 0x03] : List Byte).take 128 ∧
    ([0xAA, 0xAA, 0xAA, 0x2D, 0xD4, 0x01, 0x03, 0x05, 0x0A, 0x00, 0xAA, 0x01, 0x02, 0x03, 0x8A] : List Byte) =
      stuff (inMode .tx).cfg.esc ((inMode .tx).cfg.preamble ++ [0x01, 0x03, 0x05, 0x0A, 0x00, 0x01, 0x02, 0x03] ++
        [crc8 (inMode .tx).cfg [0x01, 0x03, 0x05, 0x0A, 0x00, 0x01, 0x02, 0x03]]) ∧
    willing 15 (inMode .tx) :=
  ⟨rfl, by decide, by decide +kernel, willing_up _ _ (by decide) rfl rfl⟩

theorem witness_EncodedFrameIsAccepted : (∃ (t d src q : Byte) (p l : List Byte), p.length ≤ 128 ∧ p.length = 128 ∧
    l = body t d src q p ++ [crc8 refCfg (body t d src q p)]) ∧
    (0x00 : Byte) ≠ crc8 refCfg (body 0x01 0x0A 0x05 0x07 [0x48, 0x69]) ∧
    (body 0x01 0x0A 0x05 0x07 [0x48, 0x69])[1]? = some 0x02 ∧ ([0x01] : List Byte).length < 2 :=
  ⟨⟨0x01, 0x0A, 0x05, 0x07, List.replicate 128 0x55, _, by decide +kernel, by decide +kernel, rfl⟩, by decide +kernel,
    rfl, by decide⟩

/-- ENV feeding the stuffed body of frame B, and of the frame without payload (V3.5). -/
def feeding (raw : List Byte) : State := feed (raw.map fun b => 0x8000 ||| b.setWidth 16) up

theorem witness_ReceiverReadsBackTheEncodedFrame : ∀ p ∈ ([[0x48, 0x69], []] : List (List Byte)),
    ∃ s : State, p.length ≤ 128 ∧ s.tci.mode = .rx ∧ s.tci.rxIrqEn = true ∧ s.ra.st = .idle ∧
      feeds s (stuff 0xAA (body 0x01 0x0A 0x05 0x08 p)) ∧
      willing (stuff 0xAA (body 0x01 0x0A 0x05 0x08 p)).length s := by
  intro p hp
  refine ⟨feeding (stuff 0xAA (body 0x01 0x0A 0x05 0x08 p)), ?_, rfl, rfl, rfl, ?_, willing_up _ _ ?_ rfl rfl⟩ <;>
    rcases List.mem_pair.1 hp with rfl | rfl
  all_goals first | decide | (unfold feeds; decide)

theorem witness_HeaderArmsReadTheirField : up.ra.st = .idle ∧
    ([.len, .dst, .src, .seq] : List RxState).all (fun x => (receiving x 0 0 0).ra.st == x) = true := by decide

theorem witness_PayArmStoresOneByte : (receiving .pay 0 0 1).ra.st = .pay ∧
    (receiving .pay 0 0 1).ra.idx.toNat < (receiving .pay 0 0 1).ra.fLen.toNat ∧
    (receiving .pay 0 127 128).ra.idx.toNat < (receiving .pay 0 127 128).ra.fLen.toNat ∧
    (receiving .pay 0 127 128).ra.fLen.toNat ≤ 128 := by decide

theorem witness_ChkArmDeliversNothing : (atChk id).ra.st = .chk ∧ (0x00 : Byte) ≠ (atChk id).ra.crc ∧
    (atChk fun r => { r with fDst := 0x0B }).ra.fDst ≠ up.cfg.myAddr ∧
    (atChk fun r => { r with fType := 0x7F }).ra.fType ≠ up.cfg.typeData ∧
    (atChk fun r => { r with fType := 0x7F }).ra.fType ≠ up.cfg.typeAck ∧
    (atChk fun r => { r with lastSeq := [(5, 0x07)] }).ra.lastSeq.read 5 = some (atChk id).ra.fSeq := by decide

/-- Frame B at its checksum, the ring buffer empty with `n` slots: with 2 slots its second byte finds no room. -/
def withSlots (n : Nat) : State := { atChk id with cfg := { up.cfg with rbSize := n } }

theorem witness_ChkArmDeliversANewFrame : ∀ n ∈ [256, 2], ∃ (s : State) (p : List Byte), s.cfg.rbSize = n ∧
    s.ra.st = .chk ∧ s.ra.fDst = s.cfg.myAddr ∧ s.ra.fType = s.cfg.typeData ∧
    s.ra.lastSeq.read s.ra.fSrc.toNat ≠ some s.ra.fSeq ∧ p.length = s.ra.fLen.toNat ∧ p.length ≤ 128 ∧
    holdsAt s.ra.pay p ∧ s.ringOk ∧ 2 ≤ s.cfg.rbSize ∧ (n = 2 → s.freeSlots < p.length) := by
  intro n hn
  refine ⟨withSlots n, [0x48, 0x69], rfl, rfl, rfl, rfl, ?_, rfl, by decide, ?_, ?_, ?_, ?_⟩ <;>
    rcases List.mem_pair.1 hn with rfl | rfl
  all_goals first | decide | (unfold holdsAt; decide) | (unfold State.ringOk; decide)

theorem witness_ChkArmTakesAConfirmation : ∃ s : State, s.ra.st = .chk ∧ s.ra.fDst = s.cfg.myAddr ∧
    s.ra.fType = s.cfg.typeAck ∧ s.cfg.typeAck ≠ s.cfg.typeData :=
  ⟨atChk fun r => { r with fType := 0x02 }, rfl, rfl, rfl, by decide⟩

theorem witness_RxEvtRunsTheSelectedArm : ∀ x : RxState, ∃ (s : State) (b : Byte), s.ra.st = x ∧ s.tci.mode = .rx ∧ s.tci.rxIrqEn = true ∧
    b = s.exchange.1.extractLsb' 0 8 ∧ willing (if b = 0x00 ∨ b = 0xFF then 2 else 1) s ∧
    (s.ra.st.watched = true → s.ra.wd.toNat + 1 ≤ 256) :=
  fun x => ⟨feed [0x00FF] (receiving x 255 0 2), _, rfl, rfl, rfl, rfl,
    willing_up _ _ (by split <;> omega) rfl rfl, fun _ => by cases x <;> decide⟩

theorem witness_WatchdogForcesIdle : ∀ x : RxState, x.watched = true → ∀ wd ∈ ([256, 511] : List (BitVec 9)),
    ∃ (s : State) (b : Byte), s.ra.st = x ∧ s.ra.wd = wd ∧ s.tci.mode = .rx ∧ s.tci.rxIrqEn = true ∧
      b = s.exchange.1.extractLsb' 0 8 ∧ willing (if b = 0x00 ∨ b = 0xFF then 2 else 1) s ∧
      s.ra.st.watched = true ∧ 256 < s.ra.wd.toNat + 1 := by
  intro x h wd hw
  refine ⟨feed [0x0001] (receiving x wd 0 2), _, rfl, rfl, rfl, rfl, rfl, willing_up _ _ (by split <;> omega) rfl rfl, h, ?_⟩
  rcases List.mem_pair.1 hw with rfl | rfl <;> cases x <;> decide

theorem witness_ReceiveStateFollowsTheGraph : ([.idle, .len, .dst, .src, .seq, .pay, .chk] : List RxState).all (fun x =>
    ((after .rxEvt (feed [0x0001] (receiving x 255 0 2))).map fun t => t.answer) == some .unit) = true ∧
    ((after .rxEvt (feed [0x0001] (receiving .seq 256 0 0))).map fun t => t.answer) = some .unit := by decide +kernel

theorem witness_RxEvtAbortKeepsTheFrameState :
    ((after .rxEvt (polls [false, false, false] (receiving .dst 1 0 0))).map fun t => t.answer) = some .aborted ∧
    ((after .rxEvt (feed [0x0000] (polls [true, false, false, false] (receiving .dst 1 0 0)))).map fun t => t.answer) =
      some .aborted := by decide

theorem witness_RxEvtNeverTransmits : (after .rxEvt (feed [0x0001] (atChk id))).isSome = true := by decide +kernel

/-- RXI next, the receiver in state DST, ENV willing. -/
def rxiNext : State := turned .rxi [] (feed [0x0001] (receiving .dst 1 0 0))

theorem rxiNext_lawful : Lawful rxiNext :=
  ⟨⟨rfl, by decide, by decide, by decide, by decide⟩, fun _ => ⟨by decide, by decide, by decide, by decide, by decide,
    by decide, by decide, by decide, by decide, by decide +kernel, by decide⟩⟩

theorem witness_WatchdogIsNeverReached : Lawful rxiNext ∧ rxiNext.tci.hwFault = false ∧
    ((after .rxEvt rxiNext).map fun t => t.answer) = some .unit :=
  ⟨rxiNext_lawful, rfl, by decide +kernel⟩

theorem witness_RbPutStoresOrDrops : (withRb fun r => { r with head := 3 }).ringOk ∧
    ((withRb fun r => { r with head := 3 }).rb.head + 1) % 4 = (withRb fun r => { r with head := 3 }).rb.tail ∧
    (withRb fun r => { r with head := 3, tail := 1 }).ringOk ∧
    ((withRb fun r => { r with head := 3, tail := 1 }).rb.head + 1) % 4 ≠ (withRb fun r => { r with head := 3, tail := 1 }).rb.tail := by
  unfold State.ringOk
  decide

theorem witness_ReadingTakesTheByteAtTail : ∃ (s : State) (b : Byte), s.rb.head ≠ s.rb.tail ∧ s.ringOk ∧
    s.rb.tail + 1 = s.cfg.rbSize ∧ s.rb.cells.read s.rb.tail = some b :=
  ⟨withRb fun r => { r with tail := 3, cells := [(3, 0x69)] }, 0x69, by decide, by unfold State.ringOk; decide, rfl, rfl⟩

theorem witness_RingBufferIsAQueue : 2 ≤ (withRb id).cfg.rbSize ∧ (withRb id).ringOk ∧ (withRb id).queue.length < 3 ∧
    (withRb fun r => { r with head := 3 }).queue.length = 3 ∧
    (withRb fun r => { r with tail := 3, cells := [(3, 0x69)] }).queue = some 0x69 :: [] := by
  unfold State.ringOk
  decide

theorem witness_EnqBStoresOneByte : ∀ n ∈ [0, 126], ∃ s : State, s.de.txCnt.toNat = n ∧ s.tci.initDone = true ∧
    s.de.awaitingAck = false ∧ s.de.txCnt.toNat < 127 := by
  intro n hn
  refine ⟨withDe (pendingZeros n), ?_, rfl, rfl, ?_⟩ <;> rcases List.mem_pair.1 hn with rfl | rfl <;> decide

theorem witness_EnqBAtCapacitySends : ∃ (s : State) (p : List Byte), s.tci.initDone = true ∧ s.de.awaitingAck = false ∧ s.tci.mode ≠ .off ∧
    s.de.txCnt.toNat = 127 ∧ pendingIs s p ∧ willingFrame 0x01 0x05 0x0A 0 (p ++ [0x01]) 1 s :=
  ⟨withDe (pendingZeros 127), List.replicate 127 0, rfl, rfl, by decide, rfl, by unfold pendingIs holdsAt; decide +kernel,
    willingFrame_any rfl rfl rfl⟩

theorem witness_SendTransmitsThePayload :
    (∃ (s : State) (p : List Byte), s.tci.initDone = true ∧ s.de.txCnt ≠ 0 ∧ s.de.txCnt.toNat ≤ 128 ∧ s.tci.mode ≠ .off ∧ pendingIs s p ∧
      p.length = 3 ∧ willingFrame s.cfg.typeData s.de.txDst s.cfg.myAddr s.de.txSeq p 1 s) ∧
    (∃ (s : State) (p : List Byte), s.tci.initDone = true ∧ s.de.txCnt ≠ 0 ∧ s.de.txCnt.toNat ≤ 128 ∧ s.tci.mode ≠ .off ∧ pendingIs s p ∧
      p.length = 128 ∧ willingFrame s.cfg.typeData s.de.txDst s.cfg.myAddr s.de.txSeq p 1 s) :=
  ⟨⟨withDe pending3, [0x01, 0x02, 0x03], rfl, by decide, by decide, by decide, by unfold pendingIs holdsAt; decide, rfl,
    willingFrame_any rfl rfl rfl⟩,
    ⟨withDe (pendingZeros 128), List.replicate 128 0, rfl, by decide, by decide, by decide,
      by unfold pendingIs holdsAt; decide +kernel, by decide +kernel, willingFrame_any rfl rfl rfl⟩⟩

theorem witness_AbortedSendStaysInTransmitMode :
    ((after (.send true) (polls [true, true, true, false, false, false] (withDe pending3))).map fun t => t.answer) =
      some .aborted := by decide +kernel

theorem witness_TickCountsTheTimeoutDown : (∃ s : State, s.de.ackPending = false ∧ s.de.timeout = 0) ∧
    (∃ s : State, s.de.ackPending = false ∧ s.de.timeout = 2 ∧ 1 < s.de.timeout.toNat) ∧
    (∃ s : State, s.de.ackPending = false ∧ s.de.timeout = 255 ∧ 1 < s.de.timeout.toNat) ∧
    (∃ s : State, s.de.ackPending = false ∧ s.de.timeout = 1 ∧ s.de.awaitingAck = false ∧ s.de.txCnt = 0) :=
  ⟨⟨up, rfl, rfl⟩, ⟨outstanding 2 3, rfl, rfl, by decide⟩, ⟨outstanding 255 3, rfl, rfl, by decide⟩,
    ⟨withDe fun d => { d with timeout := 1 }, rfl, rfl, rfl, rfl⟩⟩

theorem witness_TickRetransmitsOrAbandons :
    (∃ (s : State) (p : List Byte), s.de.ackPending = false ∧ s.de.timeout = 1 ∧ s.de.awaitingAck = true ∧ s.de.retry ≠ 0 ∧
      s.tci.initDone = true ∧ s.tci.mode ≠ .off ∧ s.de.txCnt ≠ 0 ∧ s.de.txCnt.toNat ≤ 128 ∧ pendingIs s p ∧
      willingFrame s.cfg.typeData s.de.txDst s.cfg.myAddr s.de.txSeq p 1 s) ∧
    (∃ s : State, s.de.ackPending = false ∧ s.de.timeout = 1 ∧ s.de.awaitingAck = true ∧ s.de.retry = 0) :=
  ⟨⟨outstanding 1 1, [0x01, 0x02, 0x03], rfl, rfl, rfl, by decide, rfl, by decide, by decide, by decide,
    by unfold pendingIs holdsAt; decide, willingFrame_any rfl rfl rfl⟩, ⟨outstanding 1 0, rfl, rfl, rfl, rfl⟩⟩

theorem witness_TickSendsPendingBytes : ∃ (s : State) (p : List Byte), s.de.ackPending = false ∧ s.de.timeout = 1 ∧ s.de.awaitingAck = false ∧
    s.tci.initDone = true ∧ s.tci.mode ≠ .off ∧ s.de.txCnt ≠ 0 ∧ s.de.txCnt.toNat ≤ 128 ∧ pendingIs s p ∧
    willingFrame s.cfg.typeData s.de.txDst s.cfg.myAddr s.de.txSeq p 1 s :=
  ⟨withDe pending3, [0x01, 0x02, 0x03], rfl, rfl, rfl, rfl, by decide, by decide, by decide,
    by unfold pendingIs holdsAt; decide, willingFrame_any rfl rfl rfl⟩

/-- A confirmation to send to node 05 (V7.16, V7.17). -/
def confirming : State := withDe fun d => { pending3 d with ackPending := true, ackDst := 0x05, ackSeq := 0x07 }

theorem witness_TickConfirmsFirst : confirming.de.ackPending = true ∧ confirming.tci.initDone = true ∧
    confirming.tci.mode ≠ .off ∧ (confirming.de.awaitingAck = true → confirming.de.txCnt ≠ 0) ∧
    willingFrame 0x02 0x05 0x0A 0x07 [] 1 confirming :=
  ⟨rfl, rfl, by decide, by decide, willingFrame_any rfl rfl rfl⟩

theorem witness_AckRxEndsTheTransmission : (confirmable 0x05).de.awaitingAck = true ∧
    (confirmable 0x05).ra.fSrc = (confirmable 0x05).de.txDst ∧ (confirmable 0x05).ra.fSeq = (confirmable 0x05).de.txSeq ∧
    ¬ ((confirmable 0x06).de.awaitingAck = true ∧ (confirmable 0x06).ra.fSrc = (confirmable 0x06).de.txDst ∧
      (confirmable 0x06).ra.fSeq = (confirmable 0x06).de.txSeq) := by decide

theorem witness_AckTxSendsTheConfirmation : confirming.tci.initDone = true ∧ confirming.tci.mode ≠ .off ∧
    willingFrame 0x02 0x05 0x0A 0x07 [] 1 confirming :=
  ⟨rfl, by decide, willingFrame_any rfl rfl rfl⟩

theorem witness_TypeClassesTakeTheirBranch : (∃ s : State, s.ra.lastSeq.read s.ra.fSrc.toNat = some s.ra.fSeq) ∧
    (∃ (s : State) (p : List Byte), s.ra.lastSeq.read s.ra.fSrc.toNat ≠ some s.ra.fSeq ∧ p.length = s.ra.fLen.toNat ∧
      p.length ≤ 128 ∧ holdsAt s.ra.pay p ∧ s.ringOk ∧ 2 ≤ s.cfg.rbSize ∧ s.freeSlots < p.length) :=
  ⟨⟨atChk fun r => { r with lastSeq := [(5, 0x07)] }, rfl⟩, ⟨withSlots 2, [0x48, 0x69], by decide, rfl, by decide,
    by unfold holdsAt; decide, by unfold State.ringOk; decide, by decide, by decide⟩⟩

theorem witness_RetriesRunOut : cfgWf (outstanding 20 3).cfg = true ∧ (outstanding 20 3).tci.initDone = true ∧
    (outstanding 20 3).tci.mode ≠ .off ∧ (outstanding 20 3).de.ackPending = false ∧ (outstanding 20 3).de.awaitingAck = true ∧
    (outstanding 20 3).de.timeout = (outstanding 20 3).cfg.ackTimeout ∧
    (outstanding 20 3).de.retry = (outstanding 20 3).cfg.retryBudget ∧ (outstanding 20 3).de.txCnt ≠ 0 ∧
    (outstanding 20 3).de.txCnt.toNat ≤ 128 ∧ pendingIs (outstanding 20 3) [0x01, 0x02, 0x03] ∧
    willingFrame 0x01 0x05 0x0A 0 [0x01, 0x02, 0x03] 3 (outstanding 20 3) :=
  ⟨by decide, rfl, by decide, rfl, rfl, rfl, rfl, by decide, by decide, by unfold pendingIs holdsAt; decide,
    willingFrame_up 45 (by decide +kernel) (by decide) rfl rfl⟩

theorem witness_ResetMeetsTheInvariant : cfgWf refCfg = true ∧
    cfgWf { refCfg with rbSize := 2, pollLimit := 1, ackTimeout := 1, fillTimeout := 255, retryBudget := 0 } = true := by decide

theorem witness_StepKeepsTheInvariant : rxiNext.ordinaryTurn = true ∧ Lawful rxiNext ∧ stepAnswer rxiNext = some .unit :=
  ⟨rfl, rxiNext_lawful, by decide +kernel⟩

theorem witness_SoundStatesNeverFault : rxiNext.ordinaryTurn = true ∧ Lawful rxiNext ∧ rxiNext.tci.hwFault = false :=
  ⟨rfl, rxiNext_lawful, rfl⟩

theorem witness_OnlyTableWordsAreSent : (turned .tmi [] confirming).ordinaryTurn = true ∧
    stepAnswer (turned .tmi [] confirming) = some .unit := by decide +kernel

theorem witness_StepKeepsTheBuffersCanonical : (turned .main [encode (.enqB 1 5)] (withDe fun d => { pending3 d with timeout := 2 })).memWf ∧
    stepAnswer (turned .main [encode (.enqB 1 5)] (withDe fun d => { pending3 d with timeout := 2 })) = some .unit :=
  ⟨by unfold State.memWf; decide, by decide +kernel⟩

theorem witness_ContextsWriteTheirOwnState : stepAnswer (turned .main [encode .setRx] up) = some .unit ∧
    stepAnswer (turned .rxi [] (feed [0x0001] (receiving .dst 1 0 0))) = some .unit ∧
    stepAnswer (turned .tmi [] confirming) = some .unit := by
  decide +kernel

/-- What an operation that a ready poll ended leaves: its answer, `tx_cnt`, `retry`, `timeout`, `ack_pending`. -/
def leaves (i : Instr) (s : State) : Option (Answer × (Byte × Byte × Byte) × Bool) :=
  (after i s).map fun t => (t.answer, (t.de.txCnt, t.de.retry, t.de.timeout), t.de.ackPending)

theorem witness_AbortedOperationsKeepTheirWrites :
    leaves .ackTx (polls [true, false, false, false] confirming) = some (.aborted, (3, 0, 1), true) ∧
    leaves (.enqB 1 5) (polls [false, false, false] (withDe (pendingZeros 127))) = some (.aborted, (128, 0, 0), false) ∧
    leaves .tick (polls [false, false, false] confirming) = some (.aborted, (3, 0, 1), true) ∧
    leaves .tick (polls [false, false, false] (outstanding 1 2)) = some (.aborted, (3, 1, 0), false) ∧
    leaves .tick (polls [false, false, false] (withDe pending3)) = some (.aborted, (3, 0, 0), false) ∧
    leaves .tick (polls (List.replicate 13 true ++ [false, false, false]) confirming) = some (.aborted, (3, 0, 0), false) :=
  ⟨by rfl, by decide +kernel, by rfl, by rfl, by rfl, by decide +kernel⟩

end Sys2Proof.Tests
end

/-! The step and the enabling conditions (00_scope.md: R7, R11, R73, R100): the step lemmas, the no-step lemma of each
operation, and the statements that rest on them. -/

namespace Sys2Proof.Machine

/-! ### The step, by what starts it -/

/-- The constraints of R5 and R298 (c) to (e), one by one. -/
theorem cfgWf_iff (c : Cfg) : cfgWf c = true ↔
    2 ≤ c.preamble.length ∧ c.typeAck ≠ c.typeData ∧ 2 ≤ c.rbSize ∧ c.ackTimeout ≠ 0 ∧ c.fillTimeout ≠ 0 ∧
      1 ≤ c.pollLimit ∧ c.cwTxWrite.extractLsb' 0 8 = 0 := by
  simp [cfgWf, and_assoc]

/-- MAIN's own operations (R100). -/
theorem inMain_iff (i : Instr) : inMain i = true ↔
    i ∈ [Instr.init, .setRx, .setIdle, .hasData, .readByte, .isBusy] ∨
      (∃ baud chan power e, i = .config baud chan power e) ∨ ∃ b dst, i = .enqB b dst := by
  cases i <;> simp [inMain]

/-- MAIN's turn takes the first operation of the caller's program (R73). -/
theorem fetch_main {s : State} {ts : List Turn} {r : Request} {l : List Request} (ht : s.env.turns = .main :: ts)
    (ho : s.env.mainOps = r :: l) : fetch s = .start .main r (s.dropTurn.setMainOps l) := by
  simp [fetch, ht, ho]

/-- A started request that decodes to an admitted instruction runs it (R7). -/
theorem step_start {s t : State} {turn : Turn} {r : Request} {i : Instr} {rest : List Byte}
    (hc : cfgWf s.cfg = true) (hf : fetch s = .start turn r t) (hd : decode r = .ok (i, rest))
    (ha : turn.admits i = true) : step s = finishTurn turn r (exec i t) := by
  simp [step, hc, hf, hd, ha]

/-- An instruction that is none of the turn's own is refused (R100). -/
theorem step_not_admitted {s t : State} {turn : Turn} {r : Request} {i : Instr} {rest : List Byte}
    (hc : cfgWf s.cfg = true) (hf : fetch s = .start turn r t) (hd : decode r = .ok (i, rest))
    (ha : turn.admits i = false) : step s = .refused .notStartedByMain := by
  simp [step, hc, hf, hd, ha]

/-- A request that spells no instruction is refused (R103). -/
theorem step_undecodable {s t : State} {turn : Turn} {r : Request} {e : DecodeError}
    (hc : cfgWf s.cfg = true) (hf : fetch s = .start turn r t) (hd : decode r = .error e) :
    step s = .refused (.undecodable e) := by
  simp [step, hc, hf, hd]

/-- In a configuration outside R5 and R298 every step is refused (U20). -/
theorem step_notAConfiguration {s : State} (hc : ¬ cfgWf s.cfg = true) : step s = .refused .notAConfiguration :=
  if_neg hc

/-- Settles O4: the step lemmas, one for each clause. -/
theorem stepRunsTheDecodedInstruction : Obligations.StepRunsTheDecodedInstruction := by
  refine ⟨fun s t turn r i rest hc hf hd _ ha => ?_, fun s ts r l i rest hc ht ho hd hi hconfig henqB => ?_,
    fun s t turn r e hc hf hd => step_undecodable hc hf hd,
    fun s hc => step_notAConfiguration (mt (cfgWf_iff s.cfg).1 hc)⟩
  · rw [step_start hc hf hd ha]
    exact ⟨fun u hu => by rw [hu]; rfl, fun f hx => by rw [hx]; rfl, fun e hx => by rw [hx]; rfl⟩
  · refine step_not_admitted hc (fetch_main ht ho) hd (Bool.eq_false_iff.2 fun hmain => ?_)
    rcases (inMain_iff i).1 hmain with hm | ⟨baud, chan, power, e, hm⟩ | ⟨b, dst, hm⟩
    · exact hi hm
    · exact hconfig baud chan power e hm
    · exact henqB b dst hm

/-! ### Operations that are not enabled (R11) -/

/-- A rule that has no step leaves only the mark of it (R11, log 8). -/
theorem conclude_noStep {α : Type} {s : State} {answerOf : α → Answer} {m : Res α} (h : m = .noStep) :
    conclude s answerOf m = .next (s.setAnswer .noStep) := by
  rw [h]; rfl

section
variable {s : State}

theorem exec_init_noStep (h : s.tci.initDone = true) : exec .init s = .next (s.setAnswer .noStep) :=
  conclude_noStep ((init_cases s).resolve_left (by simp [h])).2

theorem exec_config_noStep (h : s.tci.initDone = false) (baud : Nat) (chan : BitVec 2) (power : Nat) (e : Profile) :
    exec (.config baud chan power e) s = .next (s.setAnswer .noStep) :=
  conclude_noStep ((config_cases baud chan power e s).resolve_left (by simp [h])).2

theorem exec_setRx_noStep (h : s.tci.mode = .off) : exec .setRx s = .next (s.setAnswer .noStep) :=
  conclude_noStep ((setRx_cases s).resolve_left fun hr => hr.1 h).2

theorem exec_setTx_noStep (h : s.tci.mode = .off) : exec .setTx s = .next (s.setAnswer .noStep) :=
  conclude_noStep ((setTx_cases s).resolve_left fun hr => hr.1 h).2

theorem exec_setIdle_noStep (h : s.tci.mode = .off) : exec .setIdle s = .next (s.setAnswer .noStep) :=
  conclude_noStep ((setIdle_cases s).resolve_left fun hr => hr.1 h).2

theorem exec_txByte_noStep (h : s.tci.mode ≠ .tx) (v : Byte) : exec (.txByte v) s = .next (s.setAnswer .noStep) :=
  conclude_noStep ((txByte_cases v s).resolve_right (by simp [h])).2

theorem exec_frameEnc_noStep (h : s.tci.mode ≠ .tx) (t d src q : Byte) (p : List Byte) :
    exec (.frameEnc t d src q p) s = .next (s.setAnswer .noStep) :=
  conclude_noStep (frameEnc_noStep t d src q p s h)

theorem exec_rxByte_noStep (h : s.tci.mode ≠ .rx) : exec .rxByte s = .next (s.setAnswer .noStep) :=
  conclude_noStep ((rxByte_cases s).resolve_right (by simp [h])).2

theorem exec_rxEvt_noStep (h : s.tci.mode ≠ .rx ∨ s.tci.rxIrqEn = false) :
    exec .rxEvt s = .next (s.setAnswer .noStep) :=
  conclude_noStep ((rxEvt_cases s).resolve_right fun ⟨hm, hq, _⟩ => by simp [hm, hq] at h).2

theorem rbGet_noStep (h : s.rb.head = s.rb.tail) : rbGet s = .noStep :=
  ((rbGet_cases s).resolve_right (by simp [h])).2

theorem exec_rbGet_noStep (h : s.rb.head = s.rb.tail) : exec .rbGet s = .next (s.setAnswer .noStep) :=
  conclude_noStep (rbGet_noStep h)

theorem exec_readByte_noStep (h : s.rb.head = s.rb.tail) : exec .readByte s = .next (s.setAnswer .noStep) :=
  conclude_noStep ((readByte_eq s).trans (rbGet_noStep h))

/-- ENQB's "Enabled when" is false (R220). -/
theorem canEnqueue_eq_false_iff : s.canEnqueue = false ↔ s.tci.initDone = false ∨ s.de.awaitingAck = true := by
  simp [State.canEnqueue, imp_iff_not_or]

/-- SEND's "Enabled when" is false (R221). -/
theorem canSend_eq_false_iff : s.canSend = false ↔ s.tci.initDone = false ∨ s.de.txCnt = 0 := by
  simp [State.canSend, imp_iff_not_or]

theorem exec_enqB_noStep (h : s.tci.initDone = false ∨ s.de.awaitingAck = true) (b dst : Byte) :
    exec (.enqB b dst) s = .next (s.setAnswer .noStep) :=
  conclude_noStep ((enqB_cases b dst s).resolve_right (by simp [canEnqueue_eq_false_iff.2 h])).2

theorem exec_send_noStep (h : s.tci.initDone = false ∨ s.de.txCnt = 0) (first : Bool) :
    exec (.send first) s = .next (s.setAnswer .noStep) :=
  conclude_noStep (by simp [send, canSend_eq_false_iff.2 h])

theorem exec_ackTx_noStep (h : s.tci.initDone = false) : exec .ackTx s = .next (s.setAnswer .noStep) :=
  conclude_noStep ((ackTx_cases s).resolve_right (by simp [h])).2

/-- An arm standing alone has no step in another receive state (R99, log 13). -/
theorem concludeUnit_whenSt_noStep {x : RxState} {m : Res Unit} (h : s.ra.st ≠ x) :
    concludeUnit s (whenSt x s m) = .next (s.setAnswer .noStep) :=
  conclude_noStep (if_neg h)

end

/-- Settles O16: the no-step lemma of each operation. -/
theorem disabledOperationsHaveNoStep : Obligations.DisabledOperationsHaveNoStep := by
  intro s
  refine ⟨exec_init_noStep, exec_config_noStep, fun h i hi => ?modes,
    fun h v t d src q p => ⟨exec_txByte_noStep h v, exec_frameEnc_noStep h t d src q p⟩, exec_rxByte_noStep,
    exec_rxEvt_noStep, fun h i hi => ?reads, exec_enqB_noStep, exec_send_noStep, exec_ackTx_noStep, fun b => ?arms⟩
  case modes =>
    simp only [List.mem_cons, List.not_mem_nil, or_false] at hi
    rcases hi with rfl | rfl | rfl
    · exact exec_setRx_noStep h
    · exact exec_setTx_noStep h
    · exact exec_setIdle_noStep h
  case reads =>
    rcases List.mem_pair.1 hi with rfl | rfl
    · exact exec_rbGet_noStep h
    · exact exec_readByte_noStep h
  case arms =>
    exact ⟨concludeUnit_whenSt_noStep, concludeUnit_whenSt_noStep, concludeUnit_whenSt_noStep,
      concludeUnit_whenSt_noStep, concludeUnit_whenSt_noStep, concludeUnit_whenSt_noStep, concludeUnit_whenSt_noStep⟩

/-! ### The request of CONFIG (log 6) -/

theorem natOfBytes_ofNat {n : Nat} (h : n < 2 ^ 32) :
    natOfBytes (BitVec.ofNat 8 n) (BitVec.ofNat 8 (n / 256)) (BitVec.ofNat 8 (n / 65536))
      (BitVec.ofNat 8 (n / 16777216)) = n := by
  simp only [natOfBytes, BitVec.toNat_ofNat]
  omega

theorem decodeChannel_setWidth (chan : BitVec 2) : decodeChannel (chan.setWidth 8) = .ok chan := by
  revert chan; decide

theorem decodeProfile_profileByte (e : Profile) : decodeProfile (profileByte e) = .ok e := by
  cases e <;> rfl

theorem decode_encode_config {baud power : Nat} (hb : baud < 2 ^ 32) (hp : power < 2 ^ 32) (chan : BitVec 2)
    (e : Profile) : decode (encode (.config baud chan power e)) = .ok (.config baud chan power e, []) := by
  change decodeConfig (natBytes baud ++ (chan.setWidth 8 :: natBytes power ++ [profileByte e])) = _
  simp [decodeConfig, natBytes, decodeChannel_setWidth, decodeProfile_profileByte, natOfBytes_ofNat hb,
    natOfBytes_ofNat hp]

/-! ### A MAIN operation that waits -/

/-- A MAIN operation that has no step uses up the turn and stays first of the caller's program (R11, R106). -/
theorem step_main_noStep {s : State} {ts : List Turn} {r : Request} {l : List Request} {i : Instr} {rest : List Byte}
    (hc : cfgWf s.cfg = true) (ht : s.env.turns = .main :: ts) (ho : s.env.mainOps = r :: l)
    (hd : decode r = .ok (i, rest)) (hi : inMain i = true)
    (he : exec i (s.dropTurn.setMainOps l) = .next ((s.dropTurn.setMainOps l).setAnswer .noStep)) :
    step s = .next { s with env := { s.env with turns := ts }, answer := .noStep } := by
  rw [step_start hc (fetch_main ht ho) hd hi, he]
  simp [finishTurn, settle, State.setMainOps, State.dropTurn, State.setAnswer, ht, ← ho]

/-- Settles O6: the no-step lemmas of MAIN's operations; the turn taken leaves TCI, RB and DE as they were. -/
theorem waitingMainOperationIsKept : Obligations.WaitingMainOperationIsKept := by
  intro s ts l i hc ht ho hdisabled
  rcases hdisabled with ⟨rfl, h⟩ | ⟨b, dst, rfl, h⟩ | ⟨rfl, h⟩ | ⟨baud, chan, power, e, rfl, hb, hp, h⟩ | ⟨rfl | rfl, h⟩
  · exact step_main_noStep hc ht ho rfl rfl (exec_readByte_noStep (s := s.dropTurn.setMainOps l) h)
  · exact step_main_noStep hc ht ho rfl rfl (exec_enqB_noStep (s := s.dropTurn.setMainOps l) h b dst)
  · exact step_main_noStep hc ht ho rfl rfl (exec_init_noStep (s := s.dropTurn.setMainOps l) h)
  · exact step_main_noStep hc ht ho (decode_encode_config hb hp chan e) rfl
      (exec_config_noStep (s := s.dropTurn.setMainOps l) h baud chan power e)
  · exact step_main_noStep hc ht ho rfl rfl (exec_setRx_noStep (s := s.dropTurn.setMainOps l) h)
  · exact step_main_noStep hc ht ho rfl rfl (exec_setIdle_noStep (s := s.dropTurn.setMainOps l) h)

end Sys2Proof.Machine

/-! Reset and what every step keeps (10_state.md: R8, R23, R41 to R43): the states a rule can leave, `log` and the sticky
registers, the state after reset, and the invariant of R42 operation by operation. -/

namespace Sys2Proof.Machine

/-! ### The states a rule can leave -/

/-- Every state that the rule leaves, at its end or at `abort`, has `P` (R11). -/
def Res.All {α : Type} (P : State → Prop) : Res α → Prop
  | .done _ s => P s
  | .abort s => P s
  | .noStep => True
  | .fault _ => True

section
variable {α β : Type} {P Q : State → Prop}

@[simp] theorem Res.all_done {a : α} {s : State} : (Res.done a s).All P ↔ P s := Iff.rfl
@[simp] theorem Res.all_abort {s : State} : (Res.abort s : Res α).All P ↔ P s := Iff.rfl
@[simp] theorem Res.all_noStep : (Res.noStep : Res α).All P := trivial
@[simp] theorem Res.all_fault {f : Fault} : (Res.fault f : Res α).All P := trivial

theorem Res.All.bind {m : Res α} {k : α → State → Res β} (hm : m.All P) (hk : ∀ a u, P u → (k a u).All P) :
    (m.bind k).All P := by
  cases m with
  | done a u => exact hk a u hm
  | abort u => exact hm
  | noStep => trivial
  | fault f => trivial

theorem Res.All.mono {m : Res α} (hm : m.All P) (h : ∀ u, P u → Q u) : m.All Q := by
  cases m with
  | done a u => exact h u hm
  | abort u => exact h u hm
  | noStep => trivial
  | fault f => trivial

theorem Res.All.and {m : Res α} (hp : m.All P) (hq : m.All Q) : m.All fun u => P u ∧ Q u := by
  cases m with
  | done a u => exact ⟨hp, hq⟩
  | abort u => exact ⟨hp, hq⟩
  | noStep => trivial
  | fault f => trivial

/-- A rule run as a transition keeps what it keeps inline and what the answer does not touch (R11, log 8). -/
theorem conclude_all {s t : State} {answerOf : α → Answer} {m : Res α} (hm : m.All P) (hs : P s)
    (hanswer : ∀ u a, P u → P (u.setAnswer a)) (h : conclude s answerOf m = .next t) : P t := by
  rcases conclude_next h with ⟨a, u, rfl, rfl⟩ | ⟨u, rfl, rfl⟩ | ⟨-, rfl⟩
  · exact hanswer _ _ hm
  · exact hanswer _ _ hm
  · exact hanswer _ _ hs

/-! ### What the step adds to its instruction -/

/-- What a state starts next differs from it in ENV's record only (R7). -/
theorem fetch_env (s : State) :
    (∃ e : Env, fetch s = .rest { s with env := e }) ∨
      ∃ turn r, ∃ e : Env, fetch s = .start turn r { s with env := e } := by
  rcases fetch_cases s with ⟨_, h⟩ | ⟨_, _, h⟩ | ⟨_, _, _, _, h⟩ | ⟨_, h⟩ | ⟨_, h⟩ | ⟨_, _, h⟩
  · exact .inl ⟨_, h⟩
  · exact .inl ⟨_, h⟩
  · exact .inr ⟨_, _, _, h⟩
  · exact .inr ⟨_, _, _, h⟩
  · exact .inr ⟨_, _, _, h⟩
  · exact .inr ⟨_, _, _, h⟩

/-- The wait of a MAIN operation is ENV's record only (log 5). -/
theorem settle_env (turn : Turn) (r : Request) (s : State) : ∃ e : Env, settle turn r s = { s with env := e } := by
  unfold settle
  split
  · exact ⟨_, rfl⟩
  · exact ⟨s.env, rfl⟩

/-- A step keeps what does not speak of ENV's record and what the instruction it runs keeps. -/
theorem step_keeps {s t : State} (henv : ∀ (u : State) (e : Env), P u → P { u with env := e })
    (hexec : ∀ turn r u i rest v, fetch s = .start turn r u → decode r = .ok (i, rest) → turn.admits i = true → P u →
      exec i u = .next v → P v)
    (hs : P s) (h : step s = .next t) : P t := by
  obtain ⟨-, hrest | ⟨turn, r, u, i, rest, v, hstart, hd, ha, he, rfl⟩⟩ := step_next h
  · obtain ⟨e, hf⟩ | ⟨_, _, _, hf⟩ := fetch_env s <;> rw [hf] at hrest <;> cases hrest
    exact henv s e hs
  · obtain ⟨_, hf⟩ | ⟨_, _, e, hf⟩ := fetch_env s <;> rw [hf] at hstart <;> cases hstart
    obtain ⟨e', hv⟩ := settle_env turn r v
    exact hv ▸ henv v e' (hexec _ _ _ _ _ _ hf hd ha (henv s e hs) he)

end

/-- An ordinary turn runs RXEVT, TICK or an operation of MAIN (R7, R100). -/
theorem instr_of_ordinaryTurn {s u : State} {turn : Turn} {r : Request} {i : Instr} {rest : List Byte}
    (ho : s.ordinaryTurn = true) (hf : fetch s = .start turn r u) (hd : decode r = .ok (i, rest))
    (ha : turn.admits i = true) : i = .rxEvt ∨ i = .tick ∨ inMain i = true := by
  rcases fetch_cases s with ⟨_, h⟩ | ⟨_, _, h⟩ | ⟨_, _, _, _, h⟩ | ⟨_, h⟩ | ⟨_, h⟩ | ⟨r', ht, h⟩ <;>
    rw [h] at hf <;> cases hf
  · exact .inr (.inr ha)
  · cases decode_rxEvtRequest.symm.trans hd
    exact .inl rfl
  · cases decode_tickRequest.symm.trans hd
    exact .inr (.inl rfl)
  · obtain ⟨l, hl⟩ := List.head?_eq_some_iff.1 ht
    simp [State.ordinaryTurn, hl] at ho

/-! ### The configuration, `hw_fault` and `log` (R43, R23, R8) -/

/-- From `s` to `t` the configuration is the same, `hw_fault` is not cleared, and `log` has only gained entries. -/
structure Grown (s t : State) : Prop where
  cfg : t.cfg = s.cfg
  hwFault : s.tci.hwFault = true → t.tci.hwFault = true
  log : ∃ es, t.log = s.log ++ es

theorem Grown.refl (s : State) : Grown s s := ⟨rfl, id, [], by simp⟩

theorem Grown.trans {s t u : State} (h : Grown s t) (k : Grown t u) : Grown s u where
  cfg := k.cfg.trans h.cfg
  hwFault := k.hwFault ∘ h.hwFault
  log := by
    obtain ⟨es, he⟩ := h.log
    obtain ⟨fs, hf⟩ := k.log
    exact ⟨es ++ fs, by rw [hf, he, List.append_assoc]⟩

/-- Updates of other registers. -/
theorem Grown.update {s t u : State} (h : Grown s t) (hc : u.cfg = t.cfg) (hf : u.tci.hwFault = t.tci.hwFault)
    (hl : u.log = t.log) : Grown s u :=
  h.trans ⟨hc, by simp [hf], [], by simp [hl]⟩

theorem Grown.raise {s t : State} (h : Grown s t) (e : ErrorEvent) : Grown s (t.raise e) :=
  h.trans ⟨rfl, id, _, rfl⟩

theorem Grown.hardwareNotReady {s t : State} (h : Grown s t) : Grown s t.hardwareNotReady :=
  h.trans ⟨rfl, fun _ => rfl, _, rfl⟩

theorem Grown.setAnswer {s t : State} (a : Answer) (h : Grown s t) : Grown s (t.setAnswer a) := h.update rfl rfl rfl

theorem Sent.grown {s u : State} {ws : List Word} (h : Sent s u ws) : Grown s u :=
  ⟨h.cfg, by simp [h.tci], h.log⟩

theorem Sent.backToRx_grown {s w : State} {ws : List Word} (h : Sent s w ws) : Grown s (backToRx w) :=
  h.grown.update rfl rfl rfl

theorem Sent.stuckInTx_grown {s w : State} {ws : List Word} (h : Sent s w ws) : Grown s (stuckInTx w) :=
  (h.grown.update (u := w.setMode .tx false) rfl rfl rfl).hardwareNotReady

theorem Buffered.grown {s t : State} (h : Buffered s t) : Grown s t :=
  ⟨h.cfg, by simp [h.tci], by obtain ⟨bs, hb⟩ := h.log; exact ⟨_, hb⟩⟩

theorem Grown.then {α β : Type} {s : State} {m : Res α} {k : α → State → Res β} (hm : m.All (Grown s))
    (hk : ∀ a u, (k a u).All (Grown u)) : (m.bind k).All (Grown s) :=
  hm.bind fun a u hu => (hk a u).mono fun _ => hu.trans

/-! ### The configuration, `hw_fault` and `log` through each operation -/

section
variable (s : State)

theorem waitRdy_grown : (waitRdy s).All (Grown s) := by
  obtain ⟨u, hu, -, ⟨he, -⟩ | ⟨he, -⟩⟩ := waitRdy_cases s <;> rw [he]
  · exact hu.grown
  · exact hu.grown.hardwareNotReady

theorem resync_grown : Grown s (resync s) := by
  obtain ⟨u, hu, he⟩ := resync_spec s
  exact he ▸ hu.grown.update rfl rfl rfl

theorem setRx_grown : (setRx s).All (Grown s) := by
  obtain ⟨u, hu, hb⟩ := setRxBody_spec s
  obtain ⟨-, he⟩ | ⟨-, he⟩ := setRx_cases s <;> rw [he]
  · exact hb ▸ hu.grown.update rfl rfl rfl
  · trivial

theorem setTx_grown : (setTx s).All (Grown s) := by
  obtain ⟨u, hu, hb⟩ := setTxBody_spec s
  obtain ⟨-, he⟩ | ⟨-, he⟩ := setTx_cases s <;> rw [he]
  · exact hb ▸ hu.grown.update rfl rfl rfl
  · trivial

theorem setIdle_grown : (setIdle s).All (Grown s) := by
  obtain ⟨-, u, hu, he⟩ | ⟨-, he⟩ := setIdle_cases s <;> rw [he]
  · exact hu.grown.update rfl rfl rfl
  · trivial

theorem init_grown : (init s).All (Grown s) := by
  obtain ⟨-, u, hu, he⟩ | ⟨-, he⟩ := init_cases s <;> rw [he]
  · exact hu.grown.update rfl rfl rfl
  · trivial

theorem config_grown (baud : Nat) (chan : BitVec 2) (power : Nat) (e : Profile) :
    (config baud chan power e s).All (Grown s) := by
  obtain ⟨-, u, hu, he⟩ | ⟨-, he⟩ := config_cases baud chan power e s <;> rw [he]
  · exact hu.grown.update rfl rfl rfl
  · trivial

theorem txByte_grown (v : Byte) : (txByte v s).All (Grown s) := by
  obtain ⟨-, he⟩ | ⟨-, u, hu, he⟩ | ⟨-, u, _, -, hu, he⟩ := txByte_cases v s <;> rw [he]
  · trivial
  · exact hu.grown
  · exact hu.grown.hardwareNotReady

theorem rxByte_grown : (rxByte s).All (Grown s) := by
  obtain ⟨-, he⟩ | ⟨-, u, hu, he⟩ | ⟨-, u, _, -, hu, he⟩ := rxByte_cases s <;> rw [he]
  · trivial
  · exact hu.grown
  · exact hu.grown.hardwareNotReady

theorem frameEnc_grown (t d src q : Byte) (p : List Byte) : (frameEnc t d src q p s).All (Grown s) := by
  by_cases hm : s.tci.mode = .tx
  · obtain ⟨u, hu, he⟩ | ⟨u, _, -, hu, he⟩ := frameEnc_cases t d src q p s hm <;> rw [he]
    · exact hu.grown
    · exact hu.grown.hardwareNotReady
  · rw [frameEnc_noStep t d src q p s hm]
    trivial

/-- The transfer that follows a fill byte, received or transmitted (R129, R130). -/
theorem rawFollows_grown (v : Byte) : (rawFollows v s).All (Grown s) := by
  have hescape (w : State → Word) (u : State) : ((waitRdy u).bind fun _ u => .done () (put (w u) u)).All (Grown u) :=
    Grown.then (waitRdy_grown u) fun _ u => (put_sent _ u).grown
  have htail (e : State → Res Unit) (he : ∀ u, (e u).All (Grown u)) :
      (if isFill v then (e s).bind fun _ u => .done v u else .done v s : Res Byte).All (Grown s) := by
    split
    · exact Grown.then (he s) fun _ u => Grown.refl u
    · exact Grown.refl s
  unfold rawFollows
  split
  · exact htail rxEscape (hescape fun u => u.cfg.cwRxRead)
  split
  · exact htail txEscape (hescape fun u => txWord u.cfg u.cfg.esc)
  · trivial

theorem send_grown (first : Bool) : (send first s).All (Grown s) := by
  obtain ⟨-, he⟩ | ⟨_, he, -⟩ | ⟨-, -, _, -, -, ⟨w, hw, he⟩ | ⟨w, _, -, hw, he⟩⟩ := send_cases first s <;> rw [he]
  · trivial
  · trivial
  · exact hw.backToRx_grown.update rfl rfl rfl
  · exact hw.stuckInTx_grown

theorem ackTx_grown : (ackTx s).All (Grown s) := by
  obtain ⟨-, he⟩ | ⟨-, -, ⟨w, hw, he⟩ | ⟨w, _, -, hw, he⟩⟩ := ackTx_cases s <;> rw [he]
  · trivial
  · exact hw.backToRx_grown.update rfl rfl rfl
  · exact hw.stuckInTx_grown

theorem enqueuedState_grown (b dst : Byte) : Grown s (enqueuedState b dst s) := (Grown.refl s).update rfl rfl rfl

theorem enqB_grown (b dst : Byte) : (enqB b dst s).All (Grown s) := by
  obtain ⟨-, he⟩ | ⟨-, -, he⟩ | ⟨-, -, he⟩ | ⟨-, -, he⟩ := enqB_cases b dst s <;> rw [he]
  · trivial
  · trivial
  · exact enqueuedState_grown s b dst
  · exact (send_grown _ true).mono fun _ => (enqueuedState_grown s b dst).trans

theorem countDown_grown : Grown s s.countDown := (Grown.refl s).update rfl rfl rfl

theorem tickTimeout_grown : (tickTimeout s).All (Grown s) := by
  obtain ⟨-, he⟩ | ⟨-, he⟩ | ⟨-, -, -, he⟩ | ⟨-, -, -, he⟩ | ⟨-, -, -, he⟩ | ⟨-, -, -, he⟩ := tickTimeout_cases s <;>
    rw [he]
  · exact Grown.refl s
  · exact countDown_grown s
  · exact (send_grown _ false).mono fun _ => ((countDown_grown s).update (u := s.countDown.spendRetry) rfl rfl rfl).trans
  · exact (countDown_grown s).trans ⟨rfl, id, _, rfl⟩
  · exact (send_grown _ true).mono fun _ => (countDown_grown s).trans
  · exact countDown_grown s

theorem tick_grown : (tick s).All (Grown s) := by
  cases hp : s.de.ackPending
  · exact tick_plain hp ▸ tickTimeout_grown s
  · exact tick_confirm hp ▸ Grown.then (ackTx_grown s) fun _ u => tickTimeout_grown u

theorem ackRx_grown : Grown s (ackRx s) := by
  obtain ⟨-, he⟩ | ⟨-, he⟩ := ackRx_cases s <;> rw [he]
  · exact (Grown.refl s).update rfl rfl rfl
  · exact Grown.refl s

theorem rbPut_grown (b : Byte) : (rbPut b s).All (Grown s) := by
  cases he : rbPut b s with
  | done _ t => exact (rbPut_buffered he).grown
  | abort t => obtain ⟨-, h⟩ | ⟨-, -, h⟩ | ⟨-, -, h⟩ := rbPut_cases b s <;> cases h.symm.trans he
  | noStep => trivial
  | fault f => trivial

theorem rbGet_grown : (rbGet s).All (Grown s) := by
  obtain ⟨-, he⟩ | ⟨-, _, -, -, he⟩ | ⟨-, -, _, he⟩ := rbGet_cases s <;> rw [he]
  · trivial
  · exact (Grown.refl s).update rfl rfl rfl
  · trivial

theorem acceptData_grown : (acceptData s).All (Grown s) := by
  obtain ⟨-, he⟩ | ⟨-, t, ht, -, he⟩ | ⟨-, _, he, -⟩ := acceptData_cases s <;> rw [he]
  · exact (Grown.refl s).update rfl rfl rfl
  · exact ht.grown.update rfl rfl rfl
  · trivial

theorem judgeFrame_grown (b : Byte) : (judgeFrame b s).All (Grown s) := by
  obtain ⟨-, he⟩ | ⟨-, -, he⟩ | ⟨-, -, -, he⟩ | ⟨-, -, -, -, he⟩ | ⟨-, -, -, -, he⟩ := judgeFrame_cases b s <;> rw [he]
  · exact (Grown.refl s).raise _
  · exact Grown.refl s
  · exact acceptData_grown s
  · exact ackRx_grown s
  · exact Grown.refl s

theorem armChk_grown (b : Byte) : (armChk b s).All (Grown s) :=
  Grown.then ((judgeFrame_grown (resync s) b).mono fun _ => (resync_grown s).trans)
    fun _ u => (Grown.refl u).update rfl rfl rfl

theorem armPay_grown (b : Byte) : (armPay b s).All (Grown s) := by
  obtain ⟨-, he⟩ | ⟨-, he⟩ := armPay_cases b s <;> rw [he]
  · exact (Grown.refl s).update rfl rfl rfl
  · trivial

theorem arm_grown (b : Byte) : (arm b s).All (Grown s) := by
  unfold arm
  cases s.ra.st with
  | idle | len | dst | src | seq => exact (Grown.refl s).update rfl rfl rfl
  | pay => exact armPay_grown s b
  | chk => exact armChk_grown s b

theorem rxEvt_grown : (rxEvt s).All (Grown s) := by
  have hwd : Grown s s.countWd := (Grown.refl s).update rfl rfl rfl
  obtain ⟨-, he⟩ | ⟨-, -, ⟨u, _, -, hu, he⟩ | ⟨u, hu, he⟩⟩ := rxEvt_cases s <;> rw [he]
  · trivial
  · exact (hwd.trans hu.grown).hardwareNotReady
  split
  · exact ((hwd.trans hu.grown).raise _).trans (resync_grown _)
  · exact (arm_grown u _).mono fun _ => (hwd.trans hu.grown).trans

theorem whenSt_grown (x : RxState) {m : Res Unit} (hm : m.All (Grown s)) : (whenSt x s m).All (Grown s) := by
  unfold whenSt
  split
  · exact hm
  · trivial

theorem sendWord_grown (w : Word) : (sendWord w s).All (Grown s) := (xfer_talked w s).sent.grown

theorem sendSetup_grown (n : Nat) : (sendSetup n s).All (Grown s) := by
  unfold sendSetup
  split
  · exact sendWord_grown s _
  · trivial

end

theorem conclude_grown {α : Type} {s t : State} {answerOf : α → Answer} {m : Res α} (hm : m.All (Grown s))
    (h : conclude s answerOf m = .next t) : Grown s t :=
  conclude_all hm (Grown.refl s) (fun _ a => Grown.setAnswer a) h

theorem concludeUnit_grown {s t : State} {m : Res Unit} (hm : m.All (Grown s)) (h : concludeUnit s m = .next t) :
    Grown s t := conclude_grown hm h

/-- Every instruction keeps the configuration and `hw_fault = 1`, and only adds to `log`. -/
theorem exec_grown {i : Instr} {s t : State} (h : exec i s = .next t) : Grown s t := by
  have hsame : Grown s s := Grown.refl s
  cases i with
  | xfer w => exact conclude_grown (sendWord_grown s w) h
  | waitRdy => exact conclude_grown (waitRdy_grown s) h
  | init => exact conclude_grown (init_grown s) h
  | config baud chan power e => exact conclude_grown (config_grown s baud chan power e) h
  | setRx => exact conclude_grown (setRx_grown s) h
  | setTx => exact conclude_grown (setTx_grown s) h
  | setIdle => exact conclude_grown (setIdle_grown s) h
  | resync => exact concludeUnit_grown (m := .done () (resync s)) (resync_grown s) h
  | txByte v => exact conclude_grown (txByte_grown s v) h
  | rxByte => exact conclude_grown (rxByte_grown s) h
  | crc8Upd c b => exact conclude_grown (m := .done (crc8Upd s.cfg c b) s) hsame h
  | frameEnc t d src q p => exact conclude_grown (frameEnc_grown s t d src q p) h
  | rxEvt => exact conclude_grown (rxEvt_grown s) h
  | rbPut b => exact conclude_grown (rbPut_grown s b) h
  | rbGet => exact conclude_grown (rbGet_grown s) h
  | hasData => exact conclude_grown (m := .done s.hasBytes s) hsame h
  | readByte => exact conclude_grown (readByte_eq s ▸ rbGet_grown s) h
  | isBusy => exact conclude_grown (m := .done s.de.awaitingAck s) hsame h
  | enqB b dst => exact conclude_grown (enqB_grown s b dst) h
  | send first => exact conclude_grown (send_grown s first) h
  | tick => exact conclude_grown (tick_grown s) h
  | ackRx => exact concludeUnit_grown (m := .done () (ackRx s)) (ackRx_grown s) h
  | ackTx => exact conclude_grown (ackTx_grown s) h
  | opRsvd10111 | opRsvd11xxx | stNone => cases h
  | stIdle b => exact conclude_grown (whenSt_grown s .idle (m := .done () (armIdle b s)) (hsame.update rfl rfl rfl)) h
  | stLen b => exact conclude_grown (whenSt_grown s .len (m := .done () (armLen b s)) (hsame.update rfl rfl rfl)) h
  | stDst b => exact conclude_grown (whenSt_grown s .dst (m := .done () (armDst b s)) (hsame.update rfl rfl rfl)) h
  | stSrc b => exact conclude_grown (whenSt_grown s .src (m := .done () (armSrc b s)) (hsame.update rfl rfl rfl)) h
  | stSeq b => exact conclude_grown (whenSt_grown s .seq (m := .done () (armSeq b s)) (hsame.update rfl rfl rfl)) h
  | stPay b => exact conclude_grown (whenSt_grown s .pay (armPay_grown s b)) h
  | stChk b => exact conclude_grown (whenSt_grown s .chk (armChk_grown s b)) h
  | rawFill00 | rawFillFF | rawPlain => exact conclude_grown (rawFollows_grown s _) h
  | typeData => exact conclude_grown (acceptData_grown s) h
  | typeAck => exact concludeUnit_grown (m := .done () (ackRx s)) (ackRx_grown s) h
  | typeRsvd => exact concludeUnit_grown (m := .done () s) hsame h
  | cwInit0 | cwInit1 | cwInit2 | cwInit3 | cwInit4 | cwInit5 | cwInit6 => exact conclude_grown (sendSetup_grown s _) h
  | cwRxRead => exact conclude_grown (answerOf := fun r => .byte (rxByteOf r)) (sendWord_grown s s.cfg.cwRxRead) h
  | cwFifoStop | cwFifoArm | cwIdle | cwRxOn | cwTxOn | cwTxWrite | cwRate | cwFreq | cwTxCfg | cwRxCfg
  | cwStatus => exact conclude_grown (sendWord_grown s _) h

/-- Settles O7: every instruction only adds to `log` and keeps the sticky registers, and a step runs one instruction. -/
theorem noStepClearsTheFaultFlag : Obligations.NoStepClearsTheFaultFlag := by
  intro s t h
  have hgrown : Grown s t := step_keeps (fun u e hu => hu.update rfl rfl rfl)
    (fun _ _ u _ _ v _ _ _ hu he => hu.trans (exec_grown he)) (Grown.refl s) h
  exact ⟨hgrown.cfg, hgrown.hwFault, hgrown.log⟩

/-! ### The state after reset (R41, R42) -/

/-- Settles O53: the table of R41, register by register. -/
theorem resetLeavesTheTableValues : Obligations.ResetLeavesTheTableValues := by
  rintro c _ rfl
  exact ⟨rfl, rfl, rfl, rfl, rfl, rfl, rfl, fun _ => rfl, rfl, rfl, rfl, rfl, rfl, rfl, rfl, rfl, rfl, rfl⟩

theorem resetWith_lawful {c : Cfg} (hc : cfgWf c = true) : Lawful (State.resetWith c) := by
  obtain ⟨-, -, hsize, -⟩ := (cfgWf_iff c).1 hc
  have hring : 0 < c.rbSize := Nat.lt_of_lt_of_le Nat.zero_lt_two hsize
  have hqueue : (State.resetWith c).queue = [] := by simp [State.queue, State.held, State.resetWith]
  refine ⟨⟨rfl, Nat.zero_le _, Nat.zero_le _, hring, hring⟩, fun _ => ?_⟩
  exact {
    notTx := nofun, irq := by simp [State.resetWith], setUp := nofun, idx := nofun, room := fun _ => Nat.zero_lt_succ _
    outstanding := nofun, payStored := nofun, payFull := nofun, txStored := nofun, ringStored := by simp [hqueue]
    wd := Nat.zero_le _ }

/-- Settles O54: the reset state has every counter at 0 and every buffer empty. -/
theorem resetMeetsTheInvariant : Obligations.ResetMeetsTheInvariant :=
  fun c hc => ⟨resetWith_lawful hc, resetWith_memWf c⟩

/-! ### The invariant under updates of single registers (R42) -/

/-- The invariant speaks of the registers and the configuration, and asks that `cs` be 0. -/
theorem Lawful.update {s t : State} (h : Lawful s) (hcfg : t.cfg = s.cfg) (htci : t.tci = { s.tci with cs := false })
    (hra : t.ra = s.ra) (hrb : t.rb = s.rb) (hde : t.de = s.de) : Lawful t := by
  obtain ⟨cfg, tci, ra, rb, de, _, _, _⟩ := t
  cases hcfg; cases htci; cases hra; cases hrb; cases hde
  exact ⟨{ h.steady with cs := rfl }, fun hf => { h.sound hf with }⟩

theorem Lawful.tci_eq {s : State} (h : Lawful s) : s.tci = { s.tci with cs := false } := by
  rw [← h.steady.cs]

theorem Lawful.setAnswer {s : State} (a : Answer) (h : Lawful s) : Lawful (s.setAnswer a) :=
  h.update rfl h.tci_eq rfl rfl rfl

theorem Lawful.setEnv {s : State} (h : Lawful s) (e : Env) : Lawful { s with env := e } :=
  h.update rfl h.tci_eq rfl rfl rfl

theorem Lawful.raise {s : State} (h : Lawful s) (e : ErrorEvent) : Lawful (s.raise e) :=
  h.update rfl h.tci_eq rfl rfl rfl

/-- Words sent keep the invariant: each exchange leaves `cs` deasserted (R120). -/
theorem Lawful.sent {s u : State} {ws : List Word} (h : Lawful s) (hu : Sent s u ws) : Lawful u :=
  h.update hu.cfg (by rw [hu.tci, h.steady.cs, ite_self]) hu.ra hu.rb hu.de

/-- With the fault latched only the first part of the invariant is asked for. -/
theorem lawful_of_hwFault {s : State} (h : Steady s) (hf : s.tci.hwFault = true) : Lawful s :=
  ⟨h, fun hn => by simp [hf] at hn⟩

theorem Steady.sent {s u : State} {ws : List Word} (h : Steady s) (hu : Sent s u ws) : Steady u where
  cs := by rw [hu.tci, h.cs, ite_self]
  fLen := hu.ra ▸ h.fLen
  txCnt := hu.de ▸ h.txCnt
  head := hu.rb ▸ hu.cfg ▸ h.head
  tail := hu.rb ▸ hu.cfg ▸ h.tail

/-- A transition that a ready poll ended after some words keeps the invariant (R121). -/
theorem lawful_hardwareNotReady {s u : State} {ws : List Word} (h : Steady s) (hu : Sent s u ws) :
    Lawful u.hardwareNotReady :=
  lawful_of_hwFault { h.sent hu with } rfl

theorem lawful_stuckInTx {s u : State} {ws : List Word} (h : Steady s) (hu : Sent s u ws) : Lawful (stuckInTx u) :=
  lawful_of_hwFault { h.sent hu with } rfl

/-! ### The invariant through MAIN's operations -/

/-- No receive state lets the watchdog count beyond 133, and only IDLE reaches it (R179). -/
theorem wd_le {s : State} (h : Lawful s) (hf : s.tci.hwFault = false) :
    s.ra.wd.toNat ≤ 133 ∧ (s.ra.st ≠ .idle → s.ra.wd.toNat ≤ 132) := by
  have hwd := (h.sound hf).wd
  have hidx := (h.sound hf).idx
  have hlen := h.steady.fLen
  cases hst : s.ra.st <;> simp only [wdBound, hst] at hwd
  case idle => exact ⟨hwd, fun hne => absurd rfl hne⟩
  case pay => exact ⟨by have := hidx hst; omega, fun _ => by have := hidx hst; omega⟩
  all_goals exact ⟨by omega, fun _ => by omega⟩

theorem Lawful.setSt_idle {s : State} (h : Lawful s) : Lawful (s.setSt .idle) :=
  ⟨{ h.steady with }, fun hf => { h.sound hf with
    idx := nofun, payStored := nofun, payFull := nofun, wd := (wd_le h hf).1 }⟩

/-- Receiving again (R125), from any mode. -/
theorem Lawful.setMode_rx {s : State} (h : Lawful s) : Lawful (s.setMode .rx true) :=
  ⟨{ h.steady with }, fun hf => { h.sound hf with
    notTx := nofun, irq := iff_of_true rfl rfl, setUp := nofun }⟩

theorem Lawful.setMode_idle {s : State} (h : Lawful s) : Lawful (s.setMode .idle false) :=
  ⟨{ h.steady with }, fun hf => { h.sound hf with
    notTx := nofun, irq := iff_of_false nofun nofun, setUp := nofun }⟩

theorem Lawful.backToRx {s : State} (h : Lawful s) : Lawful (backToRx s) := h.setSt_idle.setMode_rx

theorem setRx_lawful {s : State} (h : Lawful s) : (setRx s).All Lawful := by
  obtain ⟨u, hu, hb⟩ := setRxBody_spec s
  obtain ⟨-, he⟩ | ⟨-, he⟩ := setRx_cases s <;> rw [he]
  · exact hb ▸ (h.sent hu).backToRx
  · trivial

theorem setIdle_lawful {s : State} (h : Lawful s) : (setIdle s).All Lawful := by
  obtain ⟨-, u, hu, he⟩ | ⟨-, he⟩ := setIdle_cases s <;> rw [he]
  · exact (h.sent hu).setMode_idle
  · trivial

theorem init_lawful {s : State} (h : Lawful s) : (init s).All Lawful := by
  obtain ⟨-, u, hu, he⟩ | ⟨-, he⟩ := init_cases s <;> rw [he]
  · have hrx : Lawful (backToRx u) := (h.sent hu).backToRx
    exact ⟨{ hrx.steady with }, fun hf => { hrx.sound hf with setUp := nofun }⟩
  · trivial

theorem config_lawful {s : State} (h : Lawful s) (baud : Nat) (chan : BitVec 2) (power : Nat) (e : Profile) :
    (config baud chan power e s).All Lawful := by
  obtain ⟨-, u, hu, he⟩ | ⟨-, he⟩ := config_cases baud chan power e s <;> rw [he]
  · have hsent : Lawful u := h.sent hu
    exact ⟨{ hsent.steady with }, fun hf => { hsent.sound hf with }⟩
  · trivial

/-! ### The ring buffer's bytes are written -/

theorem nextIndex_eq {c : Cfg} {i : Nat} (h : i < c.rbSize) :
    nextIndex c i = if i + 1 = c.rbSize then 0 else i + 1 := by
  unfold nextIndex
  split
  · simp [*]
  · exact Nat.mod_eq_of_lt (by omega)

theorem held_eq {s : State} (h : s.ringOk) :
    s.held = if s.rb.tail ≤ s.rb.head then s.rb.head - s.rb.tail else s.rb.head + s.cfg.rbSize - s.rb.tail := by
  obtain ⟨hh, ht⟩ := h
  unfold State.held
  split
  · rw [show s.rb.head + s.cfg.rbSize - s.rb.tail = s.rb.head - s.rb.tail + s.cfg.rbSize by omega, Nat.add_mod_right,
      Nat.mod_eq_of_lt (by omega)]
  · exact Nat.mod_eq_of_lt (by omega)

/-- The place of the byte `k` behind `tail` (R205). -/
theorem ringIndex_eq {n i k : Nat} (hi : i < n) (hk : k < n) : (i + k) % n = if i + k < n then i + k else i + k - n := by
  split
  · exact Nat.mod_eq_of_lt ‹_›
  · rw [Nat.mod_eq_sub_mod (by omega), Nat.mod_eq_of_lt (by omega)]

/-- Every byte of the queue is written: in terms of the places it takes (R41, R205). -/
theorem ringStored_iff (s : State) : (∀ x ∈ s.queue, x.isSome) ↔
    ∀ k < s.held, (s.rb.cells.read ((s.rb.tail + k) % s.cfg.rbSize)).isSome := by
  simp [State.queue]

/-- Taking the byte at `tail` leaves the rest of the queue. -/
theorem ringStored_setTail {s : State} (hr : s.ringOk) (hne : s.rb.head ≠ s.rb.tail)
    (h : ∀ x ∈ s.queue, x.isSome) : ∀ x ∈ (s.setTail (nextIndex s.cfg s.rb.tail)).queue, x.isSome := by
  rw [ringStored_iff] at h ⊢
  intro k hk
  have hlt : k + 1 < s.held := by
    rw [held_eq (s := s.setTail (nextIndex s.cfg s.rb.tail)) ⟨hr.1, nextIndex_lt hr.2⟩] at hk
    simp only [State.setTail_cfg, State.setTail_rb, nextIndex_eq hr.2] at hk
    rw [held_eq hr]
    obtain ⟨hh, ht⟩ := hr
    split_ifs at hk ⊢ <;> omega
  have hplace : (nextIndex s.cfg s.rb.tail + k) % s.cfg.rbSize = (s.rb.tail + (k + 1)) % s.cfg.rbSize := by
    rw [nextIndex, Nat.mod_add_mod, Nat.add_assoc, Nat.add_comm 1 k]
  exact hplace ▸ h (k + 1) hlt

/-- A byte stored at `head` joins the queue; the bytes before it are elsewhere. -/
theorem ringStored_ringAppended {s : State} (hr : s.ringOk) (b : Byte) (h : ∀ x ∈ s.queue, x.isSome) :
    ∀ x ∈ (ringAppended b s).queue, x.isSome := by
  rw [ringStored_iff] at h ⊢
  intro k hk
  change ((s.rb.cells.write s.rb.head b).read ((s.rb.tail + k) % s.cfg.rbSize)).isSome
  by_cases hplace : (s.rb.tail + k) % s.cfg.rbSize = s.rb.head
  · rw [hplace, Memory.read_write_same]
    rfl
  · rw [Memory.read_write_other _ _ hplace]
    refine h k ?_
    rw [held_eq (s := ringAppended b s) ⟨nextIndex_lt hr.1, hr.2⟩] at hk
    change k < if s.rb.tail ≤ nextIndex s.cfg s.rb.head then nextIndex s.cfg s.rb.head - s.rb.tail
      else nextIndex s.cfg s.rb.head + s.cfg.rbSize - s.rb.tail at hk
    rw [nextIndex_eq hr.1] at hk
    rw [held_eq hr]
    obtain ⟨hh, ht⟩ := hr
    have hkn : k < s.cfg.rbSize := by split_ifs at hk <;> omega
    rw [ringIndex_eq ht hkn] at hplace
    split_ifs at hk hplace ⊢ <;> omega

theorem Lawful.ringOk {s : State} (h : Lawful s) : s.ringOk := ⟨h.steady.head, h.steady.tail⟩

theorem rbGet_lawful {s : State} (h : Lawful s) : (rbGet s).All Lawful := by
  obtain ⟨-, he⟩ | ⟨hne, _, ht, -, he⟩ | ⟨-, -, _, he⟩ := rbGet_cases s <;> rw [he]
  · trivial
  · exact ⟨{ h.steady with tail := nextIndex_lt ht }, fun hf => { h.sound hf with
      ringStored := ringStored_setTail h.ringOk hne (h.sound hf).ringStored }⟩
  · trivial

theorem rbPut_lawful {s : State} (h : Lawful s) (b : Byte) : (rbPut b s).All Lawful := by
  obtain ⟨-, he⟩ | ⟨-, hi, he⟩ | ⟨-, -, he⟩ := rbPut_cases b s <;> rw [he]
  · exact h.raise _
  · exact ⟨{ h.steady with head := nextIndex_lt hi }, fun hf => { h.sound hf with
      ringStored := ringStored_ringAppended h.ringOk b (h.sound hf).ringStored }⟩
  · trivial

/-! ### The invariant through the delivery engine -/

/-- A state as SEND leaves it, whatever the timeout and the retries were before (R221). -/
theorem Lawful.outstanding {s : State} (h : Lawful s) (hc : s.tci.hwFault = false → 0 < s.de.txCnt.toNat)
    (ht : 0 < s.cfg.ackTimeout.toNat) (timeout retry : Byte) (first : Bool) :
    Lawful ({ s with de := { s.de with timeout := timeout, retry := retry } }.outstanding first) :=
  ⟨{ h.steady with }, fun hf => { h.sound hf with room := nofun, outstanding := fun _ => ⟨hc hf, ht⟩ }⟩

/-- SEND keeps the invariant where the state it ends in, but for the words sent, meets it. -/
theorem send_lawful {s : State} {first : Bool} (h : Lawful (s.outstanding first)) : (send first s).All Lawful := by
  obtain ⟨-, he⟩ | ⟨_, he, -⟩ | ⟨-, -, _, -, -, ⟨w, hw, he⟩ | ⟨w, _, -, hw, he⟩⟩ := send_cases first s <;> rw [he]
  · trivial
  · trivial
  · have hcs : s.tci.cs = false := h.steady.cs
    have hsent : Lawful (w.outstanding first) :=
      h.update hw.cfg (by simp [hw.tci, hcs]) hw.ra hw.rb (by simp [hw.de, hw.cfg])
    exact hsent.backToRx
  · exact lawful_stuckInTx (s := s) { h.steady with } hw

theorem ackTx_lawful {s : State} (h : Lawful s) : (ackTx s).All Lawful := by
  obtain ⟨-, he⟩ | ⟨-, -, ⟨w, hw, he⟩ | ⟨w, _, -, hw, he⟩⟩ := ackTx_cases s <;> rw [he]
  · trivial
  · have hrx : Lawful (backToRx w) := (h.sent hw).backToRx
    exact ⟨{ hrx.steady with }, fun hf => { hrx.sound hf with }⟩
  · exact lawful_stuckInTx h.steady hw

theorem toNat_txCnt_succ {c : Byte} (h : c.toNat < 128) : (c + 1).toNat = c.toNat + 1 := by
  bv_omega

/-- The bytes pending after ENQB's write are written (R220). -/
theorem txStored_enqueuedState {s : State} (b dst : Byte) (hc : s.de.txCnt.toNat < 128)
    (h : ∀ i < s.de.txCnt.toNat, (s.de.txBuf.read i).isSome) :
    ∀ i < (enqueuedState b dst s).de.txCnt.toNat, ((enqueuedState b dst s).de.txBuf.read i).isSome := by
  intro i hi
  change i < (s.de.txCnt + 1).toNat at hi
  change ((s.de.txBuf.write s.de.txCnt.toNat b).read i).isSome
  rw [toNat_txCnt_succ hc] at hi
  rw [Memory.read_write]
  split
  · rfl
  · exact h i (by omega)

theorem enqB_lawful {s : State} (h : Lawful s) (ht : 0 < s.cfg.ackTimeout.toNat) (b dst : Byte) :
    (enqB b dst s).All Lawful := by
  have hcnt (hc : s.de.txCnt.toNat < 128) : (enqueuedState b dst s).de.txCnt.toNat = s.de.txCnt.toNat + 1 :=
    toNat_txCnt_succ hc
  obtain ⟨-, he⟩ | ⟨-, -, he⟩ | ⟨hen, hc, he⟩ | ⟨-, hc, he⟩ := enqB_cases b dst s <;> rw [he]
  · trivial
  · trivial
  · have hidle : s.de.awaitingAck = false := by simp_all [State.canEnqueue]
    have hlt : (enqueuedState b dst s).de.txCnt.toNat < 128 := by rw [hcnt (by omega)]; omega
    exact ⟨{ h.steady with txCnt := hlt.le }, fun hf => { h.sound hf with
      room := fun _ => hlt
      outstanding := fun ha => Bool.noConfusion (hidle.symm.trans ha)
      txStored := txStored_enqueuedState b dst (by omega) (h.sound hf).txStored }⟩
  · have hfull : (enqueuedState b dst s).de.txCnt.toNat = 128 := by rw [hcnt (by omega), hc]
    exact send_lawful ⟨{ h.steady with txCnt := hfull.le }, fun hf => { h.sound hf with
      room := nofun
      outstanding := fun _ => ⟨hfull ▸ Nat.zero_lt_succ _, ht⟩
      txStored := txStored_enqueuedState b dst (by omega) (h.sound hf).txStored }⟩

/-- A timeout that has not run out keeps the invariant. -/
theorem Lawful.countDown {s : State} (h : Lawful s) (ht : s.de.awaitingAck = true → 1 < s.de.timeout.toNat) :
    Lawful s.countDown :=
  ⟨{ h.steady with }, fun hf => { h.sound hf with
    outstanding := fun ha => ⟨((h.sound hf).outstanding ha).1, by
      have := ht ha
      change 0 < (s.de.timeout - 1).toNat
      bv_omega⟩ }⟩

/-- A payload given up or confirmed leaves nothing pending (R222, R223). -/
theorem Lawful.dropPayload {s : State} (h : Lawful s) (seq timeout : Byte) :
    Lawful { s with de := { s.de with awaitingAck := false, txSeq := seq, txCnt := 0, timeout := timeout } } :=
  ⟨{ h.steady with txCnt := Nat.zero_le _ }, fun hf => { h.sound hf with
    room := fun _ => Nat.zero_lt_succ _, outstanding := nofun, txStored := nofun }⟩

theorem tickTimeout_lawful {s : State} (h : Lawful s) (ht : 0 < s.cfg.ackTimeout.toNat) :
    (tickTimeout s).All Lawful := by
  have hpos {c : Byte} (hc : c ≠ 0) : 0 < c.toNat := by bv_omega
  obtain ⟨-, he⟩ | ⟨hlt, he⟩ | ⟨-, ha, -, he⟩ | ⟨-, -, -, he⟩ | ⟨-, -, hc, he⟩ | ⟨-, ha, -, he⟩ := tickTimeout_cases s <;>
    rw [he]
  · exact h
  · exact h.countDown fun _ => hlt
  · exact send_lawful (h.outstanding (fun hf => ((h.sound hf).outstanding ha).1) ht _ _ _)
  · exact (h.dropPayload _ _).raise (.deliveryFailure s.de.txDst s.de.txSeq)
  · exact send_lawful (h.outstanding (fun _ => hpos hc) ht _ _ _)
  · exact h.countDown (by simp [ha])

theorem tick_lawful {s : State} (h : Lawful s) (ht : 0 < s.cfg.ackTimeout.toNat) : (tick s).All Lawful := by
  cases hp : s.de.ackPending
  · exact tick_plain hp ▸ tickTimeout_lawful h ht
  · have hack : (ackTx s).All fun u => Lawful u ∧ Grown s u := (ackTx_lawful h).and (ackTx_grown s)
    have hboth : (tick s).All fun u => Lawful u ∧ Grown s u := tick_confirm hp ▸ hack.bind fun _ u ⟨hu, hg⟩ =>
      (tickTimeout_lawful hu (hg.cfg ▸ ht)).and ((tickTimeout_grown u).mono fun _ => hg.trans)
    exact hboth.mono fun _ => And.left

theorem ackRx_lawful {s : State} (h : Lawful s) : Lawful (ackRx s) := by
  obtain ⟨-, he⟩ | ⟨-, he⟩ := ackRx_cases s <;> rw [he]
  · exact h.dropPayload _ _
  · exact h

/-! ### The invariant through the receive assembler -/

/-- Words sent after an invocation was counted are words sent, and the invocation counted. -/
theorem sent_countWd {s u : State} {ws : List Word} (h : Sent s.countWd u ws) :
    ∃ v, Sent s v ws ∧ u = v.countWd := by
  obtain ⟨xs, rfl, h⟩ := h
  refine ⟨{ u with ra := s.ra }, ⟨xs, rfl, { h with ra := rfl }⟩, ?_⟩
  change u = { u with ra := s.countWd.ra }
  rw [← h.ra]

/-- One more invocation (R179): the counter does not wrap. -/
theorem wd_succ_le {s : State} (h : Lawful s) (hf : s.tci.hwFault = false) :
    (s.ra.wd + 1).toNat ≤ wdBound s + 1 := by
  have hle := (wd_le h hf).1
  have hwd := (h.sound hf).wd
  bv_omega

theorem wdBound_of_pay {s : State} (h : s.ra.st = .pay) : wdBound s = 4 + s.ra.idx.toNat := by simp [wdBound, h]

theorem wdBound_of_chk {s : State} (h : s.ra.st = .chk) : wdBound s = 4 + s.ra.fLen.toNat := by simp [wdBound, h]

/-- The receive registers outside the payload states: `f_len` and `wd` are in bounds. -/
theorem Lawful.setRa {s : State} (h : Lawful s) {x : Ra} (hlen : x.fLen.toNat ≤ 128) (hpay : x.st ≠ .pay)
    (hchk : x.st ≠ .chk) (hwd : s.tci.hwFault = false → x.wd.toNat ≤ wdBound { s with ra := x }) :
    Lawful { s with ra := x } :=
  ⟨{ h.steady with fLen := hlen }, fun hf => { h.sound hf with
    idx := fun hp => absurd hp hpay, payStored := fun hp => absurd hp hpay, payFull := fun hc => absurd hc hchk
    wd := hwd hf }⟩

theorem clampLen_le (b : Byte) : (clampLen b).toNat ≤ 128 := by
  unfold clampLen
  split
  · assumption
  · exact le_rfl

theorem armIdle_lawful {s : State} (h : Lawful s) (b : Byte) : Lawful (armIdle b s.countWd) :=
  h.setRa h.steady.fLen nofun nofun fun _ => le_rfl

theorem armLen_lawful {s : State} (h : Lawful s) (hst : s.ra.st = .len) (b : Byte) : Lawful (armLen b s.countWd) :=
  h.setRa (clampLen_le b) nofun nofun fun hf => by simpa [wdBound, hst] using wd_succ_le h hf

theorem armDst_lawful {s : State} (h : Lawful s) (hst : s.ra.st = .dst) (b : Byte) : Lawful (armDst b s.countWd) :=
  h.setRa h.steady.fLen nofun nofun fun hf => by simpa [wdBound, hst] using wd_succ_le h hf

theorem armSrc_lawful {s : State} (h : Lawful s) (hst : s.ra.st = .src) (b : Byte) : Lawful (armSrc b s.countWd) :=
  h.setRa h.steady.fLen nofun nofun fun hf => by simpa [wdBound, hst] using wd_succ_le h hf

/-- Arm SEQ chooses PAY, with no byte stored yet, or CHK, with none to store (R176). -/
theorem armSeq_lawful {s : State} (h : Lawful s) (hst : s.ra.st = .seq) (b : Byte) : Lawful (armSeq b s.countWd) := by
  refine ⟨{ h.steady with }, fun hf => ?_⟩
  have hwd : (s.ra.wd + 1).toNat ≤ 4 := by simpa [wdBound, hst] using wd_succ_le h hf
  by_cases hz : s.ra.fLen = 0
  · have hst' : (armSeq b s.countWd).ra.st = .chk := if_pos hz
    exact { h.sound hf with
      idx := by simp [hst']
      payStored := by simp [hst']
      payFull := fun _ i hi => by simp [armSeq, hz] at hi
      wd := wdBound_of_chk hst' ▸ hwd.trans (Nat.le_add_right _ _) }
  · have hst' : (armSeq b s.countWd).ra.st = .pay := if_neg hz
    exact { h.sound hf with
      idx := fun _ => show 0 < s.ra.fLen.toNat by bv_omega
      payStored := fun _ i hi => absurd hi (Nat.not_lt_zero i)
      payFull := by simp [hst']
      wd := wdBound_of_pay hst' ▸ hwd }

/-- Arm PAY stores the byte counted by `idx` and goes to CHK behind the last one (R177). -/
theorem armPay_lawful {s : State} (h : Lawful s) (hst : s.ra.st = .pay) (b : Byte) :
    (armPay b s.countWd).All Lawful := by
  obtain ⟨-, he⟩ | ⟨-, he⟩ := armPay_cases b s.countWd <;> rw [he]
  swap
  · trivial
  refine ⟨{ h.steady with }, fun hf => ?_⟩
  have hlen := h.steady.fLen
  have hidx : s.ra.idx.toNat < s.ra.fLen.toNat := (h.sound hf).idx hst
  have hsucc : (s.ra.idx + 1).toNat = s.ra.idx.toNat + 1 := by bv_omega
  have hwd : (s.ra.wd + 1).toNat ≤ 4 + (s.ra.idx + 1).toNat := by
    simpa only [wdBound_of_pay hst, hsucc, Nat.add_assoc] using wd_succ_le h hf
  have hstored (i : Nat) (hi : i < (s.ra.idx + 1).toNat) :
      ((s.ra.pay.write s.ra.idx.toNat b).read i).isSome := by
    rw [Memory.read_write]
    split
    · rfl
    · exact (h.sound hf).payStored hst i (by omega)
  by_cases hlast : s.ra.idx + 1 = s.ra.fLen
  · have hst' : ((s.countWd.setMem .pay (s.ra.pay.write s.ra.idx.toNat b)).payAdvanced b).ra.st = .chk := if_pos hlast
    exact { h.sound hf with
      idx := fun hp => by cases hst'.symm.trans hp
      payStored := fun hp => by cases hst'.symm.trans hp
      payFull := fun _ i hi => hstored i (hlast ▸ hi)
      wd := (hlast ▸ hwd : _ ≤ 4 + s.ra.fLen.toNat).trans_eq (wdBound_of_chk hst').symm }
  · have hst' : ((s.countWd.setMem .pay (s.ra.pay.write s.ra.idx.toNat b)).payAdvanced b).ra.st = .pay := if_neg hlast
    exact { h.sound hf with
      idx := fun _ => show (s.ra.idx + 1).toNat < s.ra.fLen.toNat by bv_omega
      payStored := fun _ => hstored
      payFull := fun hp => by cases hst'.symm.trans hp
      wd := hwd.trans_eq (wdBound_of_pay hst').symm }

/-- Delivery puts bytes into the ring and leaves the rest alone (R178). -/
theorem deliver_lawful (n : Nat) : ∀ (i : Nat) {s : State}, Lawful s → (deliver i n s).All Lawful := by
  induction n with
  | zero => exact fun _ _ h => h
  | succ n ih =>
    intro i s h
    have hread : (memRead .pay i s).All Lawful := by
      obtain ⟨_, -, -, he⟩ | ⟨-, -, he⟩ | ⟨-, he⟩ := memRead_cases .pay i s <;> rw [he]
      · exact h
      · trivial
      · trivial
    exact hread.bind fun b _ hu => (rbPut_lawful hu b).bind fun _ _ hv => ih (i + 1) hv

theorem Lawful.requestAck {s : State} (h : Lawful s) : Lawful s.requestAck :=
  ⟨{ h.steady with }, fun hf => { h.sound hf with }⟩

theorem Lawful.noteSeq {s : State} (h : Lawful s) : Lawful s.noteSeq :=
  ⟨{ h.steady with }, fun hf => { h.sound hf with }⟩

theorem acceptData_lawful {s : State} (h : Lawful s) : (acceptData s).All Lawful := by
  unfold acceptData
  split
  · exact h.requestAck
  · exact (deliver_lawful _ 0 h).bind fun _ _ hu => hu.noteSeq.requestAck

theorem judgeFrame_lawful {s : State} (h : Lawful s) (b : Byte) : (judgeFrame b s).All Lawful := by
  obtain ⟨-, he⟩ | ⟨-, -, he⟩ | ⟨-, -, -, he⟩ | ⟨-, -, -, -, he⟩ | ⟨-, -, -, -, he⟩ := judgeFrame_cases b s <;> rw [he]
  · exact h.raise _
  · exact h
  · exact acceptData_lawful h
  · exact ackRx_lawful h
  · exact h

/-- The invocation that ends a frame is counted within the bound of IDLE (R179). -/
theorem Lawful.countWd_setSt_idle {s : State} (h : Lawful s) (hst : s.ra.st ≠ .idle) :
    Lawful (s.countWd.setSt .idle) :=
  h.setRa h.steady.fLen nofun nofun fun hf => by
    have hle := (wd_le h hf).2 hst
    change (s.ra.wd + 1).toNat ≤ 133
    bv_omega

theorem armChk_lawful {s : State} (h : Lawful s) (hst : s.ra.st = .chk) (b : Byte) :
    (armChk b s.countWd).All Lawful := by
  obtain ⟨u, hu, he⟩ := armChk_spec b s.countWd
  obtain ⟨v, hv, rfl⟩ := sent_countWd hu
  have hidle : Lawful (v.countWd.setSt .idle) := (h.sent hv).countWd_setSt_idle (by simp [hv.ra, hst])
  exact he ▸ (judgeFrame_lawful hidle b).bind fun _ _ ht => ht.setSt_idle

/-- Each arm keeps the invariant, the invocation counted before it (R171, R179). -/
theorem arm_lawful {s : State} (h : Lawful s) (b : Byte) : (arm b s.countWd).All Lawful := by
  unfold arm
  cases hst : s.countWd.ra.st with
  | idle => exact armIdle_lawful h b
  | len => exact armLen_lawful h hst b
  | dst => exact armDst_lawful h hst b
  | src => exact armSrc_lawful h hst b
  | seq => exact armSeq_lawful h hst b
  | pay => exact armPay_lawful h hst b
  | chk => exact armChk_lawful h hst b

theorem rxEvt_lawful {s : State} (h : Lawful s) : (rxEvt s).All Lawful := by
  obtain ⟨-, he⟩ | ⟨-, -, ⟨u, _, -, hu, he⟩ | ⟨u, hu, he⟩⟩ := rxEvt_cases s <;> rw [he]
  · trivial
  · exact lawful_hardwareNotReady (s := s.countWd) { h.steady with } hu
  obtain ⟨v, hv, rfl⟩ := sent_countWd hu
  split
  case isFalse => exact arm_lawful (h.sent hv) _
  case isTrue hstall =>
    have hst : s.ra.st ≠ .idle := fun hst => by simp [State.stalled, hst, RxState.watched] at hstall
    obtain ⟨w, hw, hresync⟩ := resync_spec (v.countWd.raise .stateMachineStall)
    obtain ⟨x, hx, rfl⟩ := sent_countWd (s := v.raise .stateMachineStall) hw
    have hlawful : Lawful x := ((h.sent hv).raise _).sent hx
    exact hresync ▸ hlawful.countWd_setSt_idle (by simpa [hx.ra, hv.ra] using hst)

/-! ### The invariant through the step -/

theorem ackTimeout_pos {c : Cfg} (hc : cfgWf c = true) : 0 < c.ackTimeout.toNat := by
  obtain ⟨-, -, -, hne, -⟩ := (cfgWf_iff c).1 hc
  bv_omega

/-- RXEVT, TICK and MAIN's operations keep the invariant; SEND needs the ACK_TIMEOUT of R5. -/
theorem exec_ordinary_lawful {i : Instr} {s t : State} (hi : i = .rxEvt ∨ i = .tick ∨ inMain i = true)
    (h : Lawful s) (ht : 0 < s.cfg.ackTimeout.toNat) (he : exec i s = .next t) : Lawful t := by
  have hconclude {α : Type} {answerOf : α → Answer} {m : Res α} (hm : m.All Lawful)
      (hc : conclude s answerOf m = .next t) : Lawful t :=
    conclude_all hm h (fun _ a => Lawful.setAnswer a) hc
  rcases hi with rfl | rfl | hmain
  · exact hconclude (rxEvt_lawful h) he
  · exact hconclude (tick_lawful h ht) he
  cases i with
  | init => exact hconclude (init_lawful h) he
  | config baud chan power e => exact hconclude (config_lawful h baud chan power e) he
  | setRx => exact hconclude (setRx_lawful h) he
  | setIdle => exact hconclude (setIdle_lawful h) he
  | hasData => exact hconclude (m := .done s.hasBytes s) h he
  | readByte => exact hconclude (readByte_eq s ▸ rbGet_lawful h) he
  | isBusy => exact hconclude (m := .done s.de.awaitingAck s) h he
  | enqB b dst => exact hconclude (enqB_lawful h ht b dst) he
  | _ => cases hmain

/-- Settles O55: every operation of MAIN, RXI and TMI keeps the invariant, and a step runs one of them. -/
theorem stepKeepsTheInvariant : Obligations.StepKeepsTheInvariant := by
  intro s t ho h hstep
  have hcfg : cfgWf s.cfg = true := (step_next hstep).1
  have hkeep : Lawful t ∧ t.cfg = s.cfg := by
    refine step_keeps (P := fun u => Lawful u ∧ u.cfg = s.cfg) (fun u e hu => ⟨hu.1.setEnv e, hu.2⟩)
      (fun turn r u i rest v hf hd ha ⟨hu, hc⟩ he => ?_) ⟨h, rfl⟩ hstep
    exact ⟨exec_ordinary_lawful (instr_of_ordinaryTurn ho hf hd ha) hu (hc ▸ ackTimeout_pos hcfg) he,
      (exec_grown he).cfg.trans hc⟩
  exact hkeep.1

end Sys2Proof.Machine

/-! The buffers (20_memory.md: R41, R60, R65): every operation keeps them in canonical form, and no operation of MAIN, RXI
or TMI leaves a buffer or reads a byte that nothing has written. -/

namespace Sys2Proof.Machine

/-! ### The canonical form through each operation (log 2) -/

/-- Words sent leave the buffers alone. -/
theorem Sent.memWf {s u : State} {ws : List Word} (hu : Sent s u ws) (h : s.memWf) : u.memWf := by
  simpa only [State.memWf, hu.ra, hu.rb, hu.de] using h

/-- Of the buffers RB.PUT writes the ring only. -/
theorem Buffered.memWf {s t : State} (ht : Buffered s t) (h : s.memWf) : t.memWf := by
  obtain ⟨hpay, hseq, hrb, htxb⟩ := h
  exact ⟨ht.ra ▸ hpay, ht.ra ▸ hseq, ht.wf hrb, ht.de ▸ htxb⟩

section
variable {s : State}

theorem waitRdy_memWf (h : s.memWf) : (waitRdy s).All State.memWf := by
  obtain ⟨u, hu, -, ⟨he, -⟩ | ⟨he, -⟩⟩ := waitRdy_cases s <;> rw [he] <;> exact hu.memWf h

theorem resync_memWf (h : s.memWf) : (resync s).memWf := by
  obtain ⟨u, hu, he⟩ := resync_spec s
  exact he ▸ hu.memWf h

theorem setRx_memWf (h : s.memWf) : (setRx s).All State.memWf := by
  obtain ⟨u, hu, hb⟩ := setRxBody_spec s
  obtain ⟨-, he⟩ | ⟨-, he⟩ := setRx_cases s <;> rw [he]
  · exact hb ▸ hu.memWf h
  · trivial

theorem setTx_memWf (h : s.memWf) : (setTx s).All State.memWf := by
  obtain ⟨u, hu, hb⟩ := setTxBody_spec s
  obtain ⟨-, he⟩ | ⟨-, he⟩ := setTx_cases s <;> rw [he]
  · exact hb ▸ hu.memWf h
  · trivial

theorem setIdle_memWf (h : s.memWf) : (setIdle s).All State.memWf := by
  obtain ⟨-, u, hu, he⟩ | ⟨-, he⟩ := setIdle_cases s <;> rw [he]
  · exact hu.memWf h
  · trivial

theorem init_memWf (h : s.memWf) : (init s).All State.memWf := by
  obtain ⟨-, u, hu, he⟩ | ⟨-, he⟩ := init_cases s <;> rw [he]
  · exact hu.memWf h
  · trivial

theorem config_memWf (h : s.memWf) (baud : Nat) (chan : BitVec 2) (power : Nat) (e : Profile) :
    (config baud chan power e s).All State.memWf := by
  obtain ⟨-, u, hu, he⟩ | ⟨-, he⟩ := config_cases baud chan power e s <;> rw [he]
  · exact hu.memWf h
  · trivial

theorem txByte_memWf (h : s.memWf) (v : Byte) : (txByte v s).All State.memWf := by
  obtain ⟨-, he⟩ | ⟨-, u, hu, he⟩ | ⟨-, u, _, -, hu, he⟩ := txByte_cases v s <;> rw [he]
  · trivial
  · exact hu.memWf h
  · exact hu.memWf h

theorem rxByte_memWf (h : s.memWf) : (rxByte s).All State.memWf := by
  obtain ⟨-, he⟩ | ⟨-, u, hu, he⟩ | ⟨-, u, _, -, hu, he⟩ := rxByte_cases s <;> rw [he]
  · trivial
  · exact hu.memWf h
  · exact hu.memWf h

theorem frameEnc_memWf (h : s.memWf) (t d src q : Byte) (p : List Byte) :
    (frameEnc t d src q p s).All State.memWf := by
  by_cases hm : s.tci.mode = .tx
  · obtain ⟨u, hu, he⟩ | ⟨u, _, -, hu, he⟩ := frameEnc_cases t d src q p s hm <;> rw [he] <;> exact hu.memWf h
  · rw [frameEnc_noStep t d src q p s hm]
    trivial

theorem put_memWf (w : Word) (h : s.memWf) : (put w s).memWf := (put_sent w s).memWf h

theorem rxEscape_memWf (h : s.memWf) : (rxEscape s).All State.memWf :=
  (waitRdy_memWf h).bind fun _ _ => put_memWf _

theorem txEscape_memWf (h : s.memWf) : (txEscape s).All State.memWf :=
  (waitRdy_memWf h).bind fun _ _ => put_memWf _

theorem rawFollows_memWf (h : s.memWf) (v : Byte) : (rawFollows v s).All State.memWf := by
  unfold rawFollows rxTail
  split_ifs
  · exact (rxEscape_memWf h).bind fun _ _ hu => hu
  · exact h
  · exact (txEscape_memWf h).bind fun _ _ hu => hu
  · exact h
  · trivial

theorem sendWord_memWf (h : s.memWf) (w : Word) : (sendWord w s).All State.memWf := put_memWf w h

theorem sendSetup_memWf (h : s.memWf) (n : Nat) : (sendSetup n s).All State.memWf := by
  unfold sendSetup
  split
  · exact sendWord_memWf h _
  · trivial

/-! The delivery engine: SEND and ACKTX read `tx_buf`, ENQB writes it. -/

theorem send_memWf (h : s.memWf) (first : Bool) : (send first s).All State.memWf := by
  obtain ⟨-, he⟩ | ⟨_, he, -⟩ | ⟨-, -, _, -, -, ⟨w, hw, he⟩ | ⟨w, _, -, hw, he⟩⟩ := send_cases first s <;> rw [he]
  · trivial
  · trivial
  · exact hw.memWf h
  · exact hw.memWf h

theorem ackTx_memWf (h : s.memWf) : (ackTx s).All State.memWf := by
  obtain ⟨-, he⟩ | ⟨-, -, ⟨w, hw, he⟩ | ⟨w, _, -, hw, he⟩⟩ := ackTx_cases s <;> rw [he]
  · trivial
  · exact hw.memWf h
  · exact hw.memWf h

theorem enqueuedState_memWf (h : s.memWf) (b dst : Byte) : (enqueuedState b dst s).memWf := by
  obtain ⟨hpay, hseq, hrb, htxb⟩ := h
  exact ⟨hpay, hseq, hrb, Memory.write_wf _ _ _ htxb⟩

theorem enqB_memWf (h : s.memWf) (b dst : Byte) : (enqB b dst s).All State.memWf := by
  obtain ⟨-, he⟩ | ⟨-, -, he⟩ | ⟨-, -, he⟩ | ⟨-, -, he⟩ := enqB_cases b dst s <;> rw [he]
  · trivial
  · trivial
  · exact enqueuedState_memWf h b dst
  · exact send_memWf (enqueuedState_memWf h b dst) true

theorem tickTimeout_memWf (h : s.memWf) : (tickTimeout s).All State.memWf := by
  obtain ⟨-, he⟩ | ⟨-, he⟩ | ⟨-, -, -, he⟩ | ⟨-, -, -, he⟩ | ⟨-, -, -, he⟩ | ⟨-, -, -, he⟩ := tickTimeout_cases s <;>
    rw [he]
  · exact h
  · exact h
  · exact send_memWf (s := s.countDown.spendRetry) h false
  · exact h
  · exact send_memWf (s := s.countDown) h true
  · exact h

theorem tick_memWf (h : s.memWf) : (tick s).All State.memWf := by
  cases hp : s.de.ackPending
  · exact tick_plain hp ▸ tickTimeout_memWf h
  · exact tick_confirm hp ▸ (ackTx_memWf h).bind fun _ _ => tickTimeout_memWf

theorem ackRx_memWf (h : s.memWf) : (ackRx s).memWf := by
  obtain ⟨-, he⟩ | ⟨-, he⟩ := ackRx_cases s <;> rw [he] <;> exact h

/-! The ring buffer and the receive assembler. -/

theorem rbPut_memWf (h : s.memWf) (b : Byte) : (rbPut b s).All State.memWf := by
  obtain ⟨-, he⟩ | ⟨-, -, he⟩ | ⟨-, -, he⟩ := rbPut_cases b s
  · exact he ▸ (rbPut_buffered he).memWf h
  · exact he ▸ (rbPut_buffered he).memWf h
  · rw [he]
    trivial

theorem rbGet_memWf (h : s.memWf) : (rbGet s).All State.memWf := by
  obtain ⟨-, he⟩ | ⟨-, _, -, -, he⟩ | ⟨-, -, _, he⟩ := rbGet_cases s <;> rw [he]
  · trivial
  · exact h
  · trivial

theorem noteSeq_memWf (h : s.memWf) : s.noteSeq.memWf := by
  obtain ⟨hpay, hseq, hrb, htxb⟩ := h
  exact ⟨hpay, Memory.write_wf _ _ _ hseq, hrb, htxb⟩

theorem acceptData_memWf (h : s.memWf) : (acceptData s).All State.memWf := by
  obtain ⟨-, he⟩ | ⟨-, t, ht, -, he⟩ | ⟨-, _, he, -⟩ := acceptData_cases s <;> rw [he]
  · exact h
  · exact noteSeq_memWf (ht.memWf h)
  · trivial

theorem judgeFrame_memWf (h : s.memWf) (b : Byte) : (judgeFrame b s).All State.memWf := by
  obtain ⟨-, he⟩ | ⟨-, -, he⟩ | ⟨-, -, -, he⟩ | ⟨-, -, -, -, he⟩ | ⟨-, -, -, -, he⟩ := judgeFrame_cases b s <;> rw [he]
  · exact h
  · exact h
  · exact acceptData_memWf h
  · exact ackRx_memWf h
  · exact h

theorem armChk_memWf (h : s.memWf) (b : Byte) : (armChk b s).All State.memWf :=
  (judgeFrame_memWf (resync_memWf h) b).bind fun _ _ hu => hu

theorem armPay_memWf (h : s.memWf) (b : Byte) : (armPay b s).All State.memWf := by
  obtain ⟨hpay, hrest⟩ := h
  obtain ⟨-, he⟩ | ⟨-, he⟩ := armPay_cases b s <;> rw [he]
  · exact ⟨Memory.write_wf _ _ _ hpay, hrest⟩
  · trivial

theorem arm_memWf (h : s.memWf) (b : Byte) : (arm b s).All State.memWf := by
  unfold arm
  cases s.ra.st with
  | idle | len | dst | src | seq => exact h
  | pay => exact armPay_memWf h b
  | chk => exact armChk_memWf h b

theorem rxEvt_memWf (h : s.memWf) : (rxEvt s).All State.memWf := by
  obtain ⟨-, he⟩ | ⟨-, -, ⟨u, _, -, hu, he⟩ | ⟨u, hu, he⟩⟩ := rxEvt_cases s <;> rw [he]
  · trivial
  · exact hu.memWf h
  split
  · exact resync_memWf (s := u.raise .stateMachineStall) (hu.memWf h)
  · exact arm_memWf (hu.memWf h) _

theorem whenSt_memWf (x : RxState) {m : Res Unit} (hm : m.All State.memWf) : (whenSt x s m).All State.memWf := by
  unfold whenSt
  split
  · exact hm
  · trivial

/-- Every instruction, a row standing alone included, keeps the buffers in canonical form. -/
theorem exec_memWf {i : Instr} {t : State} (h : s.memWf) (he : exec i s = .next t) : t.memWf := by
  have hconclude {α : Type} {answerOf : α → Answer} {m : Res α} (hm : m.All State.memWf)
      (hc : conclude s answerOf m = .next t) : t.memWf :=
    conclude_all hm h (fun _ _ hu => hu) hc
  have hunit {u : State} (hu : u.memWf) (hc : concludeUnit s (.done () u) = .next t) : t.memWf :=
    hconclude (m := .done () u) hu hc
  cases i with
  | xfer w => exact hconclude (sendWord_memWf h w) he
  | waitRdy => exact hconclude (waitRdy_memWf h) he
  | init => exact hconclude (init_memWf h) he
  | config baud chan power e => exact hconclude (config_memWf h baud chan power e) he
  | setRx => exact hconclude (setRx_memWf h) he
  | setTx => exact hconclude (setTx_memWf h) he
  | setIdle => exact hconclude (setIdle_memWf h) he
  | resync => exact hunit (resync_memWf h) he
  | txByte v => exact hconclude (txByte_memWf h v) he
  | rxByte => exact hconclude (rxByte_memWf h) he
  | crc8Upd c b => exact hconclude (m := .done (crc8Upd s.cfg c b) s) h he
  | frameEnc t d src q p => exact hconclude (frameEnc_memWf h t d src q p) he
  | rxEvt => exact hconclude (rxEvt_memWf h) he
  | rbPut b => exact hconclude (rbPut_memWf h b) he
  | rbGet => exact hconclude (rbGet_memWf h) he
  | hasData => exact hconclude (m := .done s.hasBytes s) h he
  | readByte => exact hconclude (readByte_eq s ▸ rbGet_memWf h) he
  | isBusy => exact hconclude (m := .done s.de.awaitingAck s) h he
  | enqB b dst => exact hconclude (enqB_memWf h b dst) he
  | send first => exact hconclude (send_memWf h first) he
  | tick => exact hconclude (tick_memWf h) he
  | ackRx => exact hunit (ackRx_memWf h) he
  | ackTx => exact hconclude (ackTx_memWf h) he
  | opRsvd10111 | opRsvd11xxx | stNone => cases he
  | stIdle b => exact hconclude (whenSt_memWf .idle (m := .done () (armIdle b s)) h) he
  | stLen b => exact hconclude (whenSt_memWf .len (m := .done () (armLen b s)) h) he
  | stDst b => exact hconclude (whenSt_memWf .dst (m := .done () (armDst b s)) h) he
  | stSrc b => exact hconclude (whenSt_memWf .src (m := .done () (armSrc b s)) h) he
  | stSeq b => exact hconclude (whenSt_memWf .seq (m := .done () (armSeq b s)) h) he
  | stPay b => exact hconclude (whenSt_memWf .pay (armPay_memWf h b)) he
  | stChk b => exact hconclude (whenSt_memWf .chk (armChk_memWf h b)) he
  | rawFill00 | rawFillFF | rawPlain => exact hconclude (rawFollows_memWf h _) he
  | typeData => exact hconclude (acceptData_memWf h) he
  | typeAck => exact hunit (ackRx_memWf h) he
  | typeRsvd => exact hunit h he
  | cwInit0 | cwInit1 | cwInit2 | cwInit3 | cwInit4 | cwInit5 | cwInit6 => exact hconclude (sendSetup_memWf h _) he
  | cwRxRead => exact hconclude (answerOf := fun r => .byte (rxByteOf r)) (sendWord_memWf h s.cfg.cwRxRead) he
  | cwFifoStop | cwFifoArm | cwIdle | cwRxOn | cwTxOn | cwTxWrite | cwRate | cwFreq | cwTxCfg | cwRxCfg
  | cwStatus => exact hconclude (sendWord_memWf h _) he

end

/-- Settles O56: every instruction keeps the canonical form, and what the step adds is ENV's record only. -/
theorem stepKeepsTheBuffersCanonical : Obligations.StepKeepsTheBuffersCanonical :=
  fun _ _ hs h => step_keeps (fun _ _ hu => hu) (fun _ _ _ _ _ _ _ _ _ hu he => exec_memWf hu he) hs h

/-! ### What an access needs (R41, R65) -/

/-- Every pending byte lies in `tx_buf` and is written. -/
structure PendingStored (s : State) : Prop where
  fits : s.de.txCnt.toNat ≤ 128
  stored : ∀ i < s.de.txCnt.toNat, (s.de.txBuf.read i).isSome

theorem PendingStored.sent {s u : State} {ws : List Word} (h : PendingStored s) (hu : Sent s u ws) :
    PendingStored u :=
  ⟨hu.de ▸ h.fits, hu.de ▸ h.stored⟩

/-- Every byte of the received payload lies in the payload buffer and is written, and `head` lies in the ring. -/
structure Deliverable (s : State) : Prop where
  fits : s.ra.fLen.toNat ≤ 128
  stored : ∀ i < s.ra.fLen.toNat, (s.ra.pay.read i).isSome
  head : s.rb.head < s.cfg.rbSize

theorem Deliverable.sent {s u : State} {ws : List Word} (h : Deliverable s) (hu : Sent s u ws) : Deliverable u :=
  ⟨hu.ra ▸ h.fits, hu.ra ▸ h.stored, hu.rb ▸ hu.cfg ▸ h.head⟩

section
variable {s : State}

theorem Lawful.pendingStored (h : Lawful s) (hf : s.tci.hwFault = false) : PendingStored s :=
  ⟨h.steady.txCnt, (h.sound hf).txStored⟩

/-- Pending bytes that are written are a payload. -/
theorem PendingStored.exists_pendingIs (h : PendingStored s) : ∃ p, pendingIs s p := by
  refine ⟨(List.range s.de.txCnt.toNat).map fun i => (s.de.txBuf.read i).getD 0, by simp, fun i hi => ?_⟩
  simp only [List.length_map, List.length_range] at hi
  obtain ⟨b, hb⟩ := Option.isSome_iff_exists.1 (h.stored i hi)
  simp [hi, hb]

/-- A ring that holds a byte has it written at `tail`. -/
theorem tail_stored (hr : s.ringOk) (hne : s.rb.head ≠ s.rb.tail) (h : ∀ x ∈ s.queue, x.isSome) :
    (s.rb.cells.read s.rb.tail).isSome := by
  have hheld : 0 < s.held := by
    rw [held_eq hr]
    obtain ⟨hhead, htail⟩ := hr
    split_ifs <;> omega
  have htail : (s.rb.tail + 0) % s.cfg.rbSize = s.rb.tail := Nat.mod_eq_of_lt hr.2
  exact htail ▸ (ringStored_iff s).1 h 0 hheld

/-! ### No operation of MAIN, RXI or TMI faults -/

variable {f : Fault}

theorem setRx_ne_fault : setRx s ≠ .fault f := by
  obtain ⟨-, he⟩ | ⟨-, he⟩ := setRx_cases s <;> rw [he] <;> nofun

theorem setIdle_ne_fault : setIdle s ≠ .fault f := by
  obtain ⟨-, _, -, he⟩ | ⟨-, he⟩ := setIdle_cases s <;> rw [he] <;> nofun

theorem init_ne_fault : init s ≠ .fault f := by
  obtain ⟨-, _, -, he⟩ | ⟨-, he⟩ := init_cases s <;> rw [he] <;> nofun

theorem config_ne_fault {baud : Nat} {chan : BitVec 2} {power : Nat} {e : Profile} :
    config baud chan power e s ≠ .fault f := by
  obtain ⟨-, _, -, he⟩ | ⟨-, he⟩ := config_cases baud chan power e s <;> rw [he] <;> nofun

theorem rbGet_ne_fault (hr : s.ringOk) (h : ∀ x ∈ s.queue, x.isSome) : rbGet s ≠ .fault f := by
  obtain ⟨-, he⟩ | ⟨-, _, -, -, he⟩ | ⟨hne, hbad | hnone, _, -⟩ := rbGet_cases s
  · rw [he]; nofun
  · rw [he]; nofun
  · exact absurd hr.2 hbad
  · simpa [hnone] using tail_stored hr hne h

theorem send_ne_fault (h : PendingStored s) (first : Bool) : send first s ≠ .fault f := by
  obtain ⟨-, he⟩ | ⟨_, -, hnone⟩ | ⟨-, -, _, -, -, ⟨_, -, he⟩ | ⟨_, _, -, -, he⟩⟩ := send_cases first s
  · rw [he]; nofun
  · obtain ⟨p, hp⟩ := h.exists_pendingIs
    exact absurd ⟨hp, h.fits⟩ (hnone p)
  · rw [he]; nofun
  · rw [he]; nofun

/-- ENQB has room (R42), and the 128th byte leaves a payload that SEND can read. -/
theorem enqB_ne_fault (h : PendingStored s) (hroom : s.de.awaitingAck = false → s.de.txCnt.toNat < 128)
    (b dst : Byte) : enqB b dst s ≠ .fault f := by
  obtain ⟨-, he⟩ | ⟨hen, hfull, -⟩ | ⟨-, -, he⟩ | ⟨-, hc, he⟩ := enqB_cases b dst s
  · rw [he]; nofun
  · exact absurd (hroom (by simp_all [State.canEnqueue])) hfull
  · rw [he]; nofun
  · have hlt : s.de.txCnt.toNat < 128 := by omega
    have hcnt : (enqueuedState b dst s).de.txCnt.toNat ≤ 128 := (toNat_txCnt_succ hlt).trans_le hlt
    exact he ▸ send_ne_fault ⟨hcnt, txStored_enqueuedState b dst hlt h.stored⟩ true

theorem tickTimeout_ne_fault (h : PendingStored s) : tickTimeout s ≠ .fault f := by
  obtain ⟨-, he⟩ | ⟨-, he⟩ | ⟨-, -, -, he⟩ | ⟨-, -, -, he⟩ | ⟨-, -, -, he⟩ | ⟨-, -, -, he⟩ := tickTimeout_cases s <;>
    rw [he]
  · nofun
  · nofun
  · exact send_ne_fault (s := s.countDown.spendRetry) { h with } false
  · nofun
  · exact send_ne_fault (s := s.countDown) { h with } true
  · nofun

/-- TICK: the confirmation sent first leaves the pending bytes as they were (R222, R258). -/
theorem tick_ne_fault (h : PendingStored s) : tick s ≠ .fault f := by
  cases hp : s.de.ackPending
  · exact tick_plain hp ▸ tickTimeout_ne_fault h
  rw [tick_confirm hp]
  obtain ⟨-, he⟩ | ⟨-, -, ⟨w, hw, he⟩ | ⟨_, _, -, -, he⟩⟩ := ackTx_cases s <;> rw [he]
  · nofun
  · exact tickTimeout_ne_fault (s := (backToRx w).ackSent) { h.sent hw with }
  · nofun

theorem rbPut_ne_fault (h : s.rb.head < s.cfg.rbSize) (b : Byte) : rbPut b s ≠ .fault f := by
  obtain ⟨-, he⟩ | ⟨-, -, he⟩ | ⟨-, hbad, -⟩ := rbPut_cases b s
  · rw [he]; nofun
  · rw [he]; nofun
  · exact absurd h hbad

/-- Delivery reads written bytes only, and RB.PUT keeps them and `head`'s bound. -/
theorem deliver_ne_fault (n : Nat) : ∀ (i : Nat) {s : State}, s.rb.head < s.cfg.rbSize → i + n ≤ 128 →
    (∀ k < i + n, (s.ra.pay.read k).isSome) → deliver i n s ≠ .fault f := by
  induction n with
  | zero => exact fun _ _ _ _ _ => nofun
  | succ n ih =>
    intro i s hhead hfits hstored hfault
    obtain ⟨b, hb⟩ := Option.isSome_iff_exists.1 (hstored i (by omega))
    have hread : memRead .pay i s = .done b s := memRead_done (show i < 128 by omega) hb
    rw [deliver, hread, Res.bind_done] at hfault
    obtain hput | ⟨_, u, hput, hrest⟩ := Res.bind_eq_fault.1 hfault
    · exact rbPut_ne_fault hhead b hput
    · have hu : Buffered s u := rbPut_buffered hput
      refine ih (i + 1) (hu.cfg ▸ hu.head hhead) (by omega) (fun k hk => ?_) hrest
      exact hu.ra ▸ hstored k (by omega)

theorem acceptData_ne_fault (h : Deliverable s) : acceptData s ≠ .fault f := by
  obtain ⟨-, he⟩ | ⟨-, _, -, -, he⟩ | ⟨-, _, -, hfault⟩ := acceptData_cases s
  · rw [he]; nofun
  · rw [he]; nofun
  · exact absurd hfault (deliver_ne_fault _ 0 h.head (by simpa using h.fits) (by simpa using h.stored))

theorem judgeFrame_ne_fault (h : Deliverable s) (b : Byte) : judgeFrame b s ≠ .fault f := by
  obtain ⟨-, he⟩ | ⟨-, -, he⟩ | ⟨-, -, -, he⟩ | ⟨-, -, -, -, he⟩ | ⟨-, -, -, -, he⟩ := judgeFrame_cases b s <;> rw [he]
  · nofun
  · nofun
  · exact acceptData_ne_fault h
  · nofun
  · nofun

/-- The checksum arm: RESYNC leaves the received payload as it was. -/
theorem armChk_ne_fault (h : Deliverable s) (b : Byte) : armChk b s ≠ .fault f := by
  obtain ⟨u, hu, he⟩ := armChk_spec b s
  have hdeliverable : Deliverable (u.setSt .idle) := { h.sent hu with }
  rw [he]
  intro hfault
  obtain hjudge | ⟨_, _, -, hst⟩ := Res.bind_eq_fault.1 hfault
  · exact judgeFrame_ne_fault hdeliverable b hjudge
  · cases hst

theorem armPay_ne_fault (h : s.ra.idx.toNat < 128) (b : Byte) : armPay b s ≠ .fault f := by
  obtain ⟨-, he⟩ | ⟨hbad, -⟩ := armPay_cases b s
  · rw [he]; nofun
  · exact absurd h hbad

theorem arm_ne_fault (h : Lawful s) (hf : s.tci.hwFault = false) (b : Byte) : arm b s.countWd ≠ .fault f := by
  unfold arm
  cases hst : s.countWd.ra.st with
  | idle | len | dst | src | seq => nofun
  | pay => exact armPay_ne_fault (s := s.countWd) (((h.sound hf).idx hst).trans_le h.steady.fLen) b
  | chk => exact armChk_ne_fault (s := s.countWd) ⟨h.steady.fLen, (h.sound hf).payFull hst, h.steady.head⟩ b

theorem rxEvt_ne_fault (h : Lawful s) (hf : s.tci.hwFault = false) : rxEvt s ≠ .fault f := by
  obtain ⟨-, he⟩ | ⟨-, -, ⟨_, _, -, -, he⟩ | ⟨u, hu, he⟩⟩ := rxEvt_cases s <;> rw [he]
  · nofun
  · nofun
  obtain ⟨v, hv, rfl⟩ := sent_countWd hu
  split
  · nofun
  · exact arm_ne_fault (h.sent hv) (by rw [hv.tci]; exact hf) _

/-- RXEVT, TICK and MAIN's operations do not fault in a state of the invariant with no fault latched. -/
theorem exec_ordinary_ne_fault {i : Instr} (hi : i = .rxEvt ∨ i = .tick ∨ inMain i = true) (h : Lawful s)
    (hf : s.tci.hwFault = false) : exec i s ≠ .fault f := by
  intro he
  rcases hi with rfl | rfl | hmain
  · exact rxEvt_ne_fault h hf (conclude_fault he)
  · exact tick_ne_fault (h.pendingStored hf) (conclude_fault he)
  cases i with
  | init => exact init_ne_fault (conclude_fault he)
  | config => exact config_ne_fault (conclude_fault he)
  | setRx => exact setRx_ne_fault (conclude_fault he)
  | setIdle => exact setIdle_ne_fault (conclude_fault he)
  | hasData | isBusy => cases he
  | readByte => exact rbGet_ne_fault h.ringOk (h.sound hf).ringStored (readByte_eq s ▸ conclude_fault he)
  | enqB b dst => exact enqB_ne_fault (h.pendingStored hf) (h.sound hf).room b dst (conclude_fault he)
  | _ => cases hmain

end

/-- Settles O57: a step faults only where the operation it runs does, and it starts in a state of the invariant. -/
theorem soundStatesNeverFault : Obligations.SoundStatesNeverFault := by
  intro s f ho h hf hstep
  obtain ⟨-, turn, r, u, i, rest, hstart, hd, ha, he⟩ := step_fault hstep
  have hi : i = .rxEvt ∨ i = .tick ∨ inMain i = true := instr_of_ordinaryTurn ho hstart hd ha
  obtain ⟨_, hfetch⟩ | ⟨_, _, e, hfetch⟩ := fetch_env s <;> rw [hfetch] at hstart <;> cases hstart
  exact exec_ordinary_ne_fault hi (h.setEnv e) hf he

end Sys2Proof.Machine

/-! The formats (30_encoding.md: R90 to R103): the words of format CW row by row, the requests of every instruction, and
the codes that spell none. -/

namespace Sys2Proof

open Laws.TableRow (joinWord_bytes)

/-! ### Bits under a mask (R90) -/

/-- A word is its high bits before its low bits. -/
theorem append_extractLsb' {k n : Nat} (w : BitVec (k + n)) : w.extractLsb' n k ++ w.extractLsb' 0 n = w := by
  rw [BitVec.extractLsb'_append_extractLsb'_eq_extractLsb' (by omega), BitVec.extractLsb'_eq_self]

/-- Comparing the high bits of a word is comparing the word under the mask of those bits. -/
theorem extractLsb'_eq_iff_and_mask {k n : Nat} (w : BitVec (k + n)) (p : BitVec k) :
    w.extractLsb' n k = p ↔ w &&& (BitVec.allOnes k ++ 0#n) = p ++ 0#n := by
  conv_rhs => rw [← append_extractLsb' w, BitVec.and_append, BitVec.and_allOnes, BitVec.and_zero]
  exact (BitVec.append_left_inj 0#n).symm

/-- High bits before data bits are the word of the high bits with the data bits set in (R95). -/
theorem append_eq_or_setWidth {k n : Nat} (p : BitVec k) (d : BitVec n) :
    p ++ d = (p ++ 0#n) ||| d.setWidth (k + n) := by
  have hd : d.setWidth (k + n) = 0#k ++ d := by
    refine BitVec.eq_of_getLsbD_eq fun i hi => ?_
    rw [BitVec.getLsbD_setWidth, BitVec.getLsbD_append, decide_eq_true hi, Bool.true_and]
    split
    · rfl
    · rw [BitVec.getLsbD_zero, BitVec.getLsbD_of_ge d i (by omega)]
  rw [hd, BitVec.or_append, BitVec.or_zero, BitVec.zero_or]

/-- Words under one row's mask differ from another row's value, where the two values differ under both masks. -/
theorem and_ne_of_rows_disjoint {n : Nat} {w m v m' v' : BitVec n} (h : w &&& m = v) (hne : v &&& m' ≠ v' &&& m) :
    w &&& m' ≠ v' := by
  rintro rfl
  exact hne (by rw [← h, BitVec.and_assoc, BitVec.and_comm m, ← BitVec.and_assoc])

/-! ### The rows of format CW (R94, R102) -/

/-- A row of format CW: the bits compared, their value, and the instruction of a word in the row. -/
structure CwRow where
  mask  : Word
  value : Word
  instr : Word → Instr

/-- The rows of format CW in the order of spec/opcode_table.json. -/
def cwRows : List CwRow :=
  [⟨0xFFFF, 0xCA81, fun _ => .cwFifoStop⟩, ⟨0xFFFF, 0xCA83, fun _ => .cwFifoArm⟩, ⟨0xFFFF, 0xC0E0, fun _ => .cwInit0⟩,
    ⟨0xFFFF, 0x80D7, fun _ => .cwInit1⟩, ⟨0xFFFF, 0xC2AB, fun _ => .cwInit2⟩, ⟨0xFFFF, 0xCA81, fun _ => .cwInit3⟩,
    ⟨0xFFFF, 0xE000, fun _ => .cwInit4⟩, ⟨0xFFFF, 0xC800, fun _ => .cwInit5⟩, ⟨0xFFFF, 0xC4F7, fun _ => .cwInit6⟩,
    ⟨0xFFFF, 0x8208, fun _ => .cwIdle⟩, ⟨0xFFFF, 0x82C8, fun _ => .cwRxOn⟩, ⟨0xFFFF, 0x8238, fun _ => .cwTxOn⟩,
    ⟨0xFFFF, 0xB000, fun _ => .cwRxRead⟩, ⟨0xFF00, 0xB800, fun w => .cwTxWrite (w.extractLsb' 0 8)⟩,
    ⟨0xFF00, 0xC600, fun w => .cwRate (w.extractLsb' 0 8)⟩, ⟨0xF000, 0xA000, fun w => .cwFreq (w.extractLsb' 0 12)⟩,
    ⟨0xFE00, 0x9800, fun w => .cwTxCfg (w.extractLsb' 0 9)⟩, ⟨0xF800, 0x9000, fun w => .cwRxCfg (w.extractLsb' 0 11)⟩,
    ⟨0xFFFF, 0x0000, fun _ => .cwStatus⟩]

/-- The first of the rows that a word matches under its mask (R102). -/
def decodeByRows (w : Word) : List CwRow → Except DecodeError Instr
  | [] => .error (.unknownCommandWord w)
  | r :: l => if w &&& r.mask = r.value then .ok (r.instr w) else decodeByRows w l

/-- The decoder of command words compares them with the table's rows, in the table's order (R102). -/
theorem decodeCw_eq_decodeByRows (w : Word) : decodeCw w = decodeByRows w cwRows := by
  have hwhole (v : Word) : w &&& 0xFFFF = v ↔ w = v := by
    rw [show (0xFFFF : Word) = BitVec.allOnes 16 by decide, BitVec.and_allOnes]
  have htxWrite : w.extractLsb' 8 8 = 0xB8#8 ↔ w &&& 0xFF00 = 0xB800 := extractLsb'_eq_iff_and_mask (n := 8) w 0xB8#8
  have hrate : w.extractLsb' 8 8 = 0xC6#8 ↔ w &&& 0xFF00 = 0xC600 := extractLsb'_eq_iff_and_mask (n := 8) w 0xC6#8
  have hfreq : w.extractLsb' 12 4 = 0xA#4 ↔ w &&& 0xF000 = 0xA000 := extractLsb'_eq_iff_and_mask (n := 12) w 0xA#4
  have htxCfg : w.extractLsb' 9 7 = 0x4C#7 ↔ w &&& 0xFE00 = 0x9800 := extractLsb'_eq_iff_and_mask (n := 9) w 0x4C#7
  have hrxCfg : w.extractLsb' 11 5 = 0x12#5 ↔ w &&& 0xF800 = 0x9000 := extractLsb'_eq_iff_and_mask (n := 11) w 0x12#5
  simp only [decodeCw, cwRows, decodeByRows, hwhole, htxWrite, hrate, hfreq, htxCfg, hrxCfg]

theorem decodeByRows_error {w : Word} {rows : List CwRow} (h : ∀ r ∈ rows, w &&& r.mask ≠ r.value) :
    decodeByRows w rows = .error (.unknownCommandWord w) := by
  induction rows with
  | nil => rfl
  | cons r l ih =>
    rw [List.forall_mem_cons] at h
    rw [decodeByRows, if_neg h.1, ih h.2]

theorem decodeByRows_of_match {w : Word} {before after : List CwRow} {r : CwRow} (hr : w &&& r.mask = r.value)
    (hbefore : ∀ x ∈ before, w &&& x.mask ≠ x.value) : decodeByRows w (before ++ r :: after) = .ok (r.instr w) := by
  induction before with
  | nil => exact if_pos hr
  | cons x l ih =>
    rw [List.forall_mem_cons] at hbefore
    rw [List.cons_append, decodeByRows, if_neg hbefore.1, ih hbefore.2]

/-- A word in row `n` of the table, which no earlier row's words meet, is decoded by that row. -/
theorem decodeCw_of_row {w : Word} (n : Nat) {r : CwRow} (hn : cwRows[n]? = some r) (hr : w &&& r.mask = r.value)
    (hbefore : ∀ x ∈ cwRows.take n, r.value &&& x.mask ≠ x.value &&& r.mask) : decodeCw w = .ok (r.instr w) := by
  obtain ⟨hlt, rfl⟩ := List.getElem?_eq_some_iff.1 hn
  have hrows : cwRows = cwRows.take n ++ cwRows[n] :: cwRows.drop (n + 1) := by
    rw [← List.drop_eq_getElem_cons, List.take_append_drop]
  rw [decodeCw_eq_decodeByRows]
  exact (congrArg (decodeByRows w) hrows).trans
    (decodeByRows_of_match hr fun x hx => and_ne_of_rows_disjoint hr (hbefore x hx))

/-- The word of a row is decoded to that row's instruction; `CW.INIT3` has the word of `CW.FIFO_STOP` (R102). -/
theorem decodeCw_encodeCw {i : Instr} (h : i.format = .cw) : decodeCw (encodeCw i) = .ok i.canon := by
  have hrow {k n : Nat} (p : BitVec k) (d : BitVec n) : (p ++ d) &&& (BitVec.allOnes k ++ 0#n) = p ++ 0#n :=
    (extractLsb'_eq_iff_and_mask _ p).1 BitVec.extractLsb'_append_eq_left
  have hdata {k n : Nat} (p : BitVec k) (d : BitVec n) : (p ++ d).extractLsb' 0 n = d :=
    BitVec.extractLsb'_append_eq_right
  cases i with
  | cwTxWrite t => simpa only [encodeCw, Instr.canon, hdata] using decodeCw_of_row 13 rfl (hrow 0xB8#8 t) (by decide)
  | cwRate d => simpa only [encodeCw, Instr.canon, hdata] using decodeCw_of_row 14 rfl (hrow 0xC6#8 d) (by decide)
  | cwFreq f => simpa only [encodeCw, Instr.canon, hdata] using decodeCw_of_row 15 rfl (hrow 0xA#4 f) (by decide)
  | cwTxCfg d => simpa only [encodeCw, Instr.canon, hdata] using decodeCw_of_row 16 rfl (hrow 0x4C#7 d) (by decide)
  | cwRxCfg d => simpa only [encodeCw, Instr.canon, hdata] using decodeCw_of_row 17 rfl (hrow 0x12#5 d) (by decide)
  | cwFifoStop | cwFifoArm | cwInit0 | cwInit1 | cwInit2 | cwInit3 | cwInit4 | cwInit5 | cwInit6 | cwIdle | cwRxOn
  | cwTxOn | cwRxRead | cwStatus => rfl
  | _ => cases h

/-- A request of format CW is its word, low byte first (log 6). -/
theorem decode_cw (w : Word) (rest : List Byte) :
    decode ⟨.cw, loByte w :: hiByte w :: rest⟩ = (decodeCw w).map fun i => (i, rest) := by
  simp only [decode, joinWord_bytes]
  cases decodeCw w <;> rfl

/-! ### The operands of a request (R101, log 6) -/

/-- The codes above 10111: the reserved ones, then bytes that are no 5-bit code (R101, R103). -/
theorem decodeOp_of_ge {code : Byte} (h : 24 ≤ code.toNat) (rest : List Byte) : decodeOp code rest =
    if code.toNat < 32 then .ok (.opRsvd11xxx (code.setWidth 3), rest) else .error (.opCodeTooWide code) := by
  unfold decodeOp
  split
  case h_25 => rfl
  all_goals omega

theorem decodeSt_of_ge {code : Byte} (h : 8 ≤ code.toNat) (rest : List Byte) :
    decodeSt code rest = .error (.stCodeTooWide code) := by
  unfold decodeSt
  split
  case h_9 => rfl
  all_goals omega

theorem decodeXfer_bytes (w : Word) (rest : List Byte) :
    decodeXfer (loByte w :: hiByte w :: rest) = .ok (.xfer w, rest) := by
  rw [decodeXfer, joinWord_bytes]

theorem decodeConfig_bytes {baud power : Nat} (hb : baud < 2 ^ 32) (hp : power < 2 ^ 32) (chan : BitVec 2)
    (e : Profile) (rest : List Byte) :
    decodeConfig (natBytes baud ++ chan.setWidth 8 :: natBytes power ++ profileByte e :: rest) =
      .ok (.config baud chan power e, rest) := by
  simp [decodeConfig, natBytes, Machine.decodeChannel_setWidth, Machine.decodeProfile_profileByte,
    Machine.natOfBytes_ofNat hb, Machine.natOfBytes_ofNat hp]

/-- A payload behind its length byte. -/
theorem decodeFrameEnc_bytes {p : List Byte} (hp : p.length < 256) (t d src q : Byte) (rest : List Byte) :
    decodeFrameEnc (t :: d :: src :: q :: BitVec.ofNat 8 p.length :: (p ++ rest)) =
      .ok (.frameEnc t d src q p, rest) := by
  have hlen : (BitVec.ofNat 8 p.length).toNat = p.length := Nat.mod_eq_of_lt hp
  simp [decodeFrameEnc, hlen]

theorem decodeOp_reserved (x : BitVec 3) (rest : List Byte) :
    decodeOp (0x3#5 ++ x) rest = .ok (.opRsvd11xxx x, rest) := by
  have hcode : 24 ≤ (0x3#5 ++ x : Byte).toNat ∧ (0x3#5 ++ x : Byte).toNat < 32 := by revert x; decide
  rw [decodeOp_of_ge hcode.1, if_pos hcode.2, BitVec.setWidth_append_eq_right]

theorem decodeRaw_plain {v : Byte} (h : (Instr.rawPlain v).wf = true) : decodeRaw v = .rawPlain v := by
  simp_all [Instr.wf, decodeRaw]

theorem decodeType_rsvd {t : Byte} (h : (Instr.typeRsvd t).wf = true) : decodeType t = .typeRsvd t := by
  simp_all [Instr.wf, decodeType]

/-! ### Decoding what was encoded (R101, R102) -/

/-- The word of a CW row, as two bytes, spells that row's instruction. -/
theorem decode_encodeCw {i : Instr} (h : i.format = .cw) (rest : List Byte) :
    decode ⟨.cw, loByte (encodeCw i) :: hiByte (encodeCw i) :: rest⟩ = .ok (i.canon, rest) := by
  rw [decode_cw, decodeCw_encodeCw h]
  rfl

/-- The request of a well-formed instruction, whatever follows it, spells the instruction. -/
theorem decode_encodeBytes_append {i : Instr} (h : i.wf = true) (rest : List Byte) :
    decode ⟨i.format, encodeBytes i ++ rest⟩ = .ok (i.canon, rest) := by
  cases i with
  | xfer w => exact decodeXfer_bytes w rest
  | config baud chan power e =>
    obtain ⟨hb, hp⟩ : baud < 2 ^ 32 ∧ power < 2 ^ 32 := by simpa [Instr.wf] using h
    exact decodeConfig_bytes hb hp chan e rest
  | frameEnc t d src q p => exact decodeFrameEnc_bytes (of_decide_eq_true h) t d src q rest
  | send first => cases first <;> rfl
  | opRsvd11xxx x => exact decodeOp_reserved x rest
  | rawPlain v => exact congrArg (fun i => Except.ok (i, rest)) (decodeRaw_plain h)
  | typeRsvd t => exact congrArg (fun i => Except.ok (i, rest)) (decodeType_rsvd h)
  | cwFifoStop | cwFifoArm | cwInit0 | cwInit1 | cwInit2 | cwInit3 | cwInit4 | cwInit5 | cwInit6 | cwIdle | cwRxOn
  | cwTxOn | cwRxRead | cwTxWrite | cwRate | cwFreq | cwTxCfg | cwRxCfg | cwStatus =>
    exact decode_encodeCw rfl rest
  | _ => rfl

/-- The canonical instruction, as a condition. -/
theorem Instr.canon_eq (i : Instr) : i.canon = if i = .cwInit3 then .cwFifoStop else i := by
  unfold Instr.canon
  split <;> simp_all

/-- Settles O2: the round trip of each format. -/
theorem encodedInstructionsDecodeBack : Obligations.EncodedInstructionsDecodeBack := by
  intro i rest h
  rw [← Instr.canon_eq]
  exact decode_encodeBytes_append h rest

/-- Settles O1: each code evaluated. -/
theorem decodeReadsTheTableCodes : Obligations.DecodeReadsTheTableCodes :=
  ⟨rfl, rfl, rfl, rfl, rfl, rfl, rfl, rfl, rfl, rfl, rfl, rfl, rfl, rfl⟩

/-! ### Bytes that spell no instruction (R103) -/

/-- A CONFIG with all its bytes and a channel above 3. -/
theorem decodeConfig_channelAboveThree {b : Byte} (h : 4 ≤ b.toNat) (b0 b1 b2 b3 : Byte) {rest : List Byte}
    (hrest : 5 ≤ rest.length) : decodeConfig (b0 :: b1 :: b2 :: b3 :: b :: rest) = .error (.channelAboveThree b) := by
  obtain ⟨p0, p1, p2, p3, e, rest, rfl⟩ : ∃ p0 p1 p2 p3 e l, rest = p0 :: p1 :: p2 :: p3 :: e :: l := by
    match rest, hrest with
    | p0 :: p1 :: p2 :: p3 :: e :: l, _ => exact ⟨p0, p1, p2, p3, e, l, rfl⟩
  have hchan : decodeChannel b = .error (.channelAboveThree b) := if_neg (by omega)
  simp only [decodeConfig, hchan]

/-- A word that no row matches (R103). -/
theorem decodeCw_error {w : Word} (h : ∀ r ∈ cwRows, w &&& r.mask ≠ r.value) :
    decodeCw w = .error (.unknownCommandWord w) :=
  (decodeCw_eq_decodeByRows w).trans (decodeByRows_error h)

/-- Settles O3: the reserved rows run to their refusal, and each decoder refuses what lies outside its codes. -/
theorem reservedCodesAreRefused : Obligations.ReservedCodesAreRefused := by
  refine ⟨fun _ => rfl, fun _ _ => rfl, fun _ => rfl, fun b rest hb => ?_, fun b rest hb => decodeSt_of_ge hb rest,
    fun b0 b1 b2 b3 b rest hb hrest => decodeConfig_channelAboveThree hb b0 b1 b2 b3 hrest, fun w rest h => ?_⟩
  · exact (decodeOp_of_ge (by omega) rest).trans (if_neg (by omega))
  · have hrows : ∀ r ∈ cwRows, w &&& r.mask ≠ r.value := fun r hr =>
      h (r.mask, r.value) (List.mem_map_of_mem (f := fun r : CwRow => (r.mask, r.value)) hr)
    exact (decode_cw w rest).trans (by rw [decodeCw_error hrows]; rfl)

end Sys2Proof

/-! Rows standing alone (30_encoding.md: R93, R94, log 7): what a command word and a raw byte do. -/

namespace Sys2Proof.Machine

/-! ### Command words (R94) -/

section
variable (s : State)

/-- One XFER: the word goes out once, and the answer is read off the response (R63, R120). -/
theorem conclude_sendWord (w : Word) (answerOf : Word → Answer) : ∃ u, Talked s u [(w, s.exchange.1)] ∧
    conclude s answerOf (sendWord w s) = .next (u.setAnswer (answerOf s.exchange.1)) :=
  ⟨(xfer w s).2, xfer_response w s ▸ xfer_talked w s, by rw [← xfer_response w s]; rfl⟩

/-- A row with data bits sends its word with the data bits set in (R95). -/
theorem conclude_sendWord_data {w v : Word} (h : w = v) : ∃ u, Talked s u [(v, s.exchange.1)] ∧
    conclude s .word (sendWord w s) = .next (u.setAnswer (.word s.exchange.1)) :=
  h ▸ conclude_sendWord s w .word

/-- A setup word of INIT, where the configuration has it (R94, R123). -/
theorem conclude_sendSetup {n : Nat} {w : Word} (h : s.cfg.initSeq[n]? = some w) :
    ∃ u, Talked s u [(w, s.exchange.1)] ∧
      conclude s .word (sendSetup n s) = .next (u.setAnswer (.word s.exchange.1)) := by
  rw [show sendSetup n s = sendWord w s by simp [sendSetup, h]]
  exact conclude_sendWord s w .word

theorem conclude_sendSetup_none {n : Nat} (h : s.cfg.initSeq[n]? = none) :
    conclude s .word (sendSetup n s) = .next (s.setAnswer .noStep) :=
  conclude_noStep (by simp [sendSetup, h])

end

/-- Settles O17: each row is one XFER of its word. -/
theorem commandWordRowsSendTheirWord : Obligations.CommandWordRowsSendTheirWord := by
  intro s
  refine ⟨fun x hx => ?fixed, conclude_sendWord s s.cfg.cwRxRead fun r => .byte (rxByteOf r),
    fun t => conclude_sendWord s (txWord s.cfg t) .word,
    fun d => conclude_sendWord_data s (append_eq_or_setWidth 0xC6#8 d),
    fun f => conclude_sendWord_data s (append_eq_or_setWidth 0xA#4 f),
    fun d => conclude_sendWord_data s (append_eq_or_setWidth 0x4C#7 d),
    fun d => conclude_sendWord_data s (append_eq_or_setWidth 0x12#5 d), fun x hx => ?setup⟩
  case fixed =>
    have hexec : exec x.1 s = conclude s .word (sendWord x.2 s) := by
      simp only [List.mem_cons, List.not_mem_nil, or_false] at hx
      rcases hx with rfl | rfl | rfl | rfl | rfl | rfl <;> rfl
    exact hexec ▸ conclude_sendWord s x.2 .word
  case setup =>
    have hexec : exec x.1 s = conclude s .word (sendSetup x.2 s) := by
      simp only [List.mem_cons, List.not_mem_nil, or_false] at hx
      rcases hx with rfl | rfl | rfl | rfl | rfl | rfl | rfl <;> rfl
    exact ⟨fun w hw => hexec ▸ conclude_sendSetup s hw, fun hn => hexec ▸ conclude_sendSetup_none s hn⟩

/-! ### Raw bytes (R93) -/

section
variable {s : State}

/-- The escape transfer after a fill byte, when ENV is willing (R129, R130). -/
theorem escape_done (w : Cfg → Word) (h : willing 1 s) : ∃ u, Sent s u [w s.cfg] ∧
    ((waitRdy s).bind fun _ s => .done () (put (w s.cfg) s)) = .done () u := by
  obtain ⟨u, he, hu, -⟩ := waitRdy_done h
  exact ⟨put (w u.cfg) u, hu.cfg ▸ hu.trans (put_sent (w u.cfg) u), by rw [he, Res.bind_done]⟩

/-- After a received fill byte one escape byte is read (R130). -/
theorem rawFollows_rx_fill {v : Byte} (hv : isFill v = true) (hm : s.tci.mode = .rx) (h : willing 1 s) :
    ∃ u, Sent s u [s.cfg.cwRxRead] ∧ rawFollows v s = .done v u := by
  obtain ⟨u, hu, he⟩ := escape_done Cfg.cwRxRead h
  exact ⟨u, hu, by simp [rawFollows, State.receiving, hm, rxTail, hv, rxEscape, he]⟩

/-- After a transmitted fill byte `ESC` is sent (R129). -/
theorem rawFollows_tx_fill {v : Byte} (hv : isFill v = true) (hm : s.tci.mode = .tx) (h : willing 1 s) :
    ∃ u, Sent s u [txWord s.cfg s.cfg.esc] ∧ rawFollows v s = .done v u := by
  obtain ⟨u, hu, he⟩ := escape_done (fun c => txWord c c.esc) h
  exact ⟨u, hu, by simp [rawFollows, State.receiving, State.transmitting, hm, hv, txEscape, he]⟩

/-- After a plain byte nothing follows (R93). -/
theorem rawFollows_plain {v : Byte} (hv : isFill v = false) (hm : s.tci.mode = .rx ∨ s.tci.mode = .tx) :
    rawFollows v s = .done v s := by
  rcases hm with hm | hm <;> simp [rawFollows, State.receiving, State.transmitting, hm, rxTail, hv]

/-- No byte crosses the port in M_OFF or M_IDLE. -/
theorem rawFollows_noStep (v : Byte) (hm : s.tci.mode = .off ∨ s.tci.mode = .idle) : rawFollows v s = .noStep := by
  rcases hm with hm | hm <;> simp [rawFollows, State.receiving, State.transmitting, hm]

end

/-- Settles O18: the two fill bytes, then every other byte, mode by mode. -/
theorem rawClassesAddTheirEscape : Obligations.RawClassesAddTheirEscape := by
  intro s
  refine ⟨fun x hx => ?fill, fun v h00 hFF => ?plain⟩
  case fill =>
    have hrow : isFill x.2 = true ∧ exec x.1 s = conclude s .byte (rawFollows x.2 s) := by
      rcases List.mem_pair.1 hx with rfl | rfl <;> exact ⟨rfl, rfl⟩
    obtain ⟨hfill, hexec⟩ := hrow
    rw [hexec]
    refine ⟨fun hm hw => ?_, fun hm hw => ?_, fun hm => conclude_noStep (rawFollows_noStep x.2 hm)⟩
    · obtain ⟨u, hu, he⟩ := rawFollows_rx_fill hfill hm hw
      exact ⟨u, hu, by rw [he]; rfl⟩
    · obtain ⟨u, hu, he⟩ := rawFollows_tx_fill hfill hm hw
      exact ⟨u, hu, by rw [he]; rfl⟩
  case plain =>
    have hplain : isFill v = false := Bool.eq_false_iff.2 fun h => ((isFill_iff v).1 h).elim h00 hFF
    exact ⟨fun hm => congrArg (conclude s .byte) (rawFollows_plain hplain hm),
      fun hm => conclude_noStep (rawFollows_noStep v hm)⟩

end Sys2Proof.Machine

/-! The ring buffer as a queue (43_ringbuffer_facade.md: R200, R205), what delivering a payload leaves (R178), and the
classes of a frame (30_encoding.md: R97, log 7). -/

namespace Sys2Proof.Machine

/-! ### One byte put into the ring -/

section
variable {s : State}

theorem length_queue (s : State) : s.queue.length = s.held := by simp [State.queue]

/-- A full ring is one without a free slot (R32, R205). -/
theorem rbFull_iff (hr : s.ringOk) : s.rbFull = true ↔ s.freeSlots = 0 := by
  rw [State.rbFull, beq_iff_eq, nextIndex_eq hr.1, State.freeSlots, held_eq hr]
  obtain ⟨hh, ht⟩ := hr
  split_ifs <;> omega

theorem held_lt (hr : s.ringOk) : s.held < s.cfg.rbSize := Nat.mod_lt _ (by have := hr.1; omega)

/-- `head` is the place behind the last byte held, and no byte held is there (R32). -/
theorem place_eq_head_iff (hr : s.ringOk) {k : Nat} (hk : k ≤ s.held) :
    (s.rb.tail + k) % s.cfg.rbSize = s.rb.head ↔ k = s.held := by
  have hlt := held_lt hr
  rw [ringIndex_eq hr.2 (by omega)]
  rw [held_eq hr] at hk ⊢
  obtain ⟨hh, ht⟩ := hr
  split_ifs at hk ⊢ <;> omega

theorem held_ringAppended (hr : s.ringOk) (hf : s.rbFull = false) (b : Byte) :
    (ringAppended b s).held = s.held + 1 := by
  have hnext : nextIndex s.cfg s.rb.head ≠ s.rb.tail := by simpa [State.rbFull] using hf
  rw [held_eq (s := ringAppended b s) ⟨nextIndex_lt hr.1, hr.2⟩, held_eq hr]
  change (if s.rb.tail ≤ nextIndex s.cfg s.rb.head then nextIndex s.cfg s.rb.head - s.rb.tail
    else nextIndex s.cfg s.rb.head + s.cfg.rbSize - s.rb.tail) = _
  rw [nextIndex_eq hr.1] at hnext ⊢
  obtain ⟨hh, ht⟩ := hr
  split_ifs at hnext ⊢ <;> omega

/-- A byte stored at `head` is the last of the queue (R205). -/
theorem queue_ringAppended (hr : s.ringOk) (hf : s.rbFull = false) (b : Byte) :
    (ringAppended b s).queue = s.queue ++ [some b] := by
  have hread (k : Nat) (hk : k ≤ s.held) :
      (ringAppended b s).rb.cells.read ((s.rb.tail + k) % s.cfg.rbSize) =
        if k = s.held then some b else s.rb.cells.read ((s.rb.tail + k) % s.cfg.rbSize) := by
    simp only [ringAppended_rb, Memory.read_write, place_eq_head_iff hr hk]
  unfold State.queue
  rw [held_ringAppended hr hf, List.range_succ, List.map_append]
  congr 1
  · refine List.map_congr_left fun k hk => ?_
    have hlt : k < s.held := List.mem_range.1 hk
    exact (hread k hlt.le).trans (if_neg hlt.ne)
  · exact congrArg (fun x => [x]) ((hread s.held le_rfl).trans (if_pos rfl))

end

/-! ### Bytes put into the ring one after another (R178, R205) -/

/-- What RB.PUT of each byte of `p` leaves: the queue holds the first bytes of `p` that fit, `head` has moved on past
them, and each of the others is a BufferOverflow event. -/
structure RingPut (s t : State) (p : List Byte) : Prop extends Buffered s t where
  queue : t.queue = s.queue ++ (p.take s.freeSlots).map some
  rest : ∀ i : Nat, (∀ k < s.freeSlots, k < p.length → i ≠ (s.rb.head + k) % s.cfg.rbSize) →
    t.rb.cells.read i = s.rb.cells.read i
  newHead : t.rb.head = (s.rb.head + min p.length s.freeSlots) % s.cfg.rbSize
  overflow : t.log = s.log ++ (p.drop s.freeSlots).map fun b => .error (.bufferOverflow b)

section
variable {s u t : State} {p q : List Byte}

theorem RingPut.nil (hr : s.ringOk) : RingPut s s [] where
  toBuffered := Buffered.refl s
  queue := by simp
  rest := fun _ _ => rfl
  newHead := by simp [Nat.mod_eq_of_lt hr.1]
  overflow := by simp

theorem RingPut.ringOk (h : RingPut s t p) (hr : s.ringOk) : t.ringOk :=
  ⟨h.cfg ▸ h.head hr.1, h.cfg ▸ h.tail ▸ hr.2⟩

/-- Each byte that fits takes a slot. -/
theorem RingPut.freeSlots (h : RingPut s t p) : t.freeSlots = s.freeSlots - p.length := by
  have hheld : t.held = s.held + min s.freeSlots p.length := by
    simpa [length_queue] using congrArg List.length h.queue
  simp only [State.freeSlots, hheld, h.cfg]
  omega

theorem RingPut.trans (h : RingPut s u p) (k : RingPut u t q) : RingPut s t (p ++ q) where
  toBuffered := h.toBuffered.trans k.toBuffered
  queue := by
    rw [k.queue, h.queue, h.freeSlots, List.append_assoc, ← List.map_append, ← List.take_append]
  rest := fun i hi => by
    rw [List.length_append] at hi
    refine (k.rest i fun j hj hq => ?_).trans (h.rest i fun j hj hp => hi j hj (by omega))
    rw [h.freeSlots] at hj
    rw [h.newHead, h.cfg, Nat.mod_add_mod, Nat.min_eq_left (by omega), Nat.add_assoc]
    exact hi (p.length + j) (by omega) (by omega)
  newHead := by
    rw [k.newHead, h.newHead, h.cfg, h.freeSlots, Nat.mod_add_mod, List.length_append, Nat.add_assoc]
    congr 2
    omega
  overflow := by
    rw [k.overflow, h.overflow, h.freeSlots, List.append_assoc, ← List.map_append, ← List.drop_append]

/-- RB.PUT of one byte (R200): it is stored where there is a free slot, else dropped. -/
theorem rbPut_ringPut (hr : s.ringOk) (b : Byte) : ∃ t, rbPut b s = .done () t ∧ RingPut s t [b] := by
  obtain ⟨hf, he⟩ | ⟨hf, -, he⟩ | ⟨-, hbad, -⟩ := rbPut_cases b s
  · have hfree : s.freeSlots = 0 := (rbFull_iff hr).1 hf
    exact ⟨_, he, {
      toBuffered := rbPut_buffered he
      queue := show s.queue = _ by simp [hfree]
      rest := fun _ _ => rfl
      newHead := by simp [hfree, Nat.mod_eq_of_lt hr.1]
      overflow := by simp [hfree] }⟩
  · have hfree : 1 ≤ s.freeSlots := Nat.one_le_iff_ne_zero.2 fun h => by simp [(rbFull_iff hr).2 h] at hf
    exact ⟨_, he, {
      toBuffered := rbPut_buffered he
      queue := by rw [queue_ringAppended hr hf, List.take_of_length_le (by simpa using hfree)]; rfl
      rest := fun i hi => Memory.read_write_other _ _ (by
        simpa [Nat.mod_eq_of_lt hr.1] using hi 0 hfree (by simp))
      newHead := by rw [List.length_singleton, Nat.min_eq_left hfree]; rfl
      overflow := by rw [List.drop_eq_nil_of_le (by simpa using hfree), List.map_nil, List.append_nil]; rfl }⟩
  · exact absurd hr.1 hbad

/-- Delivery of a payload that is written puts each of its bytes into the ring (R178). -/
theorem deliver_ringPut (p : List Byte) : ∀ (i : Nat) {s : State}, s.ringOk → i + p.length ≤ 128 →
    (∀ k < p.length, s.ra.pay.read (i + k) = p[k]?) →
    ∃ t, deliver i p.length s = .done () t ∧ RingPut s t p := by
  induction p with
  | nil => exact fun _ s hr _ _ => ⟨s, rfl, RingPut.nil hr⟩
  | cons b p ih =>
    intro i s hr hfits hpay
    rw [List.length_cons] at hfits hpay
    have hfirst : s.ra.pay.read i = some b := by simpa using hpay 0 (by omega)
    have hread : memRead .pay i s = .done b s := memRead_done (show i < 128 by omega) hfirst
    obtain ⟨u, hput, hu⟩ := rbPut_ringPut hr b
    obtain ⟨t, hrest, ht⟩ := ih (i + 1) (hu.ringOk hr) (by omega) fun k hk => by
      rw [hu.ra, Nat.add_assoc, Nat.add_comm 1 k, hpay (k + 1) (by omega), List.getElem?_cons_succ]
    exact ⟨t, by rw [List.length_cons, deliver, hread, Res.bind_done, hput, Res.bind_done, hrest], hu.trans ht⟩

/-- A new frame: its payload is delivered, its sequence id noted, a confirmation requested (R178). -/
theorem acceptData_delivered (hnew : s.ra.lastSeq.read s.ra.fSrc.toNat ≠ some s.ra.fSeq)
    (hlen : p.length = s.ra.fLen.toNat) (hfits : p.length ≤ 128) (hpay : holdsAt s.ra.pay p) (hr : s.ringOk) :
    ∃ t, acceptData s = .done () t ∧ Delivered s t p := by
  have hdup : s.isDuplicate = false := by simpa [State.isDuplicate] using hnew
  obtain ⟨u, hdeliver, hu⟩ := deliver_ringPut p 0 hr (by omega) (by simpa [holdsAt] using hpay)
  refine ⟨u.noteSeq.requestAck, by simp [acceptData, hdup, ← hlen, hdeliver], ?_⟩
  exact {
    queue := hu.queue
    rest := hu.rest
    head := hu.newHead
    tail := hu.tail
    log := hu.overflow
    ra := by simp [hu.ra]
    lastSeq := fun i => by simp [hu.ra, Memory.read_write]
    de := by simp [hu.ra, hu.de]
    cfg := hu.cfg
    tci := hu.tci
    env := hu.env }

/-- A repeated frame is confirmed and nothing else (R178). -/
theorem acceptData_duplicate (h : s.ra.lastSeq.read s.ra.fSrc.toNat = some s.ra.fSeq) :
    acceptData s = .done () s.requestAck := by
  simp [acceptData, State.isDuplicate, h]

end

/-- Settles O51: the data branch in its two cases, ACKRX, and nothing. -/
theorem typeClassesTakeTheirBranch : Obligations.TypeClassesTakeTheirBranch := by
  intro s
  refine ⟨fun hdup => congrArg (concludeUnit s) (acceptData_duplicate hdup), fun p hnew hlen hfits hpay hr _ => ?_,
    ⟨rfl, ?_⟩, fun _ => rfl⟩
  · obtain ⟨t, he, ht⟩ := acceptData_delivered hnew hlen hfits hpay hr
    exact ⟨t, ht, congrArg (concludeUnit s) he⟩
  · change ∃ d, concludeUnit s (.done () (ackRx s)) = _
    obtain ⟨-, he⟩ | ⟨-, he⟩ := ackRx_cases s <;> rw [he]
    · exact ⟨s.confirmed.de, rfl⟩
    · exact ⟨s.de, rfl⟩

end Sys2Proof.Machine

/-! The words that MAIN, RXI and TMI send (30_encoding.md: R94): the words of each operation are words of the table, and
each operation sends no others. -/

namespace Sys2Proof.Machine

/-! ### Words of the table -/

section
variable (c : Cfg)

theorem setRxWords_inWordTable : ∀ w ∈ setRxWords c, inWordTable c w := by
  simp [setRxWords, inWordTable]

theorem configWords_inWordTable (baud : Nat) (chan : BitVec 2) (power : Nat) (e : Profile) :
    ∀ w ∈ configWords c baud chan power e, inWordTable c w := by
  simp [configWords, inWordTable]

theorem resyncWords_inWordTable : ∀ w ∈ [c.cwFifoStop, c.cwFifoArm], inWordTable c w := by
  simp [inWordTable]

theorem reads_inWordTable (n : Nat) : ∀ w ∈ List.replicate n c.cwRxRead, inWordTable c w := by
  intro w hw
  rw [List.eq_of_mem_replicate hw]
  simp [inWordTable]

theorem txWords_inWordTable (raw : List Byte) : ∀ w ∈ txWords c raw, inWordTable c w := by
  intro w hw
  obtain ⟨v, -, rfl⟩ := List.mem_map.1 hw
  simp [inWordTable]

/-- SETTX, the stuffed frame, SETRX (R221, R224). -/
theorem sendWords_inWordTable (t d src q : Byte) (p : List Byte) :
    ∀ w ∈ sendWords c t d src q p, inWordTable c w := by
  have hsetTx : ∀ w ∈ [c.cwIdle, c.cwTxOn], inWordTable c w := by simp [inWordTable]
  exact List.forall_mem_append.2 ⟨List.forall_mem_append.2 ⟨hsetTx, txWords_inWordTable c _⟩, setRxWords_inWordTable c⟩

end

/-! ### Sending words of the table only -/

/-- From `s` to `t` the configuration is the same, and every word sent is one of the table (R94). -/
structure Tabled (s t : State) : Prop where
  cfg : t.cfg = s.cfg
  words : ∃ ws, wordsOf t.log = wordsOf s.log ++ ws ∧ ∀ w ∈ ws, inWordTable s.cfg w

theorem Tabled.refl (s : State) : Tabled s s := ⟨rfl, [], by simp, by simp⟩

theorem Tabled.trans {s t u : State} (h : Tabled s t) (k : Tabled t u) : Tabled s u where
  cfg := k.cfg.trans h.cfg
  words := by
    obtain ⟨ws, hw, hin⟩ := h.words
    obtain ⟨vs, hv, hin'⟩ := k.words
    exact ⟨ws ++ vs, by rw [hv, hw, List.append_assoc], List.forall_mem_append.2 ⟨hin, h.cfg ▸ hin'⟩⟩

/-- Updates of registers, and error events, send no word. -/
theorem Tabled.update {s t u : State} (h : Tabled s t) (hc : u.cfg = t.cfg) (hl : wordsOf u.log = wordsOf t.log) :
    Tabled s u :=
  h.trans ⟨hc, [], by simp [hl], by simp⟩

theorem Tabled.raise {s t : State} (h : Tabled s t) (e : ErrorEvent) : Tabled s (t.raise e) :=
  h.update rfl (by simp)

theorem Tabled.hardwareNotReady {s t : State} (h : Tabled s t) : Tabled s t.hardwareNotReady :=
  h.update rfl (by simp)

theorem Sent.tabled {s u : State} {ws : List Word} (hu : Sent s u ws) (hw : ∀ w ∈ ws, inWordTable s.cfg w) :
    Tabled s u :=
  ⟨hu.cfg, ws, hu.words, hw⟩

/-- A transmission that a ready poll ended sent a beginning of its words. -/
theorem Sent.stuckInTx_tabled {s w : State} {ws vs : List Word} (hu : Sent s w ws) (hp : ws <+: vs)
    (hw : ∀ w ∈ vs, inWordTable s.cfg w) : Tabled s (stuckInTx w) :=
  ((hu.tabled fun v hv => hw v (hp.subset hv)).update (u := w.setMode .tx false) rfl rfl).hardwareNotReady

/-- BufferOverflow events are no words. -/
theorem Buffered.tabled {s t : State} (h : Buffered s t) : Tabled s t := by
  obtain ⟨bs, hb⟩ := h.log
  have hnone : wordsOf (bs.map fun b => Event.error (.bufferOverflow b)) = [] := by simp [wordsOf]
  exact (Tabled.refl s).update h.cfg (by rw [hb, wordsOf_append, hnone, List.append_nil])

theorem Tabled.then {α β : Type} {s : State} {m : Res α} {k : α → State → Res β} (hm : m.All (Tabled s))
    (hk : ∀ a u, (k a u).All (Tabled u)) : (m.bind k).All (Tabled s) :=
  hm.bind fun a u hu => (hk a u).mono fun _ => hu.trans

/-! ### The operations of MAIN, RXI and TMI -/

section
variable (s : State)

theorem resync_tabled : Tabled s (resync s) := by
  obtain ⟨u, hu, he⟩ := resync_spec s
  exact he ▸ (hu.tabled (resyncWords_inWordTable s.cfg)).update rfl rfl

theorem setRx_tabled : (setRx s).All (Tabled s) := by
  obtain ⟨u, hu, hb⟩ := setRxBody_spec s
  obtain ⟨-, he⟩ | ⟨-, he⟩ := setRx_cases s <;> rw [he]
  · exact hb ▸ (hu.tabled (setRxWords_inWordTable s.cfg)).update rfl rfl
  · trivial

theorem setIdle_tabled : (setIdle s).All (Tabled s) := by
  obtain ⟨-, u, hu, he⟩ | ⟨-, he⟩ := setIdle_cases s <;> rw [he]
  · exact (hu.tabled (by simp [inWordTable])).update rfl rfl
  · trivial

theorem init_tabled : (init s).All (Tabled s) := by
  obtain ⟨-, u, hu, he⟩ | ⟨-, he⟩ := init_cases s <;> rw [he]
  · exact (hu.tabled (List.forall_mem_append.2 ⟨fun w => .inl, setRxWords_inWordTable s.cfg⟩)).update rfl rfl
  · trivial

theorem config_tabled (baud : Nat) (chan : BitVec 2) (power : Nat) (e : Profile) :
    (config baud chan power e s).All (Tabled s) := by
  obtain ⟨-, u, hu, he⟩ | ⟨-, he⟩ := config_cases baud chan power e s <;> rw [he]
  · exact (hu.tabled (configWords_inWordTable s.cfg baud chan power e)).update rfl rfl
  · trivial

theorem send_tabled (first : Bool) : (send first s).All (Tabled s) := by
  obtain ⟨-, he⟩ | ⟨_, he, -⟩ | ⟨-, -, p, -, -, ⟨w, hw, he⟩ | ⟨w, _, hp, hw, he⟩⟩ := send_cases first s <;> rw [he]
  · trivial
  · trivial
  · exact (hw.tabled (sendWords_inWordTable s.cfg _ _ _ _ p)).update rfl rfl
  · exact hw.stuckInTx_tabled hp (sendWords_inWordTable s.cfg _ _ _ _ p)

theorem ackTx_tabled : (ackTx s).All (Tabled s) := by
  obtain ⟨-, he⟩ | ⟨-, -, ⟨w, hw, he⟩ | ⟨w, _, hp, hw, he⟩⟩ := ackTx_cases s <;> rw [he]
  · trivial
  · exact (hw.tabled (sendWords_inWordTable s.cfg _ _ _ _ [])).update rfl rfl
  · exact hw.stuckInTx_tabled hp (sendWords_inWordTable s.cfg _ _ _ _ [])

theorem enqB_tabled (b dst : Byte) : (enqB b dst s).All (Tabled s) := by
  have henqueued : Tabled s (enqueuedState b dst s) := (Tabled.refl s).update rfl rfl
  obtain ⟨-, he⟩ | ⟨-, -, he⟩ | ⟨-, -, he⟩ | ⟨-, -, he⟩ := enqB_cases b dst s <;> rw [he]
  · trivial
  · trivial
  · exact henqueued
  · exact (send_tabled _ true).mono fun _ => henqueued.trans

theorem tickTimeout_tabled : (tickTimeout s).All (Tabled s) := by
  have hcount : Tabled s s.countDown := (Tabled.refl s).update rfl rfl
  obtain ⟨-, he⟩ | ⟨-, he⟩ | ⟨-, -, -, he⟩ | ⟨-, -, -, he⟩ | ⟨-, -, -, he⟩ | ⟨-, -, -, he⟩ := tickTimeout_cases s <;>
    rw [he]
  · exact Tabled.refl s
  · exact hcount
  · exact (send_tabled _ false).mono fun _ => (hcount.update (u := s.countDown.spendRetry) rfl rfl).trans
  · exact hcount.update rfl (by simp)
  · exact (send_tabled _ true).mono fun _ => hcount.trans
  · exact hcount

theorem tick_tabled : (tick s).All (Tabled s) := by
  cases hp : s.de.ackPending
  · exact tick_plain hp ▸ tickTimeout_tabled s
  · exact tick_confirm hp ▸ Tabled.then (ackTx_tabled s) fun _ u => tickTimeout_tabled u

theorem rbGet_tabled : (rbGet s).All (Tabled s) := by
  obtain ⟨-, he⟩ | ⟨-, _, -, -, he⟩ | ⟨-, -, _, he⟩ := rbGet_cases s <;> rw [he]
  · trivial
  · exact (Tabled.refl s).update rfl rfl
  · trivial

theorem judgeFrame_tabled (b : Byte) : (judgeFrame b s).All (Tabled s) := by
  obtain ⟨-, he⟩ | ⟨-, -, he⟩ | ⟨-, -, -, he⟩ | ⟨-, -, -, -, he⟩ | ⟨-, -, -, -, he⟩ := judgeFrame_cases b s <;> rw [he]
  · exact (Tabled.refl s).raise _
  · exact Tabled.refl s
  · obtain ⟨-, ha⟩ | ⟨-, t, ht, -, ha⟩ | ⟨-, _, ha, -⟩ := acceptData_cases s <;> rw [ha]
    · exact (Tabled.refl s).update rfl rfl
    · exact ht.tabled.update rfl rfl
    · trivial
  · obtain ⟨-, ha⟩ | ⟨-, ha⟩ := ackRx_cases s <;> rw [ha]
    · exact (Tabled.refl s).update rfl rfl
    · exact Tabled.refl s
  · exact Tabled.refl s

theorem arm_tabled (b : Byte) : (arm b s).All (Tabled s) := by
  unfold arm
  cases s.ra.st with
  | idle | len | dst | src | seq => exact (Tabled.refl s).update rfl rfl
  | pay =>
    obtain ⟨-, he⟩ | ⟨-, he⟩ := armPay_cases b s <;> simp only [he]
    · exact (Tabled.refl s).update rfl rfl
    · trivial
  | chk =>
    exact Tabled.then ((judgeFrame_tabled (resync s) b).mono fun _ => (resync_tabled s).trans)
      fun _ u => (Tabled.refl u).update rfl rfl

theorem rxEvt_tabled : (rxEvt s).All (Tabled s) := by
  have hread {u : State} {k : Nat} (hu : Sent s.countWd u (List.replicate k s.cfg.cwRxRead)) : Tabled s u :=
    ((Tabled.refl s).update (u := s.countWd) rfl rfl).trans (hu.tabled (reads_inWordTable s.cfg k))
  obtain ⟨-, he⟩ | ⟨-, -, ⟨u, _, -, hu, he⟩ | ⟨u, hu, he⟩⟩ := rxEvt_cases s <;> rw [he]
  · trivial
  · exact (hread hu).hardwareNotReady
  split
  · exact ((hread hu).raise _).trans (resync_tabled _)
  · exact (arm_tabled u _).mono fun _ => (hread hu).trans

end

/-- RXEVT, TICK and MAIN's operations send words of the table only. -/
theorem exec_ordinary_tabled {i : Instr} {s t : State} (hi : i = .rxEvt ∨ i = .tick ∨ inMain i = true)
    (he : exec i s = .next t) : Tabled s t := by
  have hconclude {α : Type} {answerOf : α → Answer} {m : Res α} (hm : m.All (Tabled s))
      (hc : conclude s answerOf m = .next t) : Tabled s t :=
    conclude_all hm (Tabled.refl s) (fun _ _ hu => hu.update rfl rfl) hc
  rcases hi with rfl | rfl | hmain
  · exact hconclude (rxEvt_tabled s) he
  · exact hconclude (tick_tabled s) he
  cases i with
  | init => exact hconclude (init_tabled s) he
  | config baud chan power e => exact hconclude (config_tabled s baud chan power e) he
  | setRx => exact hconclude (setRx_tabled s) he
  | setIdle => exact hconclude (setIdle_tabled s) he
  | hasData => exact hconclude (m := .done s.hasBytes s) (Tabled.refl s) he
  | readByte => exact hconclude (readByte_eq s ▸ rbGet_tabled s) he
  | isBusy => exact hconclude (m := .done s.de.awaitingAck s) (Tabled.refl s) he
  | enqB b dst => exact hconclude (enqB_tabled s b dst) he
  | _ => cases hmain

/-- Settles O59: an ordinary step runs RXEVT, TICK or an operation of MAIN. -/
theorem onlyTableWordsAreSent : Obligations.OnlyTableWordsAreSent := by
  intro s t ho h
  have htabled : Tabled s t := step_keeps (fun _ _ hu => hu.update rfl rfl)
    (fun _ _ _ _ _ _ hf hd ha hu he => hu.trans (exec_ordinary_tabled (instr_of_ordinaryTurn ho hf hd ha) he))
    (Tabled.refl s) h
  exact htabled.words

end Sys2Proof.Machine

/-! The transceiver command interface (40_transceiver_interface.md: R120 to R130): one exchange, the ready poll, setup
and modes, the byte primitives; and what a ready poll that runs out leaves of ACKTX, ENQB and TICK (R121). -/

namespace Sys2Proof.Machine

/-! ### A rule that ends, and one that aborts -/

section
variable {α : Type} {s t u : State} {answerOf : α → Answer} {m : Res α}

/-- A rule that runs to its end answers its result (log 8). -/
theorem conclude_done {a : α} (h : m = .done a u) : conclude s answerOf m = .next (u.setAnswer (answerOf a)) := by
  rw [h]; rfl

/-- An aborted rule keeps its writes (R11). -/
theorem conclude_abort (h : m = .abort u) : conclude s answerOf m = .next (u.setAnswer .aborted) := by
  rw [h]; rfl

/-- Only a rule that aborted answers `aborted` (R11, log 8). -/
theorem concludeUnit_aborted {m : Res Unit} (h : concludeUnit s m = .next t) (ha : t.answer = .aborted) :
    ∃ u, m = .abort u ∧ t = u.setAnswer .aborted := by
  rcases conclude_next h with ⟨_, u, -, rfl⟩ | habort | ⟨-, rfl⟩
  · cases ha
  · exact habort
  · cases ha

end

/-! ### One exchange (R120) -/

/-- ENV's answer to an exchange depends on ENV's record only (R66). -/
theorem exchange_congr {s t : State} (h : t.env = s.env) :
    t.exchange = (s.exchange.1, { t with env := s.exchange.2.env }) := by
  unfold State.exchange
  rw [h]
  cases s.env.answers <;> rfl

/-- XFER as one update of the state (R120). -/
theorem xfer_eq (w : Word) (s : State) : xfer w s = (s.exchange.1, { s with
    tci := { s.tci with cs := false }
    log := s.log ++ [.selAssert, .exchange w s.exchange.1, .selDeassert]
    env := s.exchange.2.env }) := by
  have hselected : ((s.setCs true).record [.selAssert]).exchange = (s.exchange.1,
      { (s.setCs true).record [.selAssert] with env := s.exchange.2.env }) := exchange_congr rfl
  simp only [xfer, hselected]
  simp [State.setCs, State.record]

/-- Settles O8: XFER is one update of the state. -/
theorem xferExchangesOneWord : Obligations.XferExchangesOneWord := by
  intro w s
  change conclude s .word (.done (xfer w s).1 (xfer w s).2) = _
  rw [xfer_eq]
  rfl

/-! ### The ready poll (R121) -/

/-- ENV's next ready answer, where it has chosen it (R67). -/
theorem ready_cons {s : State} {b : Bool} {rest : List Bool} (h : s.env.readies = b :: rest) :
    s.ready = (b, { s with env := { s.env with readies := rest } }) := by
  simp [State.ready, h]

/-- The poll stops at the first answer 1. -/
theorem poll_ready {rest : List Bool} {n k : Nat} : ∀ {s : State}, k < n →
    s.env.readies = List.replicate k false ++ true :: rest →
      poll n s = (true, { s with env := { s.env with readies := rest } }) := by
  induction n generalizing k with
  | zero => intro s hk _; omega
  | succ n ih =>
    intro s hk hr
    cases k with
    | zero => simp [poll, ready_cons hr]
    | succ k =>
      rw [poll, ready_cons hr]
      exact ih (by omega) rfl

/-- The poll gives up after as many answers 0 as its bound. -/
theorem poll_exhausted {rest : List Bool} {n : Nat} : ∀ {s : State},
    s.env.readies = List.replicate n false ++ rest →
      poll n s = (false, { s with env := { s.env with readies := rest } }) := by
  induction n with
  | zero => intro s hr; simp only [poll, ← show s.env.readies = rest from hr]
  | succ n ih =>
    intro s hr
    rw [poll, ready_cons hr]
    exact ih rfl

/-- Whatever ENV answers, a poll changes only ENV's record of ready answers (R67). -/
theorem poll_readies_only (n : Nat) (s : State) : ∃ (b : Bool) (l : List Bool) (m : Nat),
    poll n s = (b, { s with env := { s.env with readies := l, readiesDrawn := m } }) := by
  obtain ⟨⟨_, _, _, l, _, m⟩, he, rfl, rfl, rfl, rfl⟩ := poll_spec n s
  exact ⟨_, l, m, Prod.ext rfl he⟩

/-- WAITRDY by its poll: it returns at an answer 1, and latches the fault where there was none (R121). -/
theorem exec_waitRdy_of_poll {s u : State} {b : Bool} (h : poll s.cfg.pollLimit s = (b, u)) :
    exec .waitRdy s = .next (if b then u.setAnswer .unit else u.hardwareNotReady.setAnswer .aborted) := by
  cases b
  · exact conclude_abort (by simp [waitRdy, h])
  · exact conclude_done (a := ()) (by simp [waitRdy, h])

/-- Settles O9: the poll's three outcomes, each followed by what WAITRDY makes of it. -/
theorem waitRdyReturnsOrLatchesTheFault : Obligations.WaitRdyReturnsOrLatchesTheFault := by
  intro s rest
  refine ⟨fun k hk hr => exec_waitRdy_of_poll (poll_ready hk hr),
    fun hr => exec_waitRdy_of_poll (poll_exhausted hr), ?_⟩
  obtain ⟨b, l, n, he⟩ := poll_readies_only s.cfg.pollLimit s
  refine ⟨l, n, ?_⟩
  cases b
  · exact .inr (exec_waitRdy_of_poll he)
  · exact .inl (exec_waitRdy_of_poll he)

/-! ### Setup and modes (R123 to R128) -/

/-- Settles O10: INIT's words, then the registers SETRX and INIT write. -/
theorem initArmsTheReceiver : Obligations.InitArmsTheReceiver := by
  intro s h
  obtain ⟨-, u, hu, he⟩ | ⟨hdone, -⟩ := init_cases s
  · exact ⟨u, hu, conclude_done he⟩
  · simp [h] at hdone

/-- Settles O11: CONFIG's words, then the shadow registers. -/
theorem configSendsItsFourWords : Obligations.ConfigSendsItsFourWords := by
  intro s baud chan power e h
  obtain ⟨-, u, hu, he⟩ | ⟨hnot, -⟩ := config_cases baud chan power e s
  · exact ⟨u, hu, conclude_done he⟩
  · simp [h] at hnot

/-- Settles O12: SETRX, SETTX and SETIDLE where they are enabled. -/
theorem modeOperationsSwitchTheMode : Obligations.ModeOperationsSwitchTheMode := by
  intro s hm
  refine ⟨?setRx, ?setTx, ?setIdle⟩
  case setRx =>
    obtain ⟨u, hu, he⟩ := setRxBody_spec s
    have hdone : setRx s = .done () ((u.setSt .idle).setMode .rx true) :=
      he ▸ ((setRx_cases s).resolve_right fun h => hm h.1).2
    exact ⟨u, hu, conclude_done hdone⟩
  case setTx =>
    obtain ⟨u, hu, he⟩ := setTxBody_spec s
    have hdone : setTx s = .done () (u.setMode .tx false) := he ▸ ((setTx_cases s).resolve_right fun h => hm h.1).2
    exact ⟨u, hu, conclude_done hdone⟩
  case setIdle =>
    obtain ⟨-, u, hu, he⟩ := (setIdle_cases s).resolve_right fun h => hm h.1
    exact ⟨u, hu, conclude_done he⟩

/-- Settles O13: RESYNC's words, then `st`. -/
theorem resyncExpectsATypeByte : Obligations.ResyncExpectsATypeByte := by
  intro s
  obtain ⟨u, hu, he⟩ := resync_spec s
  refine ⟨u, hu, ?_⟩
  change concludeUnit s (.done () (resync s)) = _
  rw [he]
  rfl

/-! ### Byte primitives (R129, R130) -/

/-- The words of TXBYTE, written out (R98, R129). -/
theorem txByteWords_eq_ite (c : Cfg) (v : Byte) : txByteWords c v =
    if v = 0x00 ∨ v = 0xFF then [c.cwTxWrite ||| v.setWidth 16, c.cwTxWrite ||| c.esc.setWidth 16]
    else [c.cwTxWrite ||| v.setWidth 16] := by
  simp only [txByteWords, isFill_iff]
  split <;> rfl

/-- Settles O14: TXBYTE when ENV is willing, for both kinds of byte. -/
theorem txByteSendsTheByteAndItsEscape : Obligations.TxByteSendsTheByteAndItsEscape := by
  intro v s hm hw
  rw [← rawCount_eq] at hw
  obtain ⟨u, he, hu, -⟩ := txByte_done (n := 0) hm hw
  exact ⟨u, txByteWords_eq_ite s.cfg v ▸ hu, conclude_done he⟩

/-- Settles O15: RXBYTE when ENV is willing, for both kinds of byte. -/
theorem rxByteReadsOneLogicalByte : Obligations.RxByteReadsOneLogicalByte := by
  intro s v hm hv hw
  obtain rfl : v = nextByte s := hv
  rw [← rawCount_eq] at hw
  obtain ⟨u, he, hu, -⟩ := rxByte_done (n := 0) hm hw
  exact ⟨u, reads_eq (nextByte s) s.cfg.cwRxRead ▸ hu, conclude_done he⟩

/-! ### Transmissions that a ready poll ends (R121) -/

/-- The words of the confirmation that ACKTX sends (R224). -/
def ackWords (s : State) : List Word := sendWords s.cfg s.cfg.typeAck s.de.ackDst s.cfg.myAddr s.de.ackSeq []

/-- The words of a data frame with payload `p` that SEND sends (R221). -/
def dataWords (s : State) (p : List Byte) : List Word :=
  sendWords s.cfg s.cfg.typeData s.de.txDst s.cfg.myAddr s.de.txSeq p

/-- From `s` to `t` a ready poll ran out in transmit mode: masked, the fault latched, of RA nothing but `st` and of RB
nothing changed (R121, R221). -/
structure HaltedInTx (s t : State) : Prop where
  tci : t.tci = { s.tci with mode := .tx, rxIrqEn := false, cs := t.tci.cs, hwFault := true }
  rb : t.rb = s.rb
  ra : t.ra = { s.ra with st := t.ra.st }
  errors : errorsOf t.log = errorsOf s.log ++ [.hardwareNotReady]

/-- From `s` to `t` a transmission of the words `vs` was begun, and a ready poll in it ran out: RA and DE are as they
were. -/
structure CutOff (s t : State) (vs : List Word) : Prop where
  halted : HaltedInTx s t
  ra : t.ra = s.ra
  de : t.de = s.de
  words : ∃ ws, ws <+: vs ∧ wordsOf t.log = wordsOf s.log ++ ws

section
variable {s t u v w : State} {vs ws : List Word}

/-- What changes only mode, mask, `cs`, `st` and DE before the poll runs out is covered by what the halt changes. -/
theorem HaltedInTx.of_start (h : HaltedInTx v t)
    (htci : v.tci = { s.tci with mode := v.tci.mode, rxIrqEn := v.tci.rxIrqEn, cs := v.tci.cs }) (hrb : v.rb = s.rb)
    (hra : v.ra = { s.ra with st := v.ra.st }) (herr : errorsOf v.log = errorsOf s.log) : HaltedInTx s t where
  tci := by rw [h.tci, htci]
  rb := h.rb.trans hrb
  ra := by rw [h.ra, hra]
  errors := by rw [h.errors, herr]

theorem CutOff.setAnswer (a : Answer) (h : CutOff s u vs) : CutOff s (u.setAnswer a) vs :=
  ⟨⟨h.halted.tci, h.halted.rb, h.halted.ra, h.halted.errors⟩, h.ra, h.de, h.words⟩

theorem Sent.cutOff (hp : ws <+: vs) (h : Sent s w ws) : CutOff s (stuckInTx w) vs where
  halted := ⟨by simp [stuckInTx, h.tci], h.rb, by simp [stuckInTx, h.ra], by simp [stuckInTx, h.errors]⟩
  ra := h.ra
  de := h.de
  words := ⟨ws, hp, by simp [stuckInTx, h.words]⟩

/-- An aborted ACKTX has written nothing: `ack_pending` is as it was (R224). -/
theorem ackTx_abort (h : ackTx s = .abort u) : CutOff s u (ackWords s) := by
  obtain ⟨-, he⟩ | ⟨-, -, ⟨w, -, he⟩ | ⟨w, ws, hp, hw, he⟩⟩ := ackTx_cases s <;> rw [he] at h <;> cases h
  exact hw.cutOff hp

/-- An aborted SEND has written nothing (R221). -/
theorem send_abort {first : Bool} (h : send first s = .abort u) :
    ∃ p, pendingIs s p ∧ CutOff s u (dataWords s p) := by
  obtain ⟨-, he⟩ | ⟨_, he, -⟩ | ⟨-, -, p, hpend, -, ⟨w, -, he⟩ | ⟨w, ws, hp, hw, he⟩⟩ := send_cases first s <;>
    rw [he] at h <;> cases h
  exact ⟨p, hpend, hw.cutOff hp⟩

/-! ### ENQB (R220) -/

/-- The pending payload after ENQB is the one before it and the byte. -/
theorem pendingIs_enqueuedState {b dst : Byte} {q : List Byte} (hc : s.de.txCnt.toNat < 128)
    (h : pendingIs (enqueuedState b dst s) q) : ∃ p, q = p ++ [b] ∧ pendingIs s p := by
  obtain ⟨hlen, hread⟩ := h
  have hcnt : q.length = s.de.txCnt.toNat + 1 := hlen.trans (toNat_txCnt_succ hc)
  have hbuf : ∀ i < q.length, (s.de.txBuf.write s.de.txCnt.toNat b).read i = q[i]? := hread
  obtain rfl | ⟨p, x, rfl⟩ := q.eq_nil_or_concat'
  · simp at hcnt
  have hp : p.length = s.de.txCnt.toNat := by simpa using hcnt
  have hx : b = x := by simpa [← hp] using hbuf p.length (by simp)
  refine ⟨p, by rw [hx], hp, fun i hi => ?_⟩
  rw [← Memory.read_write_other s.de.txBuf b (show i ≠ s.de.txCnt.toNat by omega), hbuf i (by simp; omega),
    List.getElem?_append_left hi]

/-- What the ENQB that fills the buffer writes before its SEND (R220). -/
theorem enqueuedState_de_full {b dst : Byte} (hc : s.de.txCnt.toNat = 127) : (enqueuedState b dst s).de =
    { s.de with txDst := dst, txBuf := s.de.txBuf.write 127 b, txCnt := 128 } := by
  have hcnt : s.de.txCnt = 127 := BitVec.eq_of_toNat_eq hc
  simp [enqueuedState, State.setMem_txb, State.setTxDst, State.enqueued, hcnt]

/-- Only the ENQB that fills the buffer aborts, and it keeps what it wrote before its SEND. -/
theorem enqB_abort {b dst : Byte} (h : enqB b dst s = .abort u) : s.de.txCnt.toNat = 127 ∧
    ∃ p, pendingIs s p ∧ CutOff (enqueuedState b dst s) u
      (sendWords s.cfg s.cfg.typeData dst s.cfg.myAddr s.de.txSeq (p ++ [b])) := by
  obtain ⟨-, he⟩ | ⟨-, -, he⟩ | ⟨-, -, he⟩ | ⟨-, hc, he⟩ := enqB_cases b dst s <;> rw [he] at h
  · cases h
  · cases h
  · cases h
  obtain ⟨q, hq, hcut⟩ := send_abort h
  obtain ⟨p, rfl, hp⟩ := pendingIs_enqueuedState (by omega) hq
  exact ⟨hc, p, hp, hcut⟩

/-! ### TICK (R222) -/

/-- What TICK has written when it starts a SEND: the timeout at 0, and on a retransmission a retry spent (R222). -/
def State.expired (s : State) : State :=
  { s with de := { s.de with timeout := 0, retry := if s.de.awaitingAck then s.de.retry - 1 else s.de.retry } }

theorem expired_of_retry (ht : s.de.timeout = 1) (ha : s.de.awaitingAck = true) :
    s.countDown.spendRetry = s.expired := by
  simp [State.countDown, State.spendRetry, State.expired, ht, ha]

theorem expired_of_fill (ht : s.de.timeout = 1) (ha : s.de.awaitingAck = false) : s.countDown = s.expired := by
  simp [State.countDown, State.expired, ht, ha]

/-- The timeout part of TICK aborts only in a SEND that its expiry started. -/
theorem tickTimeout_abort (h : tickTimeout s = .abort u) : s.de.timeout = 1 ∧
    (s.de.awaitingAck = true → s.de.retry ≠ 0) ∧ ∃ p, pendingIs s p ∧ CutOff s.expired u (dataWords s p) := by
  obtain ⟨-, he⟩ | ⟨-, he⟩ | ⟨ht, ha, hr, he⟩ | ⟨-, -, -, he⟩ | ⟨ht, ha, -, he⟩ | ⟨-, -, -, he⟩ :=
    tickTimeout_cases s <;> rw [he] at h
  · cases h
  · cases h
  · rw [expired_of_retry ht ha] at h
    exact ⟨ht, fun _ => hr, send_abort h⟩
  · cases h
  · rw [expired_of_fill ht ha] at h
    exact ⟨ht, by simp [ha], send_abort h⟩
  · cases h

/-- The state after a TICK's confirmation, if one was pending, whose words took `s` to `v` (R222, R224). -/
structure Confirmed (s v : State) : Prop where
  tci : v.tci = { s.tci with mode := v.tci.mode, rxIrqEn := v.tci.rxIrqEn, cs := v.tci.cs }
  rb : v.rb = s.rb
  ra : v.ra = if s.de.ackPending then { s.ra with st := .idle } else s.ra
  de : v.de = { s.de with ackPending := false }
  cfg : v.cfg = s.cfg
  words : wordsOf v.log = wordsOf s.log ++ if s.de.ackPending then ackWords s else []
  errors : errorsOf v.log = errorsOf s.log

theorem confirmed_of_not_pending (h : s.de.ackPending = false) : Confirmed s s where
  tci := rfl
  rb := rfl
  ra := by simp [h]
  de := by rw [← h]
  cfg := rfl
  words := by simp [h]
  errors := rfl

theorem Sent.confirmed (hp : s.de.ackPending = true) (h : Sent s w (ackWords s)) :
    Confirmed s (backToRx w).ackSent where
  tci := by simp [backToRx, h.tci]
  rb := h.rb
  ra := by simp [backToRx, h.ra, hp]
  de := by simp [backToRx, h.de]
  cfg := h.cfg
  words := by simp [backToRx, h.words, hp]
  errors := by simp [backToRx, h.errors]

theorem Confirmed.st_only (h : Confirmed s v) : v.ra = { s.ra with st := v.ra.st } := by
  rw [h.ra]
  split <;> rfl

/-- A TICK aborts in its confirmation, or after it in the timeout part. -/
theorem tick_abort (h : tick s = .abort u) : (s.de.ackPending = true ∧ CutOff s u (ackWords s)) ∨
    ∃ v, Confirmed s v ∧ tickTimeout v = .abort u := by
  cases hp : s.de.ackPending
  · rw [tick_plain hp] at h
    exact .inr ⟨s, confirmed_of_not_pending hp, h⟩
  rw [tick_confirm hp, Res.bind_eq_abort] at h
  rcases h with h | ⟨_, v, he, h⟩
  · exact .inl ⟨rfl, ackTx_abort h⟩
  obtain ⟨-, hn⟩ | ⟨-, -, ⟨w, hw, hd⟩ | ⟨w, _, -, -, hn⟩⟩ := ackTx_cases s
  · rw [hn] at he; cases he
  · rw [hd] at he; cases he
    exact .inr ⟨_, hw.confirmed hp, h⟩
  · rw [hn] at he; cases he

/-! ### The three operations as transitions (R121) -/

theorem exec_ackTx_aborted (h : exec .ackTx s = .next t) (ha : t.answer = .aborted) : CutOff s t (ackWords s) := by
  obtain ⟨u, he, rfl⟩ := concludeUnit_aborted h ha
  exact (ackTx_abort he).setAnswer _

theorem exec_enqB_aborted {b dst : Byte} (h : exec (.enqB b dst) s = .next t) (ha : t.answer = .aborted) :
    s.de.txCnt.toNat = 127 ∧ ∃ p, pendingIs s p ∧ CutOff (enqueuedState b dst s) t
      (sendWords s.cfg s.cfg.typeData dst s.cfg.myAddr s.de.txSeq (p ++ [b])) := by
  obtain ⟨u, he, rfl⟩ := concludeUnit_aborted h ha
  obtain ⟨hc, p, hp, hcut⟩ := enqB_abort he
  exact ⟨hc, p, hp, hcut.setAnswer _⟩

theorem exec_tick_aborted (h : exec .tick s = .next t) (ha : t.answer = .aborted) :
    (s.de.ackPending = true ∧ CutOff s t (ackWords s)) ∨
    ∃ v, Confirmed s v ∧ v.de.timeout = 1 ∧ (v.de.awaitingAck = true → v.de.retry ≠ 0) ∧
      ∃ p, pendingIs v p ∧ CutOff v.expired t (dataWords v p) := by
  obtain ⟨u, he, rfl⟩ := concludeUnit_aborted h ha
  obtain ⟨hp, hcut⟩ | ⟨v, hv, he⟩ := tick_abort he
  · exact .inl ⟨hp, hcut.setAnswer _⟩
  · obtain ⟨ht, hr, p, hp, hcut⟩ := tickTimeout_abort he
    exact .inr ⟨v, hv, ht, hr, p, hp, hcut.setAnswer _⟩

/-- An aborted ENQB changes, beside DE, what its SEND does. -/
theorem CutOff.halted_of_enqueuedState {b dst : Byte} (h : CutOff (enqueuedState b dst s) t vs) : HaltedInTx s t :=
  h.halted.of_start rfl rfl rfl rfl

/-- A TICK aborted after its confirmation changes, beside DE, what the confirmation and the SEND do. -/
theorem CutOff.halted_of_confirmed (hv : Confirmed s v) (h : CutOff v.expired t vs) : HaltedInTx s t :=
  h.halted.of_start hv.tci hv.rb hv.st_only hv.errors

theorem Confirmed.pendingIs_iff (hv : Confirmed s v) (p : List Byte) : pendingIs v p ↔ pendingIs s p := by
  simp only [pendingIs, hv.de]

theorem Confirmed.dataWords_eq (hv : Confirmed s v) (p : List Byte) : dataWords v p = dataWords s p := by
  simp only [dataWords, hv.cfg, hv.de]

end

/-- Settles O60: ACKTX and SEND write nothing before their ready polls, so what is kept was written before them. -/
theorem abortedOperationsKeepTheirWrites : Obligations.AbortedOperationsKeepTheirWrites := by
  intro s t ha
  refine ⟨fun h => ?halted, fun h => ?ackTx, fun b dst h => ?enqB, fun h => ?tick⟩
  case halted =>
    have hhalted : HaltedInTx s t := by
      rcases h with h | ⟨b, dst, h⟩ | h
      · exact (exec_ackTx_aborted h ha).halted
      · obtain ⟨-, _, -, hcut⟩ := exec_enqB_aborted h ha
        exact hcut.halted_of_enqueuedState
      · obtain ⟨-, hcut⟩ | ⟨v, hv, -, -, _, -, hcut⟩ := exec_tick_aborted h ha
        · exact hcut.halted
        · exact hcut.halted_of_confirmed hv
    exact ⟨hhalted.tci, hhalted.rb, hhalted.ra, hhalted.errors⟩
  case ackTx =>
    have hcut := exec_ackTx_aborted h ha
    exact ⟨hcut.ra, hcut.de, hcut.words⟩
  case enqB =>
    obtain ⟨hc, p, hp, hcut⟩ := exec_enqB_aborted h ha
    obtain ⟨ws, hpre, hws⟩ := hcut.words
    exact ⟨hc, hcut.ra, s.de.txBuf.write 127 b, p, ws, Memory.read_write s.de.txBuf 127 b,
      hcut.de.trans (enqueuedState_de_full hc), hp, hpre, hws⟩
  case tick =>
    obtain ⟨hp, hcut⟩ | ⟨v, hv, ht, hr, p, hp, hcut⟩ := exec_tick_aborted h ha
    · exact .inl ⟨hp, hcut.ra, hcut.de, hcut.words⟩
    · obtain ⟨ws, hpre, hws⟩ := hcut.words
      have hpre' : ws <+: dataWords s p := hv.dataWords_eq p ▸ hpre
      have hde : v.expired.de = { v.de with
        timeout := 0, retry := if v.de.awaitingAck then v.de.retry - 1 else v.de.retry } := rfl
      rw [hv.de] at ht hr hde
      exact .inr ⟨ht, hr, hcut.ra.trans hv.ra, hcut.de.trans hde, p, ws, (hv.pendingIs_iff p).1 hp,
        hpre', hws.trans (congrArg (· ++ ws) hv.words)⟩

end Sys2Proof.Machine

/-! The frame codec (41_frame_codec.md: R150 to R157): the checksum as a linear map, stuffing and its inverse, what
FRAME.ENC sends, and what `accepts` takes. -/

namespace Sys2Proof.Machine

/-! ### The rounds of the checksum (R150) -/

theorem crcRounds_eq_iterate (poly : Byte) : ∀ (n : Nat) (c : Byte), crcRounds poly n c = (crcRound poly)^[n] c
  | 0, _ => rfl
  | n + 1, c => crcRounds_eq_iterate poly n (crcRound poly c)

/-- Settles O19: the recursion of `crcRounds` is the iteration of one round. -/
theorem crc8UpdIsEightRounds : Obligations.Crc8UpdIsEightRounds := by
  intro c b r s hr
  have hupd : crc8Upd s.cfg c b = r := (crcRounds_eq_iterate s.cfg.crcPoly 8 (c ^^^ b)).trans hr.symm
  rw [← hupd]
  exact conclude_done (s := s) (u := s) rfl

/-! ### The checksum is linear (R152) -/

/-- A round is linear: the generator is added once for each of `a` and `b` that has bit 0 set, and adding it twice
cancels. -/
theorem crcRound_xor (poly a b : Byte) : crcRound poly (a ^^^ b) = crcRound poly a ^^^ crcRound poly b := by
  have hshift : (a ^^^ b) >>> 1 = (a >>> 1) ^^^ (b >>> 1) := BitVec.ushiftRight_xor_distrib a b 1
  simp only [crcRound, hshift, BitVec.getLsbD_xor]
  cases a.getLsbD 0 <;> cases b.getLsbD 0
  · rfl
  · exact BitVec.xor_assoc _ _ _
  · exact (BitVec.xor_assoc _ _ _).trans ((congrArg _ (BitVec.xor_comm _ _)).trans (BitVec.xor_assoc _ _ _).symm)
  · have hcancel : (a >>> 1 ^^^ poly) ^^^ (b >>> 1 ^^^ poly) = (a >>> 1 ^^^ b >>> 1) ^^^ (poly ^^^ poly) := by ac_rfl
    simpa using hcancel.symm

theorem crcRounds_xor (poly : Byte) : ∀ (n : Nat) (a b : Byte),
    crcRounds poly n (a ^^^ b) = crcRounds poly n a ^^^ crcRounds poly n b
  | 0, _, _ => rfl
  | n + 1, a, b => by rw [crcRounds, crcRound_xor, crcRounds_xor poly n]; rfl

theorem crc8Upd_xor (cfg : Cfg) (c₁ c₂ b₁ b₂ : Byte) :
    crc8Upd cfg (c₁ ^^^ c₂) (b₁ ^^^ b₂) = crc8Upd cfg c₁ b₁ ^^^ crc8Upd cfg c₂ b₂ := by
  have hpairs : (c₁ ^^^ c₂) ^^^ (b₁ ^^^ b₂) = (c₁ ^^^ b₁) ^^^ (c₂ ^^^ b₂) := by ac_rfl
  rw [crc8Upd, hpairs, crcRounds_xor]
  rfl

/-- A linear map sends zero to zero: a checksum taken into itself leaves nothing. -/
theorem crc8Upd_self (cfg : Cfg) (c : Byte) : crc8Upd cfg c c = 0 := by
  have hzero := crc8Upd_xor cfg c c c c
  simpa [crc8Upd] using hzero

/-- The checksum of a list and one more byte. -/
theorem crc8_concat (cfg : Cfg) (l : List Byte) (b : Byte) : crc8 cfg (l ++ [b]) = crc8Upd cfg (crc8 cfg l) b :=
  crc8From_append cfg cfg.crcInit l [b]

/-- Settles O20: (a) is linearity, and (b) takes the checksum of `l` into itself. -/
theorem crcIsLinearWithZeroResidue : Obligations.CrcIsLinearWithZeroResidue := fun cfg =>
  ⟨crc8Upd_xor cfg, fun l => (crc8_concat cfg l _).trans (crc8Upd_self cfg (crc8 cfg l))⟩

/-! ### The checksum sees every byte (R152) -/

/-- The round shifts bit 0 out, and bit 7 of the generator records it: only zero is sent to zero. -/
theorem crcRound_eq_zero {poly c : Byte} (hpoly : poly.getLsbD 7 = true) (h : crcRound poly c = 0) : c = 0 := by
  unfold crcRound at h
  cases hbit : c.getLsbD 0
  · have hshift : c >>> 1 = 0 := by rwa [hbit, if_neg Bool.false_ne_true] at h
    refine BitVec.eq_of_getLsbD_eq fun i _ => ?_
    cases i with
    | zero => exact hbit
    | succ i => simpa [Nat.add_comm] using congrArg (BitVec.getLsbD · i) hshift
  · rw [hbit, if_pos rfl] at h
    have htop : (c >>> 1 ^^^ poly).getLsbD 7 = true := by simp [hpoly]
    simp [h] at htop

theorem crcRound_injective {poly : Byte} (hpoly : poly.getLsbD 7 = true) : Function.Injective (crcRound poly) := by
  intro a b hab
  have hdiff : crcRound poly (a ^^^ b) = 0 := by rw [crcRound_xor, hab, BitVec.xor_self]; rfl
  exact BitVec.xor_eq_zero_iff.1 (crcRound_eq_zero hpoly hdiff)

theorem crc8Upd_inj {cfg : Cfg} (hpoly : cfg.crcPoly.getLsbD 7 = true) {c c' b b' : Byte} :
    crc8Upd cfg c b = crc8Upd cfg c' b' ↔ c ^^^ b = c' ^^^ b' := by
  simp only [crc8Upd, crcRounds_eq_iterate]
  exact ((crcRound_injective hpoly).iterate 8).eq_iff

theorem crc8From_injective {cfg : Cfg} (hpoly : cfg.crcPoly.getLsbD 7 = true) (m : List Byte) :
    Function.Injective (fun c => crc8From cfg c m) := by
  induction m with
  | nil => exact fun _ _ h => h
  | cons b m ih => exact fun c c' h => (BitVec.xor_left_inj b).1 ((crc8Upd_inj hpoly).1 (ih h))

/-- Settles O21: the byte that changed leaves another running checksum, and what follows keeps the two apart. -/
theorem oneByteChangeChangesTheCrc : Obligations.OneByteChangeChangesTheCrc := by
  intro cfg l m b d hpoly hd h
  simp only [crc8, crc8From_append] at h
  have hbyte : b ^^^ d = b ^^^ 0 := by
    simpa using (crc8Upd_inj hpoly).1 (crc8From_injective hpoly m h)
  exact hd ((BitVec.xor_right_inj b).1 hbyte)

/-! ### Stuffing and its inverse (R153, R154) -/

@[simp] theorem unstuff_fill {b : Byte} (h : isFill b = true) (e : Byte) (r : List Byte) :
    unstuff (b :: e :: r) = b :: unstuff r := by
  simp [unstuff, h]

@[simp] theorem unstuff_plain {b : Byte} (h : isFill b = false) (r : List Byte) :
    unstuff (b :: r) = b :: unstuff r := by
  cases r <;> simp [unstuff, h]

theorem unstuff_stuff (e : Byte) (l : List Byte) : unstuff (stuff e l) = l := by
  induction l with
  | nil => rfl
  | cons b l ih => cases h : isFill b <;> simp [stuff, h, ih]

theorem length_stuff (e : Byte) (l : List Byte) : (stuff e l).length = l.length + (l.filter isFill).length := by
  induction l with
  | nil => rfl
  | cons b l ih =>
    cases h : isFill b <;> simp [stuff, h, ih] <;> omega

/-- Settles O22, by induction on the list. -/
theorem unstuffUndoesStuff : Obligations.UnstuffUndoesStuff := fun e l => ⟨unstuff_stuff e l, length_stuff e l⟩

/-! ### FRAME.ENC (R155, R156) -/

/-- The body in the words of R156. -/
theorem body_eq (t d src q : Byte) (p : List Byte) :
    body t d src q p = [t, BitVec.ofNat 8 (min p.length 128), d, src, q] ++ p.take 128 := by
  rw [body, clampPayload, List.length_take, Nat.min_comm]

/-- Settles O23: FRAME.ENC when ENV is willing. -/
theorem frameEncSendsTheStuffedFrame : Obligations.FrameEncSendsTheStuffedFrame := by
  intro t d src q p s raw logical hm hlogical hraw hw
  rw [← body_eq] at hlogical
  subst hlogical hraw
  obtain ⟨u, he, hu, -⟩ := frameEnc_done (n := 0) t d src q p s hm hw
  exact ⟨u, hu, conclude_done he⟩

/-! ### `accepts` (R157) -/

theorem toNat_clampLen (b : Byte) : (clampLen b).toNat = min b.toNat 128 := by
  unfold clampLen Config.maxLen
  split
  · omega
  · change 128 = _
    omega

/-- `accepts` of a list that has a Length byte. -/
theorem accepts_iff {cfg : Cfg} {l : List Byte} {b : Byte} (hb : l[1]? = some b) :
    accepts cfg l = true ↔ l.length = 6 + min b.toNat 128 ∧
      l[5 + min b.toNat 128]? = some (crc8 cfg (l.take (5 + min b.toNat 128))) := by
  match l, hb with
  | t :: n :: rest, hb =>
    obtain rfl : n = b := by simpa using hb
    simp only [accepts, Bool.and_eq_true, beq_iff_eq, toNat_clampLen]
    refine and_congr_right fun hlen => ?_
    have hrest : rest.length = 4 + min n.toNat 128 := by simp only [List.length_cons] at hlen; omega
    have hlast : rest.getLast? = (t :: n :: rest)[5 + min n.toNat 128]? := by
      rw [List.getLast?_eq_getElem?, hrest, show 5 + min n.toNat 128 = (3 + min n.toNat 128) + 1 + 1 by omega,
        List.getElem?_cons_succ, List.getElem?_cons_succ]
      congr 1
      omega
    have hinit : t :: n :: rest.dropLast = (t :: n :: rest).take (5 + min n.toNat 128) := by
      rw [List.dropLast_eq_take, hrest, show 5 + min n.toNat 128 = (3 + min n.toNat 128) + 1 + 1 by omega,
        List.take_succ_cons, List.take_succ_cons]
      congr 3
      omega
    rw [hlast, hinit]

theorem accepts_of_short {cfg : Cfg} {l : List Byte} (h : l.length < 2) : accepts cfg l = false := by
  match l, h with
  | [], _ => rfl
  | [_], _ => rfl

theorem getElem?_body_one (t d src q : Byte) (p m : List Byte) :
    (body t d src q p ++ m)[1]? = some (BitVec.ofNat 8 (min p.length 128)) := by
  rw [body_eq]; rfl

theorem length_body_of_fits (t d src q : Byte) {p : List Byte} (h : p.length ≤ 128) :
    (body t d src q p).length = 5 + p.length := by
  rw [body_of_fits t d src q h, List.length_append]
  rfl

/-- The Length byte of a payload that fits is its length, and it is not clamped. -/
theorem min_toNat_ofNat_length {p : List Byte} (h : p.length ≤ 128) :
    min (BitVec.ofNat 8 (min p.length 128)).toNat 128 = p.length := by
  rw [BitVec.toNat_ofNat]
  omega

/-- What must follow a body for the list to be accepted: its checksum, and nothing else. -/
theorem accepts_body_append_iff (cfg : Cfg) (t d src q : Byte) {p : List Byte} (h : p.length ≤ 128) (m : List Byte) :
    accepts cfg (body t d src q p ++ m) = true ↔ m = [crc8 cfg (body t d src q p)] := by
  have hlen := length_body_of_fits t d src q h
  rw [accepts_iff (getElem?_body_one t d src q p m), min_toNat_ofNat_length h, ← hlen, List.take_left,
    List.getElem?_append_right (Nat.le_refl _), Nat.sub_self, List.length_append, hlen]
  match m with
  | [] => simp
  | [c] => simp; omega
  | _ :: _ :: m => simp; omega

/-- A list that is accepted has the length its Length byte says: no shorter list with that byte is accepted. -/
theorem accepts_take_of_lt {cfg : Cfg} {l : List Byte} (h : accepts cfg l = true) {k : Nat} (hk : k < l.length) :
    accepts cfg (l.take k) = false := by
  rcases Nat.lt_or_ge k 2 with hshort | hlong
  · exact accepts_of_short (by rw [List.length_take]; omega)
  · have hb : l[1]? = some l[1] := List.getElem?_eq_getElem (by omega)
    have hbk : (l.take k)[1]? = some l[1] := by rw [List.getElem?_take_of_lt (by omega), hb]
    refine Bool.eq_false_iff.2 fun hacc => ?_
    have hlen := ((accepts_iff hb).1 h).1
    have hlenk := ((accepts_iff hbk).1 hacc).1
    rw [List.length_take] at hlenk
    omega

/-- Settles O24: after a body only its checksum is accepted, and a list is only accepted at the length it states. -/
theorem encodedFrameIsAccepted : Obligations.EncodedFrameIsAccepted := by
  refine ⟨?frame, fun _ _ _ hb => accepts_iff hb, fun _ _ h => accepts_of_short h⟩
  intro cfg t d src q p l hp hl
  have hiff := accepts_body_append_iff cfg t d src q hp
  have hacc : accepts cfg l = true := hl ▸ (hiff _).2 rfl
  have hfields : l = [t, BitVec.ofNat 8 p.length, d, src, q] ++ (p ++ [crc8 cfg (body t d src q p)]) := by
    rw [hl, body_of_fits t d src q hp, List.append_assoc]
  refine ⟨hacc, ?header, ?payload, ?last, fun k hk => accepts_take_of_lt hacc hk, ?longer⟩
  case header => rw [hfields]; rfl
  case payload => rw [hfields]; exact List.take_left
  case last => exact fun c hc => Bool.eq_false_iff.2 fun h => hc (by simpa using (hiff [c]).1 h)
  case longer =>
    intro m hm
    refine Bool.eq_false_iff.2 fun h => hm ?_
    rw [hl, List.append_assoc] at h
    simpa using (hiff _).1 h

end Sys2Proof.Machine

/-! The receive assembler reads an encoded frame back (41_frame_codec.md: R157; 42_receive_assembler.md: R171 to
R177): RXEVT as an update of RA's registers, RXEVT for each byte of a stuffed list, and the registers after the bytes of
a header and of a payload. -/

namespace Sys2Proof.Machine

/-! ### RA's registers after one logical byte (R172 to R177) -/

/-- RA after an RXEVT that read `b` before the checksum byte: the invocation is counted (R171), then the arm that `st`
selects has run. -/
def Ra.took (c : Cfg) (r : Ra) (b : Byte) : Ra :=
  match r.st with
  | .idle => { r with fType := b, crc := crc8Upd c c.crcInit b, wd := 0, st := .len }
  | .len => { r with fLen := clampLen b, crc := crc8Upd c r.crc b, wd := r.wd + 1, st := .dst }
  | .dst => { r with fDst := b, crc := crc8Upd c r.crc b, wd := r.wd + 1, st := .src }
  | .src => { r with fSrc := b, crc := crc8Upd c r.crc b, wd := r.wd + 1, st := .seq }
  | .seq => { r with
      fSeq := b, crc := crc8Upd c r.crc b, wd := r.wd + 1, idx := 0, st := if r.fLen = 0 then .chk else .pay }
  | .pay => { r with
      pay := r.pay.write r.idx.toNat b, crc := crc8Upd c r.crc b, wd := r.wd + 1, idx := r.idx + 1
      st := if r.idx + 1 = r.fLen then .chk else .pay }
  | .chk => r

/-- RA expects a byte before the checksum: no stall (R171), and room for a payload byte (R60). -/
structure Ra.Expects (r : Ra) : Prop where
  notChk : r.st ≠ .chk
  wd : r.st ≠ .idle → r.wd.toNat < 256
  room : r.st = .pay → r.idx.toNat < 128

/-- RA expects every byte of a list, each after the ones before it. -/
def Ra.ExpectsAll (c : Cfg) : Ra → List Byte → Prop
  | _, [] => True
  | r, b :: l => r.Expects ∧ Ra.ExpectsAll c (r.took c b) l

theorem Ra.Expects.not_stalled {s : State} (h : s.ra.Expects) : s.stalled = false := by
  rw [State.stalled, Bool.and_eq_false_iff, decide_eq_false_iff_not]
  by_cases hst : s.ra.st = .idle
  · exact .inl (by rw [hst]; rfl)
  · exact .inr (by have := h.wd hst; change ¬ 256 < _; omega)

/-- The arm that `st` selects writes RA as `took` says, and nothing else. -/
theorem arm_eq_took {s u : State} (b : Byte) (h : s.ra.Expects) (hcfg : u.cfg = s.cfg) (hra : u.ra = s.countWd.ra) :
    arm b u = .done () { u with ra := s.ra.took s.cfg b } := by
  have hst : u.ra.st = s.ra.st := by rw [hra]; rfl
  unfold arm Ra.took
  rw [hst, ← hcfg]
  cases hx : s.ra.st
  case idle | len | dst | src | seq => simp only [armIdle, armLen, armDst, armSrc, armSeq, hra]; rfl
  case pay =>
    have hidx : u.ra.idx.toNat < 128 := by rw [hra]; exact h.room hx
    obtain ⟨-, he⟩ := (armPay_cases b u).resolve_right fun hnot => hnot.1 hidx
    simp only [he, State.payAdvanced, State.setMem_pay, hra]
    rfl
  case chk => exact absurd hx h.notChk

/-! ### RXEVT for each byte of a stuffed list -/

/-- An armed receiver to which ENV feeds the stuffed bytes of `l`, each with a ready poll that succeeds. -/
structure Hears (e : Byte) (l : List Byte) (s : State) : Prop where
  mode : s.tci.mode = .rx
  irq : s.tci.rxIrqEn = true
  feeds : feeds s (stuff e l)
  willing : willing (stuff e l).length s

/-- `u` is `s` after an RXEVT for each byte of `l` before the checksum. -/
structure Heard (e : Byte) (l : List Byte) (s u : State) : Prop where
  runs : ∀ n, rxEvts (n + l.length) s = rxEvts n u
  cfg : u.cfg = s.cfg
  tci : u.tci = { s.tci with cs := if l = [] then s.tci.cs else false }
  ra : u.ra = l.foldl (Ra.took s.cfg) s.ra
  rb : u.rb = s.rb
  de : u.de = s.de
  answers : u.env.answers = s.env.answers.drop (stuff e l).length

theorem Heard.nil (e : Byte) (s : State) : Heard e [] s s := ⟨fun _ => rfl, rfl, rfl, rfl, rfl, rfl, rfl⟩

theorem Heard.cons {e b : Byte} {l : List Byte} {s t u : State} (h : Heard e [b] s t) (k : Heard e l t u) :
    Heard e (b :: l) s u where
  runs n := (h.runs (n + l.length)).trans (k.runs n)
  cfg := k.cfg.trans h.cfg
  tci := by rw [k.tci, h.tci]; simp
  ra := by rw [k.ra, h.ra, h.cfg]; rfl
  rb := k.rb.trans h.rb
  de := k.de.trans h.de
  answers := by
    rw [k.answers, h.answers, List.drop_drop, ← List.length_append, ← stuff_append]
    rfl

theorem rxEvts_succ {n : Nat} {s t : State} (h : exec .rxEvt s = .next t) : rxEvts (n + 1) s = rxEvts n t := by
  rw [rxEvts, h]

/-- One RXEVT that hears a byte RA expects. -/
theorem heard_one_of_hears {e b : Byte} {l : List Byte} {s : State} (h : Hears e (b :: l) s) (hr : s.ra.Expects) :
    ∃ u, Heard e [b] s u ∧ Hears e l u := by
  have hstuff : stuff e (b :: l) = stuff e [b] ++ stuff e l := stuff_append e [b] l
  have hw : willing (rawCount b + (stuff e l).length) s.countWd := by
    have hws := h.willing
    rw [hstuff, List.length_append, length_stuff_singleton] at hws
    exact willing_update (s := s) rfl rfl hws
  have hf : feeds s.countWd (stuff e [b] ++ stuff e l) := hstuff ▸ h.feeds
  obtain ⟨u, hread, hu, hwu, ha, hfu⟩ := rxByte_feeds (s := s.countWd) h.mode hw hf
  have hevt : rxEvt s = .done () { u with ra := s.ra.took s.cfg b } := by
    unfold rxEvt State.rxEnabled State.receiving
    simp [h.mode, h.irq, hr.not_stalled, hread, arm_eq_took b hr hu.cfg hu.ra]
  have htci : u.tci = { s.tci with cs := false } := by
    rw [hu.tci, if_neg (by unfold rawCount; split <;> simp)]; rfl
  refine ⟨{ u with ra := s.ra.took s.cfg b, answer := .unit }, ?_, ?_⟩
  · exact { runs := fun _ => rxEvts_succ (conclude_done hevt), cfg := hu.cfg, tci := htci, ra := rfl, rb := hu.rb,
            de := hu.de, answers := ha }
  · exact { mode := by rw [htci]; exact h.mode, irq := by rw [htci]; exact h.irq, feeds := hfu,
            willing := willing_update (s := u) rfl rfl hwu }

/-- RXEVT for each byte of a list that RA expects. -/
theorem heard_of_hears {e : Byte} {l : List Byte} : ∀ {s : State}, Hears e l s → s.ra.ExpectsAll s.cfg l →
    ∃ u, Heard e l s u := by
  induction l with
  | nil => exact fun {s} _ _ => ⟨s, Heard.nil e s⟩
  | cons b l ih =>
    intro s h hr
    obtain ⟨t, ht, hl⟩ := heard_one_of_hears h hr.1
    have hrest : t.ra.ExpectsAll t.cfg l := by rw [ht.ra, ht.cfg]; exact hr.2
    obtain ⟨u, hu⟩ := ih hl hrest
    exact ⟨u, ht.cons hu⟩

/-! ### RA's registers after a frame's bytes -/

/-- RA in or after the payload of a frame, `p` still to come. -/
structure Ra.Awaits (r : Ra) (p : List Byte) : Prop where
  st : r.st = if p = [] then .chk else .pay
  fLen : r.fLen.toNat = r.idx.toNat + p.length
  fits : r.fLen.toNat ≤ 128
  wd : r.wd.toNat ≤ 4 + r.idx.toNat

/-- `v` is `r` after the payload bytes `p`: at the checksum, with `p` in the buffer from `idx` on. -/
structure Ra.Stored (c : Cfg) (r v : Ra) (p : List Byte) : Prop where
  rest : v = { r with st := .chk, crc := crc8From c r.crc p, idx := v.idx, wd := v.wd, pay := v.pay }
  below : ∀ i < r.idx.toNat, v.pay.read i = r.pay.read i
  stored : ∀ i < p.length, v.pay.read (r.idx.toNat + i) = p[i]?

theorem Ra.Stored.nil (c : Cfg) {r : Ra} (h : r.Awaits []) : r.Stored c r [] where
  rest := by rw [← show r.st = .chk from h.st]; rfl
  below _ _ := rfl
  stored := by simp

section
variable {c : Cfg} {r v : Ra} {b : Byte} {p : List Byte}

theorem Ra.Awaits.toNat_idx_succ (h : r.Awaits (b :: p)) : (r.idx + 1).toNat = r.idx.toNat + 1 := by
  have hlen := h.fLen
  have hfits := h.fits
  rw [List.length_cons] at hlen
  exact BitVec.toNat_add_of_lt (show r.idx.toNat + 1 < 256 by omega)

theorem Ra.Awaits.expects (h : r.Awaits (b :: p)) : r.Expects := by
  have hst : r.st = .pay := h.st
  obtain ⟨-, hlen, hfits, hwd⟩ := h
  rw [List.length_cons] at hlen
  exact { notChk := by rw [hst]; nofun, wd := fun _ => by omega, room := fun _ => by omega }

/-- Arm PAY with `p` still to come after its byte: the comparison with `f_len` tells whether there is any (R177). -/
theorem Ra.Awaits.took_eq (h : r.Awaits (b :: p)) : r.took c b = { r with
    pay := r.pay.write r.idx.toNat b, crc := crc8Upd c r.crc b, wd := r.wd + 1, idx := r.idx + 1
    st := if p = [] then .chk else .pay } := by
  have hst : r.st = .pay := h.st
  have hlast : r.idx + 1 = r.fLen ↔ p = [] := by
    rw [← BitVec.toNat_inj, h.toNat_idx_succ, h.fLen, ← List.length_eq_zero_iff, List.length_cons]
    omega
  simp only [Ra.took, hst, hlast]

theorem Ra.Awaits.took (h : r.Awaits (b :: p)) : (r.took c b).Awaits p := by
  have hidx := h.toNat_idx_succ
  rw [h.took_eq]
  obtain ⟨-, hlen, hfits, hwd⟩ := h
  rw [List.length_cons] at hlen
  have hcount : (r.wd + 1).toNat = r.wd.toNat + 1 :=
    BitVec.toNat_add_of_lt (show r.wd.toNat + 1 < 512 by omega)
  exact { st := rfl, fLen := by simp only [hidx]; omega, fits := hfits, wd := by simp only [hidx, hcount]; omega }

/-- One payload byte stored, then the others. -/
theorem Ra.Stored.cons (h : r.Awaits (b :: p)) (k : (r.took c b).Stored c v p) : r.Stored c v (b :: p) := by
  obtain ⟨hrest, hbelow, hstored⟩ := k
  rw [h.took_eq] at hrest hbelow hstored
  simp only [h.toNat_idx_succ] at hbelow hstored
  refine { rest := hrest, below := fun i hi => ?below, stored := fun i hi => ?stored }
  case below => rw [hbelow i (by omega), Memory.read_write_other _ _ (by omega)]
  case stored =>
    cases i with
    | zero => rw [Nat.add_zero, hbelow _ (by omega), Memory.read_write_same]; rfl
    | succ i =>
      rw [← Nat.add_assoc, Nat.add_right_comm, hstored i (by simpa using hi)]
      rfl

end

/-- RA takes a whole payload: it expects each byte, and stores them in order (R177). -/
theorem Ra.Awaits.stored (c : Cfg) {p : List Byte} : ∀ {r : Ra}, r.Awaits p →
    r.ExpectsAll c p ∧ r.Stored c (p.foldl (Ra.took c) r) p := by
  induction p with
  | nil => exact fun h => ⟨trivial, Ra.Stored.nil c h⟩
  | cons b p ih =>
    intro r h
    obtain ⟨hall, hstored⟩ := ih (h.took (c := c))
    exact ⟨⟨h.expects, hall⟩, hstored.cons h⟩

/-- RA in state IDLE after the five bytes of a header (R172 to R176). -/
def Ra.headed (c : Cfg) (r : Ra) (t n d src q : Byte) : Ra := { r with
  fType := t, fLen := clampLen n, fDst := d, fSrc := src, fSeq := q, crc := crc8 c [t, n, d, src, q], wd := 4, idx := 0
  st := if clampLen n = 0 then .chk else .pay }

theorem Ra.took_header (c : Cfg) {r : Ra} (t n d src q : Byte) (h : r.st = .idle) :
    r.ExpectsAll c [t, n, d, src, q] ∧ [t, n, d, src, q].foldl (Ra.took c) r = r.headed c t n d src q := by
  obtain ⟨⟩ := r
  subst h
  have hcount : ∀ wd : BitVec 9, wd.toNat < 4 → wd.toNat < 256 := fun _ h => by omega
  exact ⟨⟨⟨nofun, fun hx => absurd rfl hx, nofun⟩, ⟨nofun, fun _ => hcount 0 (by decide), nofun⟩,
    ⟨nofun, fun _ => hcount 1 (by decide), nofun⟩, ⟨nofun, fun _ => hcount 2 (by decide), nofun⟩,
    ⟨nofun, fun _ => hcount 3 (by decide), nofun⟩, trivial⟩, rfl⟩

theorem Ra.ExpectsAll.append {c : Cfg} {l m : List Byte} : ∀ {r : Ra}, r.ExpectsAll c l →
    (l.foldl (Ra.took c) r).ExpectsAll c m → r.ExpectsAll c (l ++ m) := by
  induction l with
  | nil => exact fun _ hm => hm
  | cons b l ih => exact fun hl hm => ⟨hl.1, ih hl.2 hm⟩

theorem Ra.headed_awaits (c : Cfg) (r : Ra) (t n d src q : Byte) {p : List Byte} (h : (clampLen n).toNat = p.length)
    (hp : p.length ≤ 128) : (r.headed c t n d src q).Awaits p where
  st := by
    have hzero : clampLen n = 0 ↔ p = [] := by
      rw [← BitVec.toNat_inj, h]
      exact List.length_eq_zero_iff
    simp only [Ra.headed, hzero]
  fLen := h.trans (Nat.zero_add _).symm
  fits := h ▸ hp
  wd := Nat.le_refl 4

/-- Settles O25: RXEVT for each byte of the body is `took` for each, the header first, then the payload. -/
theorem receiverReadsBackTheEncodedFrame : Obligations.ReceiverReadsBackTheEncodedFrame := by
  intro s e t d src q p hp hm hirq hst hfeeds hw
  have hbody := body_of_fits t d src q hp
  have hlen : (clampLen (BitVec.ofNat 8 p.length)).toNat = p.length := by
    rw [toNat_clampLen, BitVec.toNat_ofNat]
    omega
  obtain ⟨hexpects, hheader⟩ := Ra.took_header s.cfg t (BitVec.ofNat 8 p.length) d src q hst
  obtain ⟨hpayload, hstored⟩ := (Ra.headed_awaits s.cfg s.ra t _ d src q hlen hp).stored s.cfg
  have hall : s.ra.ExpectsAll s.cfg (body t d src q p) := by
    rw [hbody]
    exact hexpects.append (hheader ▸ hpayload)
  obtain ⟨u, hu⟩ := heard_of_hears ⟨hm, hirq, hfeeds, hw⟩ hall
  have hra : u.ra = p.foldl (Ra.took s.cfg) (s.ra.headed s.cfg t (BitVec.ofNat 8 p.length) d src q) := by
    rw [hu.ra, hbody, List.foldl_append, hheader]
  rw [← hra] at hstored
  have hruns : rxEvts (5 + p.length) s = some u := by
    have hrun := hu.runs 0
    rwa [Nat.zero_add, length_body_of_fits t d src q hp] at hrun
  have hrest := hstored.rest
  have hcrc : u.ra.crc = crc8 s.cfg (body t d src q p) := by
    rw [hbody, crc8, crc8From_append]
    exact congrArg Ra.crc hrest
  have hpay : holdsAt u.ra.pay p := by
    intro i hi
    have hread := hstored.stored i hi
    rwa [show (s.ra.headed s.cfg t _ d src q).idx.toNat = 0 from rfl, Nat.zero_add] at hread
  exact ⟨u, hruns, congrArg Ra.st hrest, congrArg Ra.fType hrest, (congrArg (·.fLen.toNat) hrest).trans hlen,
    congrArg Ra.fDst hrest, congrArg Ra.fSrc hrest, congrArg Ra.fSeq hrest, hpay, hcrc, hu.answers,
    hu.tci.trans (by rw [if_neg (by simp [hbody])]), hu.rb, hu.de, (congrArg Ra.lastSeq hrest).trans rfl⟩

end Sys2Proof.Machine

/-! The ring buffer and the facade (43_ringbuffer_facade.md: R200 to R205): RB.PUT and RB.GET on a ring whose indices
lie in the buffer, and what each does to the queue. -/

namespace Sys2Proof.Machine

section
variable {s : State}

/-! ### RB.PUT with and without a free slot (R200) -/

theorem rbFull_iff_next (s : State) : s.rbFull = true ↔ (s.rb.head + 1) % s.cfg.rbSize = s.rb.tail := beq_iff_eq

theorem exec_rbPut_full (hf : s.rbFull = true) (b : Byte) :
    exec (.rbPut b) s = .next ((s.raise (.bufferOverflow b)).setAnswer .unit) := by
  obtain ⟨-, he⟩ | ⟨hfree, -⟩ | ⟨hfree, -⟩ := rbPut_cases b s
  · exact conclude_done he
  · exact absurd hf (Bool.eq_false_iff.1 hfree)
  · exact absurd hf (Bool.eq_false_iff.1 hfree)

theorem exec_rbPut_stored (hr : s.ringOk) (hf : s.rbFull = false) (b : Byte) :
    exec (.rbPut b) s = .next ((ringAppended b s).setAnswer .unit) := by
  obtain ⟨hfull, -⟩ | ⟨-, -, he⟩ | ⟨-, hbad, -⟩ := rbPut_cases b s
  · exact absurd hfull (Bool.eq_false_iff.1 hf)
  · exact conclude_done he
  · exact absurd hr.1 hbad

theorem ringOk_ringAppended (hr : s.ringOk) (b : Byte) : (ringAppended b s).ringOk := ⟨nextIndex_lt hr.1, hr.2⟩

/-- A full ring holds `RB_SIZE - 1` bytes (R205). -/
theorem rbFull_iff_length_queue (hr : s.ringOk) : s.rbFull = true ↔ s.queue.length = s.cfg.rbSize - 1 := by
  have hlt := held_lt hr
  rw [rbFull_iff hr, length_queue, State.freeSlots]
  omega

/-! ### RB.GET of a byte that is written (R201) -/

theorem rbGet_done {b : Byte} (hne : s.rb.head ≠ s.rb.tail) (hr : s.ringOk)
    (hb : s.rb.cells.read s.rb.tail = some b) : rbGet s = .done b (s.setTail (nextIndex s.cfg s.rb.tail)) := by
  obtain ⟨hempty, -⟩ | ⟨-, c, -, hc, he⟩ | ⟨-, hbad | hnone, -⟩ := rbGet_cases s
  · exact absurd hempty hne
  · obtain rfl : b = c := Option.some.inj (hb.symm.trans hc)
    exact he
  · exact absurd hr.2 hbad
  · cases hb.symm.trans hnone

theorem ringOk_setTail (hr : s.ringOk) : (s.setTail (nextIndex s.cfg s.rb.tail)).ringOk := ⟨hr.1, nextIndex_lt hr.2⟩

theorem held_eq_zero_iff (hr : s.ringOk) : s.held = 0 ↔ s.rb.head = s.rb.tail := by
  rw [held_eq hr]
  obtain ⟨hh, ht⟩ := hr
  split_ifs <;> omega

theorem held_setTail (hr : s.ringOk) (hne : s.rb.head ≠ s.rb.tail) :
    s.held = (s.setTail (nextIndex s.cfg s.rb.tail)).held + 1 := by
  rw [held_eq (ringOk_setTail hr), held_eq hr]
  simp only [State.setTail_cfg, State.setTail_rb, nextIndex_eq hr.2]
  obtain ⟨hh, ht⟩ := hr
  split_ifs <;> omega

/-- The byte at `tail` is the first of the queue, and advancing `tail` leaves the others (R201, R205). -/
theorem queue_eq_cons (hr : s.ringOk) (hne : s.rb.head ≠ s.rb.tail) :
    s.queue = s.rb.cells.read s.rb.tail :: (s.setTail (nextIndex s.cfg s.rb.tail)).queue := by
  have hplace (k : Nat) :
      (s.rb.tail + (k + 1)) % s.cfg.rbSize = (nextIndex s.cfg s.rb.tail + k) % s.cfg.rbSize := by
    rw [nextIndex, Nat.mod_add_mod, Nat.add_assoc, Nat.add_comm 1 k]
  rw [State.queue, held_setTail hr hne, List.range_succ_eq_map, List.map_cons, List.map_map, Nat.add_zero,
    Nat.mod_eq_of_lt hr.2]
  exact congrArg _ (List.map_congr_left fun k _ => congrArg s.rb.cells.read (hplace k))

/-- A ring whose queue begins with the byte `b` has it at `tail`. -/
theorem tail_of_queue_eq_cons {b : Byte} {q : List (Option Byte)} (hr : s.ringOk) (h : s.queue = some b :: q) :
    s.rb.head ≠ s.rb.tail ∧ s.rb.cells.read s.rb.tail = some b ∧
      (s.setTail (nextIndex s.cfg s.rb.tail)).queue = q := by
  have hne : s.rb.head ≠ s.rb.tail := fun hempty => by
    have hlen : s.held = q.length + 1 := by rw [← length_queue, h, List.length_cons]
    rw [(held_eq_zero_iff hr).2 hempty] at hlen
    cases hlen
  exact ⟨hne, List.cons.inj ((queue_eq_cons hr hne).symm.trans h)⟩

end

/-! ### The statements -/

/-- Settles O40: RB.PUT appends to the queue unless it is full, and RB.GET takes its first byte. -/
theorem ringBufferIsAQueue : Obligations.RingBufferIsAQueue := by
  intro b s hr _
  refine ⟨?bound, fun hroom => ?append, fun hfull => ?drop, fun q hq => ?take⟩
  case bound => exact length_queue s ▸ Nat.le_sub_one_of_lt (held_lt hr)
  case append =>
    have hf : s.rbFull = false := Bool.eq_false_iff.2 (mt (rbFull_iff_length_queue hr).1 hroom.ne)
    exact ⟨_, exec_rbPut_stored hr hf b, queue_ringAppended hr hf b, ringOk_ringAppended hr b⟩
  case drop => exact ⟨_, exec_rbPut_full ((rbFull_iff_length_queue hr).2 hfull) b, rfl⟩
  case take =>
    obtain ⟨hne, hb, hrest⟩ := tail_of_queue_eq_cons hr hq
    exact ⟨_, conclude_done (rbGet_done hne hr hb), rfl, hrest, ringOk_setTail hr⟩

/-- Settles O37: the two cases of RB.PUT. -/
theorem rbPutStoresOrDrops : Obligations.RbPutStoresOrDrops := by
  refine fun b s hr => ⟨fun hfull => exec_rbPut_full ((rbFull_iff_next s).2 hfull) b, fun hfree => ?_⟩
  have hf : s.rbFull = false := Bool.eq_false_iff.2 (mt (rbFull_iff_next s).1 hfree)
  exact ⟨s.rb.cells.write s.rb.head b, Memory.read_write _ _ _, exec_rbPut_stored hr hf b⟩

/-- Settles O38: READBYTE is RB.GET, which reads the byte written at `tail`. -/
theorem readingTakesTheByteAtTail : Obligations.ReadingTakesTheByteAtTail := by
  intro b s hne hr hb i hi
  have hget := rbGet_done hne hr hb
  rcases List.mem_pair.1 hi with rfl | rfl
  · exact conclude_done hget
  · exact conclude_done ((readByte_eq s).trans hget)

/-- `head != tail` as HASDATA computes it (R202). -/
theorem hasBytes_eq_decide (s : State) : s.hasBytes = decide (s.rb.head ≠ s.rb.tail) := by
  by_cases h : s.rb.head = s.rb.tail <;> simp [State.hasBytes, h]

/-- Settles O39: each of the two queries ends in the state it began in. -/
theorem queriesAnswerTheirFlag : Obligations.QueriesAnswerTheirFlag := by
  intro s
  have hdata : exec .hasData s = .next (s.setAnswer (.bit s.hasBytes)) := rfl
  have hbusy : exec .isBusy s = .next (s.setAnswer (.bit s.de.awaitingAck)) := rfl
  exact ⟨hasBytes_eq_decide s ▸ hdata, hbusy⟩

end Sys2Proof.Machine
